-- ==== Sys2Proof/Word.lean ====
section
/-! DEFINITION. The word types of the PPC405 APU extension (spec/00_scope.md R7, R8, R9). -/

namespace Sys2Proof

/-- A general register, an effective or real address, an instruction word, one FSL data word, one FCM beat: 32 bits
(00_scope R7, R9, R10; 10_state R34). -/
abbrev Word := BitVec 32

/-- One byte of memory (20_memory R50). -/
abbrev Byte := BitVec 8

/-- A 5-bit instruction field: a general register number, an FSL number, an FCM5 value or a UDI operand
(00_scope R8, R10, R11; 30_encoding R89). -/
abbrev Field5 := BitVec 5

end Sys2Proof
end

