-- ==== Sys2Proof/Syntax.lean ====
section
/-! DEFINITION. The instruction set: one constructor per row of spec/opcode_table.json (00_scope R2, 30_encoding R99). -/

namespace Sys2Proof

/-- The 44 instructions of the extension. Every operand is a 5-bit field (30_encoding R89), in the order of the
assembler syntax of R99. A constructor `udi<n>fcmDot` is the dotted mnemonic `udi<n>fcm.`, the Rcn = 0 form that modifies
the condition register (R87, 41_udi R132). -/
inductive Instr where
  /-- `get rD, FSLx`: blocking read of a data word (R114). -/
  | get (rD fsl : Field5)
  /-- `nget rD, FSLx`: non-blocking read of a data word (R115). -/
  | nget (rD fsl : Field5)
  /-- `cget rD, FSLx`: blocking read of a control word (R116). -/
  | cget (rD fsl : Field5)
  /-- `ncget rD, FSLx`: non-blocking read of a control word (R117). -/
  | ncget (rD fsl : Field5)
  /-- `put rA, FSLx`: blocking write of a data word (R118). -/
  | put (rA fsl : Field5)
  /-- `nput rA, FSLx`: non-blocking write of a data word (R119). -/
  | nput (rA fsl : Field5)
  /-- `cput rA, FSLx`: blocking write of a control word (R120). -/
  | cput (rA fsl : Field5)
  /-- `ncput rA, FSLx`: non-blocking write of a control word (R121). -/
  | ncput (rA fsl : Field5)
  /-- `udi0fcm T, A, B`: User Defined Instruction 0, CR not modified (R134). -/
  | udi0fcm (t a b : Field5)
  /-- `udi1fcm T, A, B`: User Defined Instruction 1, CR not modified (R135). -/
  | udi1fcm (t a b : Field5)
  /-- `udi2fcm T, A, B`: User Defined Instruction 2, CR not modified (R136). -/
  | udi2fcm (t a b : Field5)
  /-- `udi3fcm T, A, B`: User Defined Instruction 3, CR not modified (R137). -/
  | udi3fcm (t a b : Field5)
  /-- `udi4fcm T, A, B`: User Defined Instruction 4, CR not modified (R138). -/
  | udi4fcm (t a b : Field5)
  /-- `udi5fcm T, A, B`: User Defined Instruction 5, CR not modified (R139). -/
  | udi5fcm (t a b : Field5)
  /-- `udi6fcm T, A, B`: User Defined Instruction 6, CR not modified (R140). -/
  | udi6fcm (t a b : Field5)
  /-- `udi7fcm T, A, B`: User Defined Instruction 7, CR not modified (R141). -/
  | udi7fcm (t a b : Field5)
  /-- `udi0fcm. T, A, B`: User Defined Instruction 0, modifying CR (R142). -/
  | udi0fcmDot (t a b : Field5)
  /-- `udi1fcm. T, A, B`: User Defined Instruction 1, modifying CR (R143). -/
  | udi1fcmDot (t a b : Field5)
  /-- `udi2fcm. T, A, B`: User Defined Instruction 2, modifying CR (R144). -/
  | udi2fcmDot (t a b : Field5)
  /-- `udi3fcm. T, A, B`: User Defined Instruction 3, modifying CR (R145). -/
  | udi3fcmDot (t a b : Field5)
  /-- `udi4fcm. T, A, B`: User Defined Instruction 4, modifying CR (R146). -/
  | udi4fcmDot (t a b : Field5)
  /-- `udi5fcm. T, A, B`: User Defined Instruction 5, modifying CR (R147). -/
  | udi5fcmDot (t a b : Field5)
  /-- `udi6fcm. T, A, B`: User Defined Instruction 6, modifying CR (R148). -/
  | udi6fcmDot (t a b : Field5)
  /-- `udi7fcm. T, A, B`: User Defined Instruction 7, modifying CR (R149). -/
  | udi7fcmDot (t a b : Field5)
  /-- `lbfcmux FCM5, rA, rB`: load byte with update (R160). -/
  | lbfcmux (fcm5 rA rB : Field5)
  /-- `lhfcmux FCM5, rA, rB`: load half word with update (R161). -/
  | lhfcmux (fcm5 rA rB : Field5)
  /-- `lwfcmux FCM5, rA, rB`: load word with update (R162). -/
  | lwfcmux (fcm5 rA rB : Field5)
  /-- `ldfcmux FCM5, rA, rB`: load double with update (R163). -/
  | ldfcmux (fcm5 rA rB : Field5)
  /-- `lqfcmux FCM5, rA, rB`: load quad with update (R164). -/
  | lqfcmux (fcm5 rA rB : Field5)
  /-- `lbfcmx FCM5, rA, rB`: load byte (R175). -/
  | lbfcmx (fcm5 rA rB : Field5)
  /-- `lhfcmx FCM5, rA, rB`: load half word (R176). -/
  | lhfcmx (fcm5 rA rB : Field5)
  /-- `lwfcmx FCM5, rA, rB`: load word (R177). -/
  | lwfcmx (fcm5 rA rB : Field5)
  /-- `ldfcmx FCM5, rA, rB`: load double (R178). -/
  | ldfcmx (fcm5 rA rB : Field5)
  /-- `lqfcmx FCM5, rA, rB`: load quad (R179). -/
  | lqfcmx (fcm5 rA rB : Field5)
  /-- `stbfcmux FCM5, rA, rB`: store byte with update (R190). -/
  | stbfcmux (fcm5 rA rB : Field5)
  /-- `sthfcmux FCM5, rA, rB`: store half word with update (R191). -/
  | sthfcmux (fcm5 rA rB : Field5)
  /-- `stwfcmux FCM5, rA, rB`: store word with update (R192). -/
  | stwfcmux (fcm5 rA rB : Field5)
  /-- `stdfcmux FCM5, rA, rB`: store double with update (R193). -/
  | stdfcmux (fcm5 rA rB : Field5)
  /-- `stqfcmux FCM5, rA, rB`: store quad with update (R194). -/
  | stqfcmux (fcm5 rA rB : Field5)
  /-- `stbfcmx FCM5, rA, rB`: store byte (R205). -/
  | stbfcmx (fcm5 rA rB : Field5)
  /-- `sthfcmx FCM5, rA, rB`: store half word (R206). -/
  | sthfcmx (fcm5 rA rB : Field5)
  /-- `stwfcmx FCM5, rA, rB`: store word (R207). -/
  | stwfcmx (fcm5 rA rB : Field5)
  /-- `stdfcmx FCM5, rA, rB`: store double (R208). -/
  | stdfcmx (fcm5 rA rB : Field5)
  /-- `stqfcmx FCM5, rA, rB`: store quad (R209). -/
  | stqfcmx (fcm5 rA rB : Field5)
deriving DecidableEq, Repr

end Sys2Proof
end

