-- ==== Sys2Proof/Config.lean ====
section
/-! DEFINITION. What one implementation fixes: the launch parameters of 70_reset R260 as plain data, the opaque
functions of the user's FCM and of the translation oracle, and the free values of the spec.

Every parameter the spec leaves OPEN is either a field of `LaunchConfig` (plain data held in State, so that a claim about
every state holds for every value of it) or an `opaque` function here, which nothing in Lean can evaluate. -/

namespace Sys2Proof

/-! ## Names the spec gives -/

/-- The two modes (10_state R30 (a), 60_exceptions R245). -/
inductive Priv where
  | user
  | privileged
deriving DecidableEq, Repr, Inhabited

/-- The direction of a memory access (20_memory R60). -/
inductive Access where
  | load
  | store
deriving DecidableEq, Repr, Inhabited

/-- The five access kinds of the FCM loads and stores: byte, half word, word, double, quad (00_scope R12). -/
inductive AccessKind where
  | b
  | h
  | w
  | d
  | q
deriving DecidableEq, Repr, Inhabited

/-- The storage attribute `Translate` reports (20_memory R52). -/
inductive Endian where
  | big
  | little
deriving DecidableEq, Repr, Inhabited

/-- One word in an FSL queue: 32 bits of data and the control bit (00_scope R10, 10_state R36). -/
structure FslWord where
  data : Word
  control : Bool
deriving DecidableEq, Repr, Inhabited

/-- The moves of the environment, complete (10_state R37): append a word to an input queue, remove the word at the head of
an output queue, change `full`. -/
inductive EnvMove where
  | supply (x : Field5) (w : FslWord)
  | drain (x : Field5)
  | setFull (x : Field5) (full : Bool)
deriving DecidableEq, Repr, Inhabited

/-- `size` bytes of addresses from `base` up, modulo 2^32. -/
structure Region where
  base : Word
  size : Nat
deriving DecidableEq, Repr, Inhabited

/-! ## Encoding parameter -/

/-- `GET_ENC` (30_encoding R86): the bit pattern of the four get instructions, whose figure is lost (R84). `pattern` is
R86's `match`; `nBit` and `cBit` are LSB-0 bit positions, `rDLo` and `fslLo` the lowest bits of the two 5-bit fields. -/
structure GetEnc where
  pattern : Word
  mask : Word
  rDLo : Nat
  fslLo : Nat
  nBit : Nat
  cBit : Nat
deriving DecidableEq, Repr, Inhabited

/-! ## Policies -/

/-- `MISALIGN_POLICY` (20_memory R56, D9). `faultNatural` covers R56's "additionally for double and quad forms may raise
when EA is not a multiple of 8 or 16" (log 23). -/
inductive MisalignPolicy where
  | mask
  | fault
  | faultNatural
deriving DecidableEq, Repr, Inhabited

/-- What `ENDIAN_POLICY` may answer for storage with the little-endian attribute: the Alignment exception or a refusal,
never an access (20_memory R52, 92_eei_decisions D8, 93_implementation_defined U10). -/
inductive LittleAnswer where
  | alignmentException
  | refuse
deriving DecidableEq, Repr, Inhabited

/-- What `ENDIAN_POLICY` answers for storage with any attribute (20_memory R52): storage with the big-endian attribute is
accessed big-endian (R51), and for the other attribute the policy answers. -/
inductive EndianAnswer where
  | bigEndianAccess
  | unsupported (answer : LittleAnswer)
deriving DecidableEq, Repr, Inhabited

/-- One answer for each access kind. -/
structure KindAnswers where
  b : LittleAnswer
  h : LittleAnswer
  w : LittleAnswer
  d : LittleAnswer
  q : LittleAnswer
deriving DecidableEq, Repr, Inhabited

/-- `ENDIAN_POLICY` for storage with the little-endian attribute, by direction and access kind (20_memory R52). -/
structure EndianPolicy where
  loads : KindAnswers
  stores : KindAnswers
deriving DecidableEq, Repr, Inhabited

/-- Which classes of the extension the APU controller is enabled and configured to forward (70_reset R262 (a),
60_exceptions R247). -/
structure ApuClasses where
  fsl : Bool
  udi : Bool
  fcmTransfer : Bool
deriving DecidableEq, Repr, Inhabited

/-! ## Address translation and protection -/

/-- The zone protection of a translation entry (20_memory R60 (c)). -/
inductive Zone where
  | unprotected
  | noAccess
  | readOnly
deriving DecidableEq, Repr, Inhabited

/-- What a valid translation entry says of one effective address: the real address, the Endian attribute and the zone
protection (20_memory R60; 60_exceptions R226: protection and endianness are properties of the entry). -/
structure TlbAnswer where
  ra : Word
  endian : Endian
  zone : Zone
deriving DecidableEq, Repr, Inhabited

/-- One translation entry as plain data: the effective addresses it covers, the real address of the first of them, its
attributes, and whether it is valid. The spec gives no entry format (20_memory R60): this shape is the model's (log 20). -/
structure TlbEntry where
  covers : Region
  realBase : Word
  endian : Endian
  zone : Zone
  valid : Bool
deriving DecidableEq, Repr, Inhabited

/-- The TLB and zone settings that `Translate` reads (10_state R30 (c)): a list of entries, or any oracle at all. -/
inductive TlbSource where
  | entries (l : List TlbEntry)
  | oracle (id : Nat)
deriving DecidableEq, Repr, Inhabited

/-- The translation and protection state: the source above, and the regions that carry the little-endian attribute while
data relocation is disabled (20_memory R52, log 21). -/
structure TranslationState where
  tlb : TlbSource
  realLittle : List Region
deriving DecidableEq, Repr, Inhabited

/-! ## The FCM -/

/-- `FcmState` (00_scope R11, 10_state R32): the FCM's internal state. `fcr` is register storage, 128 words, enough for 32
registers of 128 bits; `internal` is whatever else the user's logic keeps. The processor gives neither any meaning
(log 17). -/
structure FcmState where
  fcr : Vector Word 128
  internal : List Word
deriving DecidableEq, Repr, Inhabited

/-- Which FCM is attached for the load and store beats (00_scope R12 (a), (b)): the reference configuration REF of
95_test_vectors section 2, or a user's FCM, of which nothing is known. -/
inductive FcmLogic where
  | reference
  | user (id : Nat)
deriving DecidableEq, Repr, Inhabited

/-- `t_kind` of 41_udi R130. -/
inductive UdiTarget where
  | gprDest
  | fcr
deriving DecidableEq, Repr, Inhabited

/-- `a_kind` and `b_kind` of 41_udi R130. -/
inductive UdiSource where
  | gprSrc
  | fcr
  | imm5
deriving DecidableEq, Repr, Inhabited

/-- An exception a UDI's user definition raises (41_udi R131 "Exceptions: Dependent on the user operation.",
60_exceptions R220, R227 `UserDefined(..)`): the user's code and recorded value (log 19). -/
structure UserException where
  code : Nat
  info : Word
deriving DecidableEq, Repr, Inhabited

/-- What `op` of 41_udi R130 answers. -/
structure UdiResult where
  fcm : FcmState
  tResult : Option Word
  crResult : Option (BitVec 3 × BitVec 4)
  exc : Option UserException
deriving DecidableEq, Repr, Inhabited

/-- The operation of one UDI (41_udi R130 `op`). The first four are the operations of REF (95_test_vectors section 2);
`constant` answers fixed results and leaves the FCM state alone; `user` is any total function (log 18). -/
inductive UdiOp where
  | refAdd
  | refAddRecord
  | refShiftToFcr
  | refReadFcr
  | constant (tResult : Option Word) (crResult : Option (BitVec 3 × BitVec 4)) (exc : Option UserException)
  | user (id : Nat)
deriving DecidableEq, Repr, Inhabited

/-- `UdiMeaning` (41_udi R130). -/
structure UdiMeaning where
  tKind : UdiTarget
  aKind : UdiSource
  bKind : UdiSource
  op : UdiOp
deriving DecidableEq, Repr, Inhabited

/-! ## The launch parameters -/

/-- The parameters of a run (70_reset R260, 92_eei_decisions section 2), constant while it lasts. `udi` is `udi_def`:
slot 2n + Rcn holds the meaning of UDI n with that Rcn (00_scope R12 (c)). `memMap` says which addresses the launch memory
contains (20_memory R62). -/
structure LaunchConfig where
  getEnc : GetEnc
  misalign : MisalignPolicy
  endian : EndianPolicy
  nFsl : Nat
  apu : ApuClasses
  fcmLogic : FcmLogic
  udi : Vector (Option UdiMeaning) 16
  memMap : List Region
deriving DecidableEq, Repr, Inhabited

/-- The suggested test instance of `GET_ENC` in 92_eei_decisions D11, "not from the source":
`0x10000218 | rD << 21 | FSL << 11 | n << 6 | c << 5`. DESIGN CHOICE, unsafe (log 1). -/
def Config.suggestedGetEnc : GetEnc :=
  { pattern := 0x10000218#32, mask := 0xFC1F079F#32, rDLo := 21, fslLo := 11, nBit := 6, cBit := 5 }

/-- Every little-endian access raises Alignment: "any access with an Endian attribute not supported in hardware"
(60_exceptions R224 (b)). DESIGN CHOICE (log 22). -/
def Config.alignmentForAll : KindAnswers :=
  { b := .alignmentException, h := .alignmentException, w := .alignmentException, d := .alignmentException,
    q := .alignmentException }

/-- The parameters of `State.reset`: the spec's defaults where 92_eei_decisions section 2 gives one (mask, all UDIs none),
else the model's choice (logs 1, 8, 16, 17, 18, 22, 27). -/
def Config.launch : LaunchConfig :=
  { getEnc := Config.suggestedGetEnc
    misalign := .mask
    endian := { loads := Config.alignmentForAll, stores := Config.alignmentForAll }
    nFsl := 32
    apu := { fsl := true, udi := true, fcmTransfer := true }
    fcmLogic := .user 0
    udi := Vector.replicate 16 none
    memMap := [{ base := 0, size := 4294967296 }] }

/-! ## Functions nothing is assumed of (00_scope R12, 20_memory R60) -/

/-- `fcm_load_beat` of user FCM `id`: (fcm, FCM5, kind, update, beat, eb, data) ↦ the FCM state after the beat. -/
opaque Config.userLoadBeat (id : Nat) (fcm : FcmState) (fcm5 : Field5) (kind : AccessKind) (update : Bool)
    (beat : Fin 4) (eb : Nat) (data : Word) : FcmState

/-- `fcm_store_beat` of user FCM `id`: (fcm, FCM5, kind, update, beat, eb) ↦ the 32-bit beat presented. -/
opaque Config.userStoreBeat (id : Nat) (fcm : FcmState) (fcm5 : Field5) (kind : AccessKind) (update : Bool)
    (beat : Fin 4) (eb : Nat) : Word

/-- `op` of user UDI `id`: (fcm, T, A, B, a_val, b_val) ↦ its results (41_udi R130). -/
opaque Config.userUdiOp (id : Nat) (fcm : FcmState) (t a b : Field5) (aVal bVal : Option Word) : UdiResult

/-- Translation oracle `id`: what its valid entry for `ea` says, or none where it has no valid entry. The result may
depend on everything 20_memory R60 lists. -/
opaque Config.tlbOracle (id : Nat) (ea : Word) (access : Access) (priv : Priv) : Option TlbAnswer

/-! ## Free values: `any32`, `any1` of 00_scope R15 and the draws of 60_exceptions R228 -/

/-- A 32-bit value under no law, the n-th drawn in a run. -/
opaque Config.freeWord (n : Nat) : Word

/-- A bit under no law. -/
opaque Config.freeBit (n : Nat) : Bool

/-- An FCM state under no law (60_exceptions R228 (b)). -/
opaque Config.freeFcm (n : Nat) : FcmState

end Sys2Proof
end

