-- ==== Sys2Proof/WellFormed.lean ====
section
/-! DEFINITION. Well-formed instructions: the one check a term of `Instr` can fail (30_encoding R95). -/

namespace Sys2Proof

/-- An update form names a base register other than 0 (30_encoding R95: "rA = 0" is an invalid form of the ten update
forms). Every other operand takes all 32 values of its field (R89); whether an FSL number exists is a property of the
machine (10_state R38), not of the term. -/
def Instr.wellFormed : Instr → Bool
  | .get _ _ => true
  | .nget _ _ => true
  | .cget _ _ => true
  | .ncget _ _ => true
  | .put _ _ => true
  | .nput _ _ => true
  | .cput _ _ => true
  | .ncput _ _ => true
  | .udi0fcm _ _ _ => true
  | .udi1fcm _ _ _ => true
  | .udi2fcm _ _ _ => true
  | .udi3fcm _ _ _ => true
  | .udi4fcm _ _ _ => true
  | .udi5fcm _ _ _ => true
  | .udi6fcm _ _ _ => true
  | .udi7fcm _ _ _ => true
  | .udi0fcmDot _ _ _ => true
  | .udi1fcmDot _ _ _ => true
  | .udi2fcmDot _ _ _ => true
  | .udi3fcmDot _ _ _ => true
  | .udi4fcmDot _ _ _ => true
  | .udi5fcmDot _ _ _ => true
  | .udi6fcmDot _ _ _ => true
  | .udi7fcmDot _ _ _ => true
  | .lbfcmux _ rA _ => rA != 0
  | .lhfcmux _ rA _ => rA != 0
  | .lwfcmux _ rA _ => rA != 0
  | .ldfcmux _ rA _ => rA != 0
  | .lqfcmux _ rA _ => rA != 0
  | .lbfcmx _ _ _ => true
  | .lhfcmx _ _ _ => true
  | .lwfcmx _ _ _ => true
  | .ldfcmx _ _ _ => true
  | .lqfcmx _ _ _ => true
  | .stbfcmux _ rA _ => rA != 0
  | .sthfcmux _ rA _ => rA != 0
  | .stwfcmux _ rA _ => rA != 0
  | .stdfcmux _ rA _ => rA != 0
  | .stqfcmux _ rA _ => rA != 0
  | .stbfcmx _ _ _ => true
  | .sthfcmx _ _ _ => true
  | .stwfcmx _ _ _ => true
  | .stdfcmx _ _ _ => true
  | .stqfcmx _ _ _ => true

end Sys2Proof
end

