-- ==== Sys2Proof/Decode.lean ====
section
/-! DEFINITION. Decoding, total on any bytes and rejecting by name (30_encoding R80 to R97), and after it the encoder,
written from the same tables. Bit positions are LSB-0 (00_scope R14). -/

namespace Sys2Proof

/-! ## Fields and patterns -/

/-- The 5-bit field of `w` whose lowest bit is `lo` (30_encoding R81 to R83). -/
def fieldAt (lo : Nat) (w : Word) : Field5 := w.extractLsb' lo 5

/-- A 5-bit field placed with its lowest bit at `lo`. -/
def placeField (lo : Nat) (f : Field5) : Word := f.setWidth 32 <<< lo

/-- A bit placed at `lo`. -/
def placeBit (lo : Nat) (v : Bool) : Word := (BitVec.ofBool v).setWidth 32 <<< lo

/-- `base | f1 << 21 | f2 << 16 | f3 << 11`: the word of formats X-FCM and X-UDI (R85, R87). -/
def threeFieldWord (base : Word) (f1 f2 f3 : Field5) : Word :=
  base ||| placeField 21 f1 ||| placeField 16 f2 ||| placeField 11 f3

/-- Fixed bits of format X-FCM: OPCD, XO and bit {31} (R85). -/
def fcmMask : Word := 0xFC0007FF#32

/-- The same less the reserved bit {31} (R93). -/
def fcmUnreservedMask : Word := 0xFC0007FE#32

/-- Fixed bits of format X-UDI less n and Rcn, and their value (R90 step 2). -/
def udiMask : Word := 0xFC00063E#32
def udiPattern : Word := 0x10000406#32

/-- Fixed bits of format X-PUT less n and c, and their value (R88, R90 step 3). -/
def putMask : Word := 0xFFE0079F#32
def putPattern : Word := 0x10000298#32

/-- The same less the reserved field {6:10} and bit {31} (R93). -/
def putUnreservedMask : Word := 0xFC00079E#32

/-! ## The opcode tables -/

/-- The base word of each FCM load and store (R85, all fields 0) with the instruction it stands for. -/
def fcmRows : List (Word × (Field5 → Field5 → Field5 → Instr)) :=
  [ (0x7C00000E#32, .lbfcmx),
    (0x7C00004E#32, .lhfcmx),
    (0x7C00008E#32, .lwfcmx),
    (0x7C0000CE#32, .lqfcmx),
    (0x7C00010E#32, .stbfcmx),
    (0x7C00014E#32, .sthfcmx),
    (0x7C00018E#32, .stwfcmx),
    (0x7C0001CE#32, .stqfcmx),
    (0x7C00020E#32, .ldfcmx),
    (0x7C00030E#32, .stdfcmx),
    (0x7C00040E#32, .lbfcmux),
    (0x7C00044E#32, .lhfcmux),
    (0x7C00048E#32, .lwfcmux),
    (0x7C0004CE#32, .lqfcmux),
    (0x7C00050E#32, .stbfcmux),
    (0x7C00054E#32, .sthfcmux),
    (0x7C00058E#32, .stwfcmux),
    (0x7C0005CE#32, .stqfcmux),
    (0x7C00060E#32, .ldfcmux),
    (0x7C00070E#32, .stdfcmux) ]

/-- The UDI of number `n` and last bit `rcn` (R87, R90 step 2): Rcn = 0 is the dotted mnemonic. -/
def udiInstr (n : BitVec 3) (rcn : Bool) : Field5 → Field5 → Field5 → Instr :=
  match rcn, n with
  | true, 0#3 => .udi0fcm
  | true, 1#3 => .udi1fcm
  | true, 2#3 => .udi2fcm
  | true, 3#3 => .udi3fcm
  | true, 4#3 => .udi4fcm
  | true, 5#3 => .udi5fcm
  | true, 6#3 => .udi6fcm
  | true, 7#3 => .udi7fcm
  | false, 0#3 => .udi0fcmDot
  | false, 1#3 => .udi1fcmDot
  | false, 2#3 => .udi2fcmDot
  | false, 3#3 => .udi3fcmDot
  | false, 4#3 => .udi4fcmDot
  | false, 5#3 => .udi5fcmDot
  | false, 6#3 => .udi6fcmDot
  | false, 7#3 => .udi7fcmDot

/-- The put form with selector bits n and c (R88, 40_fsl_get_put R110). -/
def putInstr (n c : Bool) : Field5 → Field5 → Instr :=
  match n, c with
  | false, false => .put
  | true, false => .nput
  | false, true => .cput
  | true, true => .ncput

/-- The get form with selector bits n and c (R86, 40_fsl_get_put R110). -/
def getInstr (n c : Bool) : Field5 → Field5 → Instr :=
  match n, c with
  | false, false => .get
  | true, false => .nget
  | false, true => .cget
  | true, true => .ncget

/-! ## The parameter GET_ENC -/

/-- The bits of a 5-bit field and of a single bit, as masks. -/
def GetEnc.rDMask (e : GetEnc) : Word := placeField e.rDLo 31#5
def GetEnc.fslMask (e : GetEnc) : Word := placeField e.fslLo 31#5
def GetEnc.nMask (e : GetEnc) : Word := placeBit e.nBit true
def GetEnc.cMask (e : GetEnc) : Word := placeBit e.cBit true

/-- What R86 asks of `GET_ENC`: primary opcode 4, covered by the mask; a pattern disjoint from the puts and the UDIs. And
what makes it a record of fields at all: every field lies inside the word, no two of them nor a field and the mask share a
bit, and the pattern has no bit outside the mask. -/
def GetEnc.wf (e : GetEnc) : Bool :=
  e.pattern.extractLsb' 26 6 == 4#6 && e.mask.extractLsb' 26 6 == 63#6 &&
  e.pattern &&& ~~~e.mask == 0#32 &&
  (e.mask &&& putMask &&& (e.pattern ^^^ putPattern)) != 0#32 &&
  (e.mask &&& udiMask &&& (e.pattern ^^^ udiPattern)) != 0#32 &&
  decide (e.rDLo ≤ 27) && decide (e.fslLo ≤ 27) && decide (e.nBit ≤ 31) && decide (e.cBit ≤ 31) &&
  e.mask &&& e.rDMask == 0#32 && e.mask &&& e.fslMask == 0#32 && e.mask &&& e.nMask == 0#32 &&
  e.mask &&& e.cMask == 0#32 && e.rDMask &&& e.fslMask == 0#32 && e.rDMask &&& e.nMask == 0#32 &&
  e.rDMask &&& e.cMask == 0#32 && e.fslMask &&& e.nMask == 0#32 && e.fslMask &&& e.cMask == 0#32 &&
  e.nMask &&& e.cMask == 0#32

/-! ## Decoding -/

/-- Why the decoder rejects. All of them are the spec's refusals. -/
inductive DecodeError where
  /-- Fewer than four bytes: no instruction is shorter than one word (R80). -/
  | truncated
  /-- A pattern with a reserved bit set: "boundedly undefined", refused (R94). -/
  | invalidFormReserved
  /-- An update form with rA = 0: "boundedly undefined", refused (R95). -/
  | invalidFormRA0
  /-- Not a word of the extension (R90 step 6, 00_scope R6). -/
  | notInExtension (w : Word)
deriving DecidableEq, Repr

/-- The invalid-form rule R95, applied to the instruction step (1) of R90 found. -/
def checkForm (i : Instr) : Except DecodeError Instr :=
  if i.wellFormed then .ok i else .error .invalidFormRA0

/-- Does `w` match `GET_ENC` (R90 step 4)? -/
def GetEnc.covers (e : GetEnc) (w : Word) : Bool := w &&& e.mask == e.pattern

/-- Step (5) of R90: `w` differs from a pattern of steps (1) or (3) only in reserved bits. -/
def reservedBitsSet (w : Word) : Bool :=
  (fcmRows.lookup (w &&& fcmUnreservedMask)).isSome || w &&& putUnreservedMask == putPattern

/-- The decoding procedure R90, its steps in its order. -/
def decodeWord (e : GetEnc) (w : Word) : Except DecodeError Instr :=
  match fcmRows.lookup (w &&& fcmMask) with
  | some mk => checkForm (mk (fieldAt 21 w) (fieldAt 16 w) (fieldAt 11 w))
  | none =>
    if w &&& udiMask == udiPattern then
      .ok (udiInstr (w.extractLsb' 6 3) (w.getLsbD 0) (fieldAt 21 w) (fieldAt 16 w) (fieldAt 11 w))
    else if w &&& putMask == putPattern then
      .ok (putInstr (w.getLsbD 6) (w.getLsbD 5) (fieldAt 16 w) (fieldAt 11 w))
    else if e.covers w then
      .ok (getInstr (w.getLsbD e.nBit) (w.getLsbD e.cBit) (fieldAt e.rDLo w) (fieldAt e.fslLo w))
    else if reservedBitsSet w then .error .invalidFormReserved
    else .error (.notInExtension w)

/-- The word four bytes form, the byte at the lowest address first: big-endian (20_memory R69). -/
def wordOfBytes (b0 b1 b2 b3 : Byte) : Word := b0 ++ b1 ++ b2 ++ b3

/-- The bytes of a word as memory holds them, lowest address first (20_memory R51, R69). -/
def bytesOfWord (w : Word) : List Byte :=
  [w.extractLsb' 24 8, w.extractLsb' 16 8, w.extractLsb' 8 8, w.extractLsb' 0 8]

/-- The decoder: the instruction at the head of a list of bytes, and the bytes after it. An instruction is always four
bytes (R80, R97). -/
def decode (e : GetEnc) : List Byte → Except DecodeError (Instr × List Byte)
  | b0 :: b1 :: b2 :: b3 :: rest =>
    match decodeWord e (wordOfBytes b0 b1 b2 b3) with
    | .ok i => .ok (i, rest)
    | .error r => .error r
  | _ => .error .truncated

/-- The instruction the decoder reads from a row of spec/opcode_table.json whose bits are `w`: one 32-bit word, laid out in
memory's byte order. The get rows are decoded under the launch value of `GET_ENC` (log 1). -/
def decodeTableWord (nbits w : Nat) : Option Instr :=
  match decode Config.launch.getEnc (bytesOfWord (BitVec.ofNat 32 (w % 2 ^ nbits))) with
  | .ok (i, _) => some i
  | .error _ => none

/-! ## Encoding -/

/-- The word of a get form: `GET_ENC`'s pattern with the fields in their places (R86). -/
def getWord (e : GetEnc) (n c : Bool) (rD fsl : Field5) : Word :=
  e.pattern ||| placeField e.rDLo rD ||| placeField e.fslLo fsl ||| placeBit e.nBit n ||| placeBit e.cBit c

/-- `0x10000298 | rA << 16 | FSL << 11 | n << 6 | c << 5` (R88). -/
def putWord (n c : Bool) (rA fsl : Field5) : Word :=
  putPattern ||| placeField 16 rA ||| placeField 11 fsl ||| placeBit 6 n ||| placeBit 5 c

/-- `0x10000406 | T << 21 | A << 16 | B << 11 | n << 6 | Rcn` (R87). -/
def udiWord (n : BitVec 3) (rcn : Bool) (t a b : Field5) : Word :=
  threeFieldWord (udiPattern ||| n.setWidth 32 <<< 6 ||| placeBit 0 rcn) t a b

/-- The word of an instruction (R85 to R88). -/
def encodeWord (e : GetEnc) : Instr → Word
  | .get rD fsl => getWord e false false rD fsl
  | .nget rD fsl => getWord e true false rD fsl
  | .cget rD fsl => getWord e false true rD fsl
  | .ncget rD fsl => getWord e true true rD fsl
  | .put rA fsl => putWord false false rA fsl
  | .nput rA fsl => putWord true false rA fsl
  | .cput rA fsl => putWord false true rA fsl
  | .ncput rA fsl => putWord true true rA fsl
  | .udi0fcm t a b => udiWord 0#3 true t a b
  | .udi1fcm t a b => udiWord 1#3 true t a b
  | .udi2fcm t a b => udiWord 2#3 true t a b
  | .udi3fcm t a b => udiWord 3#3 true t a b
  | .udi4fcm t a b => udiWord 4#3 true t a b
  | .udi5fcm t a b => udiWord 5#3 true t a b
  | .udi6fcm t a b => udiWord 6#3 true t a b
  | .udi7fcm t a b => udiWord 7#3 true t a b
  | .udi0fcmDot t a b => udiWord 0#3 false t a b
  | .udi1fcmDot t a b => udiWord 1#3 false t a b
  | .udi2fcmDot t a b => udiWord 2#3 false t a b
  | .udi3fcmDot t a b => udiWord 3#3 false t a b
  | .udi4fcmDot t a b => udiWord 4#3 false t a b
  | .udi5fcmDot t a b => udiWord 5#3 false t a b
  | .udi6fcmDot t a b => udiWord 6#3 false t a b
  | .udi7fcmDot t a b => udiWord 7#3 false t a b
  | .lbfcmux fcm5 rA rB => threeFieldWord 0x7C00040E#32 fcm5 rA rB
  | .lhfcmux fcm5 rA rB => threeFieldWord 0x7C00044E#32 fcm5 rA rB
  | .lwfcmux fcm5 rA rB => threeFieldWord 0x7C00048E#32 fcm5 rA rB
  | .ldfcmux fcm5 rA rB => threeFieldWord 0x7C00060E#32 fcm5 rA rB
  | .lqfcmux fcm5 rA rB => threeFieldWord 0x7C0004CE#32 fcm5 rA rB
  | .lbfcmx fcm5 rA rB => threeFieldWord 0x7C00000E#32 fcm5 rA rB
  | .lhfcmx fcm5 rA rB => threeFieldWord 0x7C00004E#32 fcm5 rA rB
  | .lwfcmx fcm5 rA rB => threeFieldWord 0x7C00008E#32 fcm5 rA rB
  | .ldfcmx fcm5 rA rB => threeFieldWord 0x7C00020E#32 fcm5 rA rB
  | .lqfcmx fcm5 rA rB => threeFieldWord 0x7C0000CE#32 fcm5 rA rB
  | .stbfcmux fcm5 rA rB => threeFieldWord 0x7C00050E#32 fcm5 rA rB
  | .sthfcmux fcm5 rA rB => threeFieldWord 0x7C00054E#32 fcm5 rA rB
  | .stwfcmux fcm5 rA rB => threeFieldWord 0x7C00058E#32 fcm5 rA rB
  | .stdfcmux fcm5 rA rB => threeFieldWord 0x7C00070E#32 fcm5 rA rB
  | .stqfcmux fcm5 rA rB => threeFieldWord 0x7C0005CE#32 fcm5 rA rB
  | .stbfcmx fcm5 rA rB => threeFieldWord 0x7C00010E#32 fcm5 rA rB
  | .sthfcmx fcm5 rA rB => threeFieldWord 0x7C00014E#32 fcm5 rA rB
  | .stwfcmx fcm5 rA rB => threeFieldWord 0x7C00018E#32 fcm5 rA rB
  | .stdfcmx fcm5 rA rB => threeFieldWord 0x7C00030E#32 fcm5 rA rB
  | .stqfcmx fcm5 rA rB => threeFieldWord 0x7C0001CE#32 fcm5 rA rB

/-- The bytes of an instruction as memory holds them. -/
def encode (e : GetEnc) (i : Instr) : List Byte := bytesOfWord (encodeWord e i)

end Sys2Proof
end

