-- ==== Sys2Proof/Machine/State.lean ====
section
/-! DEFINITION. The machine's state, the reasons a step can stop, and the state after reset. -/

namespace Sys2Proof.Machine

/-- Bytes of memory by address: a list of (address, byte) in the one canonical form `Memory.wf` (Machine/Ops.lean). -/
structure Memory where
  cells : List Host.Cell
deriving DecidableEq, Repr

/-- Everything the spec gives the machine, and nothing else (70_reset R260; INVENTORY.md lists the rule of each field). -/
structure State where
  /-- r0 to r31 (10_state R20). -/
  gpr : Vector Word 32
  /-- Address of the instruction being executed (R24). -/
  pc : Word
  /-- XER[CA] and XER[OV], two independent bits (R25). -/
  xerCa : Bool
  xerOv : Bool
  /-- The XER fields the source does not name, SO among them (R25, R28; log 5). -/
  xerRest : BitVec 30
  /-- The condition register: CR0 is the most significant 4-bit field (R29; log 6). -/
  cr : BitVec 32
  /-- User or privileged mode (R30 (a)). -/
  priv : Priv
  /-- Data relocation enabled (R30 (b)). -/
  dataReloc : Bool
  /-- TLB, zone protection and storage attributes (R30 (c)). -/
  translation : TranslationState
  /-- Data and program memory (R35). -/
  mem : Memory
  /-- The FCM's own state (R33). -/
  fcm : FcmState
  /-- The 32-bit transfer latch between processor and FCM (R34). -/
  fcmData : Word
  /-- fsl_in[x], fsl_out[x] and full(x) (R36). -/
  fslIn : Vector (List FslWord) 32
  fslOut : Vector (List FslWord) 32
  fslFull : Vector Bool 32
  /-- What the environment will still do: one batch of moves before each processor step (R37; log 15). -/
  env : List (List EnvMove)
  /-- The launch parameters (70_reset R260). -/
  cfg : LaunchConfig
  /-- The program text: `progLen` words from `progBase` (70_reset R263; log 24, which says what a
  `progBase` that is not a multiple of 4 means). -/
  progBase : Word
  progLen : Nat
  /-- The MODEL's own counter of free values drawn (log 10). -/
  draws : Nat
deriving DecidableEq, Repr

/-- The exceptions an instruction can raise (60_exceptions R220, R227). -/
inductive ExceptionKind where
  | dataStorage
  | dataTlbMiss
  | alignment
  | programPrivileged
  | userDefined (code : Nat)
deriving DecidableEq, Repr

/-- What a terminal fault records (R227, R230, R231): the address of the raising instruction, `info`, and the frozen
state. -/
structure FaultRecord where
  pc : Word
  info : Word
  frozen : State
deriving DecidableEq, Repr

/-- The exceptions of 60_exceptions R227 as the terminal faults of R230: the run does not continue. Safe: where the chip
would enter a handler the model stops (log 9). -/
inductive Fault where
  /-- An FCM load or store beat that zone protection prevents (R221, R222). Safe. -/
  | dataStorage (r : FaultRecord)
  /-- An FCM load or store beat with no valid translation entry (R223). Safe. -/
  | dataTlbMiss (r : FaultRecord)
  /-- An FCM load or store: misaligned sum under a fault policy, or an unsupported Endian attribute (R224). Safe. -/
  | alignment (r : FaultRecord)
  /-- A get or put form in user mode (R225, 40_fsl_get_put R113). Safe. -/
  | programPrivileged (r : FaultRecord)
  /-- A UDI whose user definition raises (R220, 41_udi R131). Safe. -/
  | userDefined (code : Nat) (r : FaultRecord)
deriving DecidableEq, Repr

/-- Where the spec gives a situation no meaning and a model must not continue (00_scope R15 `refuse`). -/
inductive Refusal where
  /-- An arm of `exec` without a meaning; no arm answers it. Safe. -/
  | notModelled (mnemonic : String)
  /-- `step`: the fetched bytes are no instruction of the extension (30_encoding R90 step 6). Safe. -/
  | notInExtension (w : Word)
  /-- `step`: an FCM load, FCM store or put pattern with a reserved bit set (R94). Safe. -/
  | invalidFormReserved
  /-- `step` and the ten update forms: rA = 0 (R95). Safe. -/
  | invalidFormRA0
  /-- `step`: fewer than four bytes reached the decoder; a fetch never gives fewer. Safe. -/
  | truncated
  /-- get and put forms: FSL number not below N_FSL (10_state R38). Safe. -/
  | noSuchFsl
  /-- UDIs: the user defined no such instruction (41_udi R131). Safe. -/
  | udiNotDefined
  /-- Every instruction: the APU controller does not forward its class (70_reset R262). Safe. -/
  | apuNotForwarding
  /-- FCM loads and stores: an address the launch memory does not contain (20_memory R62). Safe. -/
  | noSuchAddress
  /-- FCM stores: a stored byte lies in the program text (20_memory R67). Safe. -/
  | storeToProgramText
  /-- FCM loads and stores: a little-endian access for which the policy gives no effect (20_memory R52). Safe. -/
  | endianNotGiven
  /-- `step`: pc is not a multiple of 4 (10_state R24). Safe. -/
  | pcMisaligned
  /-- `step`: pc lies outside the program and is not its end address (70_reset R263). Safe. -/
  | fetchOutsideProgram
deriving DecidableEq, Repr

/-- The state a run starts from. The spec states no reset value (10_state R45), so every value here is the model's or the
PowerPC 405's, under the log entry INVENTORY.md names for it. No program is loaded. -/
def State.reset : State :=
  { gpr := Vector.replicate 32 0
    pc := 0xFFFFFFFC#32
    xerCa := false
    xerOv := false
    xerRest := 0
    cr := 0
    priv := .privileged
    dataReloc := false
    translation := { tlb := .entries [], realLittle := [] }
    mem := { cells := [] }
    fcm := { fcr := Vector.replicate 128 0, internal := [] }
    fcmData := 0
    fslIn := Vector.replicate 32 []
    fslOut := Vector.replicate 32 []
    fslFull := Vector.replicate 32 false
    env := []
    cfg := Config.launch
    progBase := 0xFFFFFFFC#32
    progLen := 0
    draws := 0 }

end Sys2Proof.Machine
end

