-- ==== Sys2Proof/Machine/Ops.lean ====
section
/-! DEFINITION. The named operations on registers, memory, translation, FSL queues and the environment, and the one
operation that raises an exception. -/

namespace Sys2Proof.Machine

/-! ## Registers (10_state R20 to R34) -/

/-- `x[r]` (00_scope R15). No register is hard-wired (10_state R22). -/
def State.readGpr (s : State) (r : Field5) : Word := s.gpr[r.toNat]'r.isLt

/-- `x[r] <- v`. -/
def State.writeGpr (s : State) (r : Field5) (v : Word) : State := { s with gpr := s.gpr.set r.toNat v r.isLt }

/-- `pc <- pc + 4` modulo 2^32 (10_state R24). -/
def State.advance (s : State) : State := { s with pc := s.pc + 4#32 }

/-- `XER.CA <- v`. -/
def State.setCa (s : State) (v : Bool) : State := { s with xerCa := v }

/-- `XER.OV <- v`. -/
def State.setOv (s : State) (v : Bool) : State := { s with xerOv := v }

/-- `CR <- v`. -/
def State.setCr (s : State) (v : BitVec 32) : State := { s with cr := v }

/-- `fcm <- v` (10_state R33). -/
def State.setFcm (s : State) (v : FcmState) : State := { s with fcm := v }

/-- `fcm_data <- v` (10_state R34). -/
def State.setLatch (s : State) (v : Word) : State := { s with fcmData := v }

/-- `n` free values have been drawn (log 10). -/
def State.drawn (s : State) (n : Nat) : State := { s with draws := s.draws + n }

/-- The memory replaced. -/
def State.setMem (s : State) (m : Memory) : State := { s with mem := m }

/-! ## Memory (20_memory R50, R51) -/

/-- What an address no cell lists reads as: the spec gives memory no launch contents (10_state R45). DESIGN CHOICE,
unsafe (log 7). -/
def Memory.unlistedByte : Byte := 0

/-- The byte a list of cells holds at `a`. -/
def Memory.lookupCell : List Host.Cell → Nat → Byte
  | [], _ => Memory.unlistedByte
  | (k, v) :: rest, a => if k = a then v else Memory.lookupCell rest a

/-- A list of cells with the byte at `a` replaced, in canonical form if it was. -/
def Memory.putCell : List Host.Cell → Nat → Byte → List Host.Cell
  | [], a, v => if v = Memory.unlistedByte then [] else [(a, v)]
  | (k, u) :: rest, a, v =>
    if a < k then (if v = Memory.unlistedByte then (k, u) :: rest else (a, v) :: (k, u) :: rest)
    else if a = k then (if v = Memory.unlistedByte then rest else (a, v) :: rest)
    else (k, u) :: Memory.putCell rest a v

/-- Addresses at least `lo`, strictly rising, below 2^32, and no byte equal to what an unlisted address reads as. -/
def Memory.cellsWf : Nat → List Host.Cell → Bool
  | _, [] => true
  | lo, (k, v) :: rest =>
    decide (lo ≤ k) && decide (k < 4294967296) && v != Memory.unlistedByte && Memory.cellsWf (k + 1) rest

/-- The one canonical form of memory. -/
def Memory.wf (m : Memory) : Bool := Memory.cellsWf 0 m.cells

/-- `M[a]`, the byte at real address `a` (20_memory R51). -/
def Memory.read (m : Memory) (a : Word) : Byte := Memory.lookupCell m.cells a.toNat

/-- `M[a] <- v`. -/
def Memory.write (m : Memory) (a : Word) (v : Byte) : Memory := { cells := Memory.putCell m.cells a.toNat v }

/-- The `n` bytes at `ra .. ra+n-1`, the lowest address most significant, zero-extended to 32 bits (20_memory R51). -/
def Memory.readBytes (m : Memory) (ra : Word) : Nat → Word
  | 0 => 0
  | n + 1 => Memory.readBytes m ra n <<< 8 ||| (m.read (ra + BitVec.ofNat 32 n)).setWidth 32

/-- The `n` bytes at `ra .. ra+n-1` replaced by the low `n` bytes of `v`, the lowest address most significant
(20_memory R51). -/
def Memory.writeBytes (m : Memory) (ra : Word) (v : Word) : Nat → Memory
  | 0 => m
  | n + 1 => (Memory.writeBytes m ra (v >>> 8) n).write (ra + BitVec.ofNat 32 n) (v.setWidth 8)

/-- Is `a` one of the region's addresses, modulo 2^32? -/
def regionHas (g : Region) (a : Word) : Bool := decide ((a - g.base).toNat < g.size)

/-- Does the launch memory contain `a` (20_memory R62)? -/
def State.memoryHas (s : State) (a : Word) : Bool := s.cfg.memMap.any (regionHas · a)

/-- Is `a` one of the bytes of the program's words (70_reset R263)? The rule gives pc0 no alignment: any `progBase` is
admitted here, and `State.fetchPlace` says what one that is not a multiple of 4 means. DESIGN CHOICE (log 24). -/
def State.inText (s : State) (a : Word) : Bool := decide ((a - s.progBase).toNat < 4 * s.progLen)

/-- Does `p` hold of each of the `n` addresses from `ra` up? -/
def allBytes (p : Word → Bool) (ra : Word) : Nat → Bool
  | 0 => true
  | n + 1 => allBytes p ra n && p (ra + BitVec.ofNat 32 n)

/-! ## Raising an exception (60_exceptions R227, R230, R231)

An exception is a terminal fault: this spec gives no trap entry (R230) and no return from one (R232). -/

/-- The fault an exception kind becomes. -/
def faultOf : ExceptionKind → FaultRecord → Fault
  | .dataStorage, r => .dataStorage r
  | .dataTlbMiss, r => .dataTlbMiss r
  | .alignment, r => .alignment r
  | .programPrivileged, r => .programPrivileged r
  | .userDefined code, r => .userDefined code r

/-- `raise kind(info)` by the instruction at `s.pc`: the step answers `Fault(kind, pc, info)` and the state is `frozen`
(R227, R230). -/
def raiseException (kind : ExceptionKind) (info : Word) (s frozen : State) : Host.Outcome State Fault Refusal :=
  .fault (faultOf kind { pc := s.pc, info := info, frozen := frozen })

/-- How a memory beat ends when it does not complete. -/
inductive Stop where
  | raised (kind : ExceptionKind) (info : Word)
  | refused (r : Refusal)
deriving DecidableEq, Repr

/-! ## Translation (20_memory R52, R60, R61) -/

/-- The results of `Translate` (R60). -/
inductive Translation where
  | ok (ra : Word) (endian : Endian)
  | tlbMiss
  | noAccess
  | readOnly
deriving DecidableEq, Repr

/-- The first valid entry that covers `ea`, and what it says of it. -/
def lookupEntry : List TlbEntry → Word → Option TlbAnswer
  | [], _ => none
  | e :: rest, ea =>
    if e.valid && regionHas e.covers ea then
      some { ra := e.realBase + (ea - e.covers.base), endian := e.endian, zone := e.zone }
    else lookupEntry rest ea

/-- The lookup "in the TLB" (R60 (b)). -/
def lookupTlb (t : TlbSource) (ea : Word) (access : Access) (priv : Priv) : Option TlbAnswer :=
  match t with
  | .entries l => lookupEntry l ea
  | .oracle id => Config.tlbOracle id ea access priv

/-- The storage attribute of `ea` with relocation disabled (R52). -/
def realEndian (t : TranslationState) (ea : Word) : Endian :=
  if t.realLittle.any (regionHas · ea) then .little else .big

/-- `Translate(ea, access, priv, data_reloc)` with the constraints of R60: with relocation disabled it is `ok` with ra = ea;
no-access protection applies in user mode only, read-only protection to stores in both modes (60_exceptions R221, R222). -/
def State.translate (s : State) (ea : Word) (access : Access) : Translation :=
  if s.dataReloc then
    match lookupTlb s.translation.tlb ea access s.priv with
    | none => .tlbMiss
    | some e =>
      match e.zone, s.priv, access with
      | .noAccess, .user, _ => .noAccess
      | .readOnly, _, .store => .readOnly
      | .noAccess, .privileged, _ => .ok e.ra e.endian
      | .readOnly, _, .load => .ok e.ra e.endian
      | .unprotected, _, _ => .ok e.ra e.endian
  else .ok ea (realEndian s.translation ea)

/-- The policy's answer for one access kind. -/
def kindAnswer (a : KindAnswers) : AccessKind → LittleAnswer
  | .b => a.b
  | .h => a.h
  | .w => a.w
  | .d => a.d
  | .q => a.q

/-- `ENDIAN_POLICY(kind, access, attribute)` (20_memory R52): storage with the big-endian attribute is accessed
big-endian (R51); storage with the little-endian attribute never is (92_eei_decisions D8). -/
def endianAnswer (p : EndianPolicy) (kind : AccessKind) (access : Access) (e : Endian) : EndianAnswer :=
  match e, access with
  | .big, _ => .bigEndianAccess
  | .little, .load => .unsupported (kindAnswer p.loads kind)
  | .little, .store => .unsupported (kindAnswer p.stores kind)

/-- The part `MemRead` and `MemWrite` share (20_memory R53, R54; order of 60_exceptions R226 (4)): the real address of an
access of `n` bytes at `ea`, or why there is none. -/
def State.realAddress (s : State) (kind : AccessKind) (access : Access) (ea : Word) (n : Nat) : Except Stop Word :=
  match s.translate ea access with
  | .tlbMiss => .error (.raised .dataTlbMiss ea)
  | .noAccess => .error (.raised .dataStorage ea)
  | .readOnly => .error (.raised .dataStorage ea)
  | .ok ra endian =>
    match endianAnswer s.cfg.endian kind access endian with
    | .unsupported .alignmentException => .error (.raised .alignment ea)
    | .unsupported .refuse => .error (.refused .endianNotGiven)
    | .bigEndianAccess => if allBytes s.memoryHas ra n then .ok ra else .error (.refused .noSuchAddress)

/-- `MemRead(ea, n)` (20_memory R53), zero-extended to 32 bits. It changes no state. -/
def State.memRead (s : State) (kind : AccessKind) (ea : Word) (n : Nat) : Except Stop Word :=
  match s.realAddress kind .load ea n with
  | .error e => .error e
  | .ok ra => .ok (s.mem.readBytes ra n)

/-- `MemWrite(ea, n, v)` (20_memory R54): the memory after it. A store into the program text is refused (R67). -/
def State.memWrite (s : State) (kind : AccessKind) (ea : Word) (n : Nat) (v : Word) : Except Stop Memory :=
  match s.realAddress kind .store ea n with
  | .error e => .error e
  | .ok ra =>
    if allBytes (fun a => !s.inText a) ra n then .ok (s.mem.writeBytes ra v n)
    else .error (.refused .storeToProgramText)

/-! ## FSL queues (10_state R36 to R38) -/

/-- `fsl_in[x]`. -/
def State.inQueue (s : State) (x : Field5) : List FslWord := s.fslIn[x.toNat]'x.isLt

/-- `fsl_out[x]`. -/
def State.outQueue (s : State) (x : Field5) : List FslWord := s.fslOut[x.toNat]'x.isLt

/-- `full(x)`. -/
def State.isFull (s : State) (x : Field5) : Bool := s.fslFull[x.toNat]'x.isLt

/-- Does FSLx exist: x < N_FSL (R38)? -/
def State.hasFsl (s : State) (x : Field5) : Bool := decide (x.toNat < s.cfg.nFsl)

/-- `fsl_in[x] <- q`. -/
def State.setInQueue (s : State) (x : Field5) (q : List FslWord) : State :=
  { s with fslIn := s.fslIn.set x.toNat q x.isLt }

/-- `fsl_out[x] <- q`. -/
def State.setOutQueue (s : State) (x : Field5) (q : List FslWord) : State :=
  { s with fslOut := s.fslOut.set x.toNat q x.isLt }

/-- `full(x) <- v`. -/
def State.setFull (s : State) (x : Field5) (v : Bool) : State :=
  { s with fslFull := s.fslFull.set x.toNat v x.isLt }

/-! ## The environment (10_state R37) -/

/-- One move of the environment. A move on an interface that does not exist does nothing (R36 gives queues to
0 .. N_FSL-1 only). -/
def State.envMove (s : State) : EnvMove → State
  | .supply x w => if s.hasFsl x then s.setInQueue x (s.inQueue x ++ [w]) else s
  | .drain x => if s.hasFsl x then s.setOutQueue x (s.outQueue x).tail else s
  | .setFull x v => if s.hasFsl x then s.setFull x v else s

/-- A batch of moves, in order. -/
def State.envMoves (s : State) : List EnvMove → State
  | [] => s
  | m :: rest => (s.envMove m).envMoves rest

/-- The environment's turn before a processor step: its next batch (R37, 70_reset R275; log 15). -/
def State.envTurn (s : State) : State :=
  match s.env with
  | [] => s
  | batch :: rest => ({ s with env := rest } : State).envMoves batch

/-! ## The program and instruction fetch (20_memory R69, 70_reset R263) -/

/-- The four bytes at pc, read directly from memory without `Translate` (R69). -/
def State.fetchBytes (s : State) : List Byte :=
  [s.mem.read s.pc, s.mem.read (s.pc + 1#32), s.mem.read (s.pc + 2#32), s.mem.read (s.pc + 3#32)]

/-- The instruction word at pc, big-endian (R69). -/
def State.instrWord (s : State) : Word :=
  wordOfBytes (s.mem.read s.pc) (s.mem.read (s.pc + 1#32)) (s.mem.read (s.pc + 2#32)) (s.mem.read (s.pc + 3#32))

/-- Where pc stands: at one of the program's words, at the end address, or elsewhere (70_reset R263). -/
inductive FetchPlace where
  | text
  | programEnd
  | outside
deriving DecidableEq, Repr

/-- pc against the program's words `pc0, pc0+4, .., pc0+4(k-1)` (70_reset R263): an address inside the text that is none
of these starts no word, and a fetch there is refused. So the four bytes of every fetch lie in the text, which no store
may touch (20_memory R67), and with a `progBase` that is not a multiple of 4, which R263 does not exclude, a pc that is
(10_state R24) starts none of the words. DESIGN CHOICE (log 24). -/
def State.fetchPlace (s : State) : FetchPlace :=
  if s.inText s.pc && (s.pc - s.progBase) &&& 3#32 == 0#32 then .text
  else if (s.pc - s.progBase).toNat = 4 * s.progLen then .programEnd
  else .outside

/-- Is pc a multiple of 4 (10_state R24)? -/
def State.pcAligned (s : State) : Bool := s.pc &&& 3#32 == 0#32

/-- The refusal a decoder's rejection becomes (30_encoding R90, R94, R95). -/
def refusalOf : DecodeError → Refusal
  | .truncated => .truncated
  | .invalidFormReserved => .invalidFormReserved
  | .invalidFormRA0 => .invalidFormRA0
  | .notInExtension w => .notInExtension w

end Sys2Proof.Machine
end

