-- ==== Sys2Proof/Machine/Flags.lean ====
section
/-! DEFINITION. Every flag and condition-register computation of the spec. -/

namespace Sys2Proof.Machine

/-- `XER.OV` after a get that found a word with control bit `k`, expecting `c`: 0 on a match, 1 otherwise; it is written,
not accumulated (10_state R27, 40_fsl_get_put R111). -/
def ovOfGet (k c : Bool) : Bool := k != c

/-- `XER.CA` after a non-blocking get: `not exists` (10_state R26). -/
def caOfGet (present : Bool) : Bool := !present

/-- `XER.CA` after a non-blocking put: `full` (10_state R26). -/
def caOfPut (full : Bool) : Bool := full

/-- The lowest bit of CR field `f`: CR0 is the most significant field (10_state R29, 95_test_vectors section 2; log 6). -/
def crFieldLo (f : BitVec 3) : Nat := 28 - 4 * f.toNat

/-- `CR field f <- v`; all other fields unchanged (41_udi R131, R132; 92_eei_decisions D23). -/
def writeCrField (cr : BitVec 32) (f : BitVec 3) (v : BitVec 4) : BitVec 32 :=
  (cr &&& ~~~(0xF#32 <<< crFieldLo f)) ||| (v.setWidth 32 <<< crFieldLo f)

/-- CR field `f`. -/
def readCrField (cr : BitVec 32) (f : BitVec 3) : BitVec 4 := cr.extractLsb' (crFieldLo f) 4

/-- LT GT EQ SO of a result, as REF's `udi0fcm.` computes them: LT its sign, EQ zero, GT neither, SO 0
(95_test_vectors section 2). -/
def recordOf (v : Word) : BitVec 4 :=
  if v.msb then 8#4 else if v == 0#32 then 2#4 else 4#4

end Sys2Proof.Machine
end

