-- ==== Sys2Proof/Machine/Operands.lean ====
section
/-! DEFINITION. Operand forms: `(0|rA)`, the effective address, byte lanes, beats, UDI operands. -/

namespace Sys2Proof.Machine

/-! ## Access kinds (20_memory R55, R58) -/

/-- Bytes of one memory access of the kind: 1, 2, or 4 for word, double and quad (R58). -/
def unitBytes : AccessKind → Nat
  | .b => 1
  | .h => 2
  | .w => 4
  | .d => 4
  | .q => 4

/-- The beats of a transfer, in order (R58). -/
def beatsOf : AccessKind → List (Fin 4)
  | .b => [0]
  | .h => [0]
  | .w => [0]
  | .d => [0, 1]
  | .q => [0, 1, 2, 3]

/-- The low bits of the sum that R55 clears. -/
def alignMask : AccessKind → Word
  | .b => 0#32
  | .h => 1#32
  | .w => 3#32
  | .d => 3#32
  | .q => 3#32

/-- Does a beat of the kind fill the whole 32-bit latch? Byte and half word beats leave lanes undefined (10_state R34). -/
def fillsLatch : AccessKind → Bool
  | .b => false
  | .h => false
  | .w => true
  | .d => true
  | .q => true

/-! ## Addresses (20_memory R55 to R58) -/

/-- `x[rA]` in the update forms, `(0|rA)` in the others: the constant 0 when the field is 0 (10_state R22). -/
def baseOperand (update : Bool) (rA : Field5) (s : State) : Word :=
  if !update && rA == 0#5 then 0#32 else s.readGpr rA

/-- `sum <- base + x[rB]` modulo 2^32 (R55). -/
def addressSum (update : Bool) (rA rB : Field5) (s : State) : Word := baseOperand update rA s + s.readGpr rB

/-- `EA`: the sum with its low bits cleared (R55). -/
def effectiveAddress (kind : AccessKind) (sum : Word) : Word := sum &&& ~~~alignMask kind

/-- The address of a beat: EA + 4 * beat modulo 2^32 (R58). -/
def beatAddress (ea : Word) (beat : Fin 4) : Word := ea + BitVec.ofNat 32 (4 * beat.val)

/-- Does `MISALIGN_POLICY` make this transfer raise Alignment (R56, 60_exceptions R224 (a))? `faultNatural` also raises for
a double or quad EA that is not a multiple of 8 or 16. -/
def misalignRaises (p : MisalignPolicy) (kind : AccessKind) (sum : Word) : Bool :=
  match p, kind with
  | .mask, _ => false
  | .fault, _ => sum != effectiveAddress kind sum
  | .faultNatural, .d => sum &&& 7#32 != 0#32
  | .faultNatural, .q => sum &&& 15#32 != 0#32
  | .faultNatural, _ => sum != effectiveAddress kind sum

/-! ## Byte lanes (20_memory R57) -/

/-- `eb <- 8 * EA[1:0]`; 0 for the word-sized kinds, whose EA is a multiple of 4. -/
def laneOffset (ea : Word) : Nat := 8 * (ea &&& 3#32).toNat

/-- The low `n` bytes of a word. -/
def lowBytes (n : Nat) : Word := BitVec.ofNat 32 (2 ^ (8 * n) - 1)

/-- The lowest bit of the lane of `n` bytes at IBM bit `eb`: `data[31-eb : 32-8n-eb]` (R57). -/
def laneLo (eb n : Nat) : Nat := 32 - 8 * n - eb

/-- `background` with the lane of `n` bytes at `eb` replaced by the low `n` bytes of `v`. -/
def insertLane (eb n : Nat) (v background : Word) : Word :=
  (background &&& ~~~(lowBytes n <<< laneLo eb n)) ||| ((v &&& lowBytes n) <<< laneLo eb n)

/-- The lane of `n` bytes at `eb`, zero-extended. -/
def extractLane (eb n : Nat) (data : Word) : Word := (data >>> laneLo eb n) &&& lowBytes n

/-! ## UDI operands (41_udi R130, R131) -/

/-- `a_val`, `b_val`: the register's value for `gpr_src`; no register is read for the other kinds (R131, D30). -/
def udiSourceValue (kind : UdiSource) (field : Field5) (s : State) : Option Word :=
  match kind with
  | .gprSrc => some (s.readGpr field)
  | .fcr => none
  | .imm5 => none

end Sys2Proof.Machine
end

