-- ==== Sys2Proof/Machine/Fcm.lean ====
section
/-! DEFINITION. The attached FCM: the configuration functions of 00_scope R12 and 41_udi R130. The reference
configuration REF is the spec's own (95_test_vectors section 2, "not from the source"); a user's FCM is opaque. -/

namespace Sys2Proof.Machine

/-! ## Register storage -/

/-- Where `F[f].w[k]` stands in the FCM's register storage. -/
def fcrIndex (f : Field5) (k : Fin 4) : Fin 128 :=
  ⟨4 * f.toNat + k.val, by have := f.isLt; omega⟩

/-- `F[f].w[k]`. -/
def readFcr (fcm : FcmState) (f : Field5) (k : Fin 4) : Word := fcm.fcr[(fcrIndex f k).val]

/-- `F[f].w[k] <- v`. -/
def writeFcr (fcm : FcmState) (f : Field5) (k : Fin 4) (v : Word) : FcmState :=
  { fcm with fcr := fcm.fcr.set (fcrIndex f k).val v }

/-! ## Load and store beats (00_scope R12 (a), (b)) -/

/-- REF's `fcm_load_beat`. -/
def refLoadBeat (fcm : FcmState) (f : Field5) (kind : AccessKind) (beat : Fin 4) (eb : Nat) (data : Word) : FcmState :=
  match kind with
  | .b => writeFcr fcm f 0 (((extractLane eb 1 data).setWidth 8).signExtend 32)
  | .h => writeFcr fcm f 0 (((extractLane eb 2 data).setWidth 16).signExtend 32)
  | .w => writeFcr fcm f 0 data
  | .d => writeFcr fcm f beat data
  | .q => writeFcr fcm f beat data

/-- REF's `fcm_store_beat`. -/
def refStoreBeat (fcm : FcmState) (f : Field5) (kind : AccessKind) (beat : Fin 4) : Word :=
  match kind with
  | .b => let v : Byte := (readFcr fcm f 0).setWidth 8; v ++ v ++ v ++ v
  | .h => let v : BitVec 16 := (readFcr fcm f 0).setWidth 16; v ++ v
  | .w => readFcr fcm f 0
  | .d => readFcr fcm f beat
  | .q => readFcr fcm f beat

/-- `fcm_load_beat(fcm, FCM5, kind, update, beat, eb, data)` (00_scope R12 (a), 42_fcm_load_update R165). -/
def fcmLoadBeat (l : FcmLogic) (fcm : FcmState) (f : Field5) (kind : AccessKind) (update : Bool) (beat : Fin 4)
    (eb : Nat) (data : Word) : FcmState :=
  match l with
  | .reference => refLoadBeat fcm f kind beat eb data
  | .user id => Config.userLoadBeat id fcm f kind update beat eb data

/-- `fcm_store_beat(fcm, FCM5, kind, update, beat, eb)`, a pure function of the FCM state (00_scope R12 (b),
44_fcm_store_update R195). -/
def fcmStoreBeat (l : FcmLogic) (fcm : FcmState) (f : Field5) (kind : AccessKind) (update : Bool) (beat : Fin 4)
    (eb : Nat) : Word :=
  match l with
  | .reference => refStoreBeat fcm f kind beat
  | .user id => Config.userStoreBeat id fcm f kind update beat eb

/-! ## UDI operations (41_udi R130) -/

/-- `udi_def(n, Rcn)` (00_scope R12 (c)): slot 2n + Rcn of the table. -/
def State.udiDef (s : State) (n : BitVec 3) (rcn : BitVec 1) : Option UdiMeaning :=
  s.cfg.udi[(n ++ rcn).toNat]'(n ++ rcn).isLt

/-- `op` of a UDI. REF's operations read `a_val`, `b_val` as its kinds make them; a value not supplied counts as 0. -/
def udiResult (op : UdiOp) (fcm : FcmState) (t a b : Field5) (aVal bVal : Option Word) : UdiResult :=
  match op with
  | .refAdd => { fcm := fcm, tResult := some (aVal.getD 0 + bVal.getD 0), crResult := none, exc := none }
  | .refAddRecord =>
    let r := aVal.getD 0 + bVal.getD 0
    { fcm := fcm, tResult := some r, crResult := some (0#3, recordOf r), exc := none }
  | .refShiftToFcr =>
    { fcm := writeFcr fcm t 0 (aVal.getD 0 <<< b.toNat), tResult := none, crResult := none, exc := none }
  | .refReadFcr =>
    { fcm := fcm, tResult := some (readFcr fcm a (Fin.ofNat 4 b.toNat)), crResult := none, exc := none }
  | .constant tr cr e => { fcm := fcm, tResult := tr, crResult := cr, exc := e }
  | .user id => Config.userUdiOp id fcm t a b aVal bVal

end Sys2Proof.Machine
end

