-- ==== Sys2Proof/Machine/Transfer.lean ====
section
/-! DEFINITION. What the twenty FCM loads and stores share: the checks before the first beat, and how a transfer ends. -/

namespace Sys2Proof.Machine

/-- How the beats of a transfer end: all done, or stopped at one of them. -/
inductive TransferEnd where
  | done (s : State)
  | stopped (why : Stop) (beat : Fin 4)
deriving DecidableEq, Repr

/-- Before any beat (60_exceptions R226): the invalid form rA = 0 of an update form (30_encoding R95), the launch premise
that the APU controller forwards FCM loads and stores (70_reset R262), the misalignment test on the sum (20_memory R56);
then the beats at the effective address. Not privileged (42_fcm_load_update R171). -/
def fcmChecked (kind : AccessKind) (update : Bool) (rA rB : Field5) (s : State)
    (beats : Word → Host.Outcome State Fault Refusal) : Host.Outcome State Fault Refusal :=
  if update && rA == 0#5 then .refused .invalidFormRA0
  else if !s.cfg.apu.fcmTransfer then .refused .apuNotForwarding
  else if misalignRaises s.cfg.misalign kind (addressSum update rA rB s) then
    raiseException .alignment (addressSum update rA rB s) s s
  else beats (effectiveAddress kind (addressSum update rA rB s))

/-- `x[rA] <- EA` in the update forms (42_fcm_load_update R169, 44_fcm_store_update R198), then `pc <- pc + 4`. -/
def afterTransfer (update : Bool) (rA : Field5) (ea : Word) (s : State) : State :=
  (if update then s.writeGpr rA ea else s).advance

/-- The outcome of a transfer begun in `s`; `frozenAt` is the state an exception at each beat leaves (60_exceptions R228,
R231). -/
def finishTransfer (update : Bool) (rA : Field5) (ea : Word) (s : State) (frozenAt : Fin 4 → State) :
    TransferEnd → Host.Outcome State Fault Refusal
  | .done t => .next (afterTransfer update rA ea t)
  | .stopped (.raised kind info) beat => raiseException kind info s (frozenAt beat)
  | .stopped (.refused r) _ => .refused r

end Sys2Proof.Machine
end

