-- ==== Sys2Proof/Machine/FcmLoad.lean ====
section
/-! DEFINITION. The ten FCM loads (42_fcm_load_update, 43_fcm_load). -/

namespace Sys2Proof.Machine

/-- The 32-bit beat of a load that read `v`: for byte and half word the datum in lane `eb` and free values elsewhere
(42_fcm_load_update R167); for the other kinds the word itself. -/
def loadData (kind : AccessKind) (eb : Nat) (v : Word) (s : State) : Word :=
  if fillsLatch kind then v else insertLane eb (unitBytes kind) v (Config.freeWord s.draws)

/-- The state after one beat delivered `data` (R165): the latch, the FCM's state, and for byte and half word a free value
drawn. -/
def deliverBeat (kind : AccessKind) (update : Bool) (f : Field5) (beat : Fin 4) (eb : Nat) (data : Word) (s : State) :
    State :=
  ((s.setLatch data).setFcm (fcmLoadBeat s.cfg.fcmLogic s.fcm f kind update beat eb data)).drawn
    (if fillsLatch kind then 0 else 1)

/-- One load beat: `MemRead` at the beat's address, then `fcm_load_beat` (R160 to R164). -/
def loadBeat (kind : AccessKind) (update : Bool) (f : Field5) (ea : Word) (beat : Fin 4) (s : State) :
    Except Stop State :=
  match s.memRead kind (beatAddress ea beat) (unitBytes kind) with
  | .error e => .error e
  | .ok v => .ok (deliverBeat kind update f beat (laneOffset ea) (loadData kind (laneOffset ea) v s) s)

/-- The load beats in order; the first that stops ends the transfer (60_exceptions R226). -/
def loadBeats (kind : AccessKind) (update : Bool) (f : Field5) (ea : Word) : List (Fin 4) → State → TransferEnd
  | [], s => .done s
  | beat :: rest, s =>
    match loadBeat kind update f ea beat s with
    | .error e => .stopped e beat
    | .ok t => loadBeats kind update f ea rest t

/-- The state an exception at `beat` of a load begun in `s` leaves (60_exceptions R228, R231): unchanged at the first beat;
after an earlier beat has been delivered the FCM state and the latch are free (logs 13, 30). -/
def loadFrozen (s : State) (beat : Fin 4) : State :=
  if beat = 0 then s
  else ((s.setFcm (Config.freeFcm s.draws)).setLatch (Config.freeWord s.draws)).drawn 1

/-- An FCM load of `kind` (R165, R166). -/
def loadForm (kind : AccessKind) (update : Bool) (f rA rB : Field5) (s : State) : Host.Outcome State Fault Refusal :=
  fcmChecked kind update rA rB s fun ea =>
    finishTransfer update rA ea s (loadFrozen s) (loadBeats kind update f ea (beatsOf kind) s)

/-- `lbfcmux FCM5, rA, rB`: load byte with update (R160). -/
def execLbfcmux (fcm5 rA rB : Field5) (s : State) : Host.Outcome State Fault Refusal :=
  loadForm .b true fcm5 rA rB s

/-- `lhfcmux FCM5, rA, rB`: load half word with update (R161). -/
def execLhfcmux (fcm5 rA rB : Field5) (s : State) : Host.Outcome State Fault Refusal :=
  loadForm .h true fcm5 rA rB s

/-- `lwfcmux FCM5, rA, rB`: load word with update (R162). -/
def execLwfcmux (fcm5 rA rB : Field5) (s : State) : Host.Outcome State Fault Refusal :=
  loadForm .w true fcm5 rA rB s

/-- `ldfcmux FCM5, rA, rB`: load double with update (R163). -/
def execLdfcmux (fcm5 rA rB : Field5) (s : State) : Host.Outcome State Fault Refusal :=
  loadForm .d true fcm5 rA rB s

/-- `lqfcmux FCM5, rA, rB`: load quad with update (R164). -/
def execLqfcmux (fcm5 rA rB : Field5) (s : State) : Host.Outcome State Fault Refusal :=
  loadForm .q true fcm5 rA rB s

/-- `lbfcmx FCM5, rA, rB`: load byte (R175). -/
def execLbfcmx (fcm5 rA rB : Field5) (s : State) : Host.Outcome State Fault Refusal :=
  loadForm .b false fcm5 rA rB s

/-- `lhfcmx FCM5, rA, rB`: load half word (R176). -/
def execLhfcmx (fcm5 rA rB : Field5) (s : State) : Host.Outcome State Fault Refusal :=
  loadForm .h false fcm5 rA rB s

/-- `lwfcmx FCM5, rA, rB`: load word (R177). -/
def execLwfcmx (fcm5 rA rB : Field5) (s : State) : Host.Outcome State Fault Refusal :=
  loadForm .w false fcm5 rA rB s

/-- `ldfcmx FCM5, rA, rB`: load double (R178). -/
def execLdfcmx (fcm5 rA rB : Field5) (s : State) : Host.Outcome State Fault Refusal :=
  loadForm .d false fcm5 rA rB s

/-- `lqfcmx FCM5, rA, rB`: load quad (R179). -/
def execLqfcmx (fcm5 rA rB : Field5) (s : State) : Host.Outcome State Fault Refusal :=
  loadForm .q false fcm5 rA rB s

end Sys2Proof.Machine
end

