-- ==== Sys2Proof/Machine/FcmStore.lean ====
section
/-! DEFINITION. The ten FCM stores (44_fcm_store_update, 45_fcm_store). -/

namespace Sys2Proof.Machine

/-- The beat the FCM presents (R195). -/
def storeData (kind : AccessKind) (update : Bool) (f : Field5) (ea : Word) (beat : Fin 4) (s : State) : Word :=
  fcmStoreBeat s.cfg.fcmLogic s.fcm f kind update beat (laneOffset ea)

/-- What of the beat reaches memory: the lane `eb` for byte and half word, the whole beat otherwise (R197). -/
def storedValue (kind : AccessKind) (ea : Word) (data : Word) : Word :=
  if fillsLatch kind then data else extractLane (laneOffset ea) (unitBytes kind) data

/-- One store beat: `fcm_store_beat`, then `MemWrite` at the beat's address (R190 to R194). With `lands` false the access
is made but the bytes keep their old values (60_exceptions R228 (c)). -/
def storeBeat (kind : AccessKind) (update : Bool) (f : Field5) (ea : Word) (beat : Fin 4) (lands : Bool) (s : State) :
    Except Stop State :=
  match s.memWrite kind (beatAddress ea beat) (unitBytes kind) (storedValue kind ea (storeData kind update f ea beat s)) with
  | .error e => .error e
  | .ok m => .ok ((s.setLatch (storeData kind update f ea beat s)).setMem (if lands then m else s.mem))

/-- The store beats in order; the first that stops ends the transfer (60_exceptions R226). -/
def storeBeats (kind : AccessKind) (update : Bool) (f : Field5) (ea : Word) (lands : Fin 4 → Bool) :
    List (Fin 4) → State → TransferEnd
  | [], s => .done s
  | beat :: rest, s =>
    match storeBeat kind update f ea beat (lands beat) s with
    | .error e => .stopped e beat
    | .ok t => storeBeats kind update f ea lands rest t

/-- Which earlier beats of a store that an exception stopped reached memory: drawn (60_exceptions R228 (c)). -/
def landedFree (s : State) (beat : Fin 4) : Bool := Config.freeBit (s.draws + beat.val)

/-- The memory after the earlier beats `done` of a stopped store, each landed or not. -/
def landedMemory (kind : AccessKind) (update : Bool) (f : Field5) (ea : Word) (earlier : List (Fin 4)) (s : State) : Memory :=
  match storeBeats kind update f ea (landedFree s) earlier s with
  | .done t => t.mem
  | .stopped _ _ => s.mem

/-- The state an exception at `beat` of a store begun in `s` leaves (60_exceptions R228, R231): unchanged at the first beat;
later, each earlier word old or new, the latch free (logs 13, 30). -/
def storeFrozen (kind : AccessKind) (update : Bool) (f : Field5) (ea : Word) (s : State) (beat : Fin 4) : State :=
  if beat = 0 then s
  else
    ((s.setMem (landedMemory kind update f ea ((beatsOf kind).filter (· < beat)) s)).setLatch
      (Config.freeWord s.draws)).drawn 4

/-- An FCM store of `kind` (R195, R196). -/
def storeForm (kind : AccessKind) (update : Bool) (f rA rB : Field5) (s : State) : Host.Outcome State Fault Refusal :=
  fcmChecked kind update rA rB s fun ea =>
    finishTransfer update rA ea s (storeFrozen kind update f ea s)
      (storeBeats kind update f ea (fun _ => true) (beatsOf kind) s)

/-- `stbfcmux FCM5, rA, rB`: store byte with update (R190). -/
def execStbfcmux (fcm5 rA rB : Field5) (s : State) : Host.Outcome State Fault Refusal :=
  storeForm .b true fcm5 rA rB s

/-- `sthfcmux FCM5, rA, rB`: store half word with update (R191). -/
def execSthfcmux (fcm5 rA rB : Field5) (s : State) : Host.Outcome State Fault Refusal :=
  storeForm .h true fcm5 rA rB s

/-- `stwfcmux FCM5, rA, rB`: store word with update (R192). -/
def execStwfcmux (fcm5 rA rB : Field5) (s : State) : Host.Outcome State Fault Refusal :=
  storeForm .w true fcm5 rA rB s

/-- `stdfcmux FCM5, rA, rB`: store double with update (R193). -/
def execStdfcmux (fcm5 rA rB : Field5) (s : State) : Host.Outcome State Fault Refusal :=
  storeForm .d true fcm5 rA rB s

/-- `stqfcmux FCM5, rA, rB`: store quad with update (R194). -/
def execStqfcmux (fcm5 rA rB : Field5) (s : State) : Host.Outcome State Fault Refusal :=
  storeForm .q true fcm5 rA rB s

/-- `stbfcmx FCM5, rA, rB`: store byte (R205). -/
def execStbfcmx (fcm5 rA rB : Field5) (s : State) : Host.Outcome State Fault Refusal :=
  storeForm .b false fcm5 rA rB s

/-- `sthfcmx FCM5, rA, rB`: store half word (R206). -/
def execSthfcmx (fcm5 rA rB : Field5) (s : State) : Host.Outcome State Fault Refusal :=
  storeForm .h false fcm5 rA rB s

/-- `stwfcmx FCM5, rA, rB`: store word (R207). -/
def execStwfcmx (fcm5 rA rB : Field5) (s : State) : Host.Outcome State Fault Refusal :=
  storeForm .w false fcm5 rA rB s

/-- `stdfcmx FCM5, rA, rB`: store double (R208). -/
def execStdfcmx (fcm5 rA rB : Field5) (s : State) : Host.Outcome State Fault Refusal :=
  storeForm .d false fcm5 rA rB s

/-- `stqfcmx FCM5, rA, rB`: store quad (R209). -/
def execStqfcmx (fcm5 rA rB : Field5) (s : State) : Host.Outcome State Fault Refusal :=
  storeForm .q false fcm5 rA rB s

end Sys2Proof.Machine
end

