-- ==== Sys2Proof/Machine/Fsl.lean ====
section
/-! DEFINITION. The eight FSL transfers get, nget, cget, ncget, put, nput, cput, ncput (40_fsl_get_put). -/

namespace Sys2Proof.Machine

/-- The checks before any effect, in the order of R122: privilege (R113), the launch premise that the APU controller
forwards FSL instructions (70_reset R262 (a)), the FSL number (10_state R38); then `transfer`. The recorded `info` of a
privileged-instruction fault is the instruction word (60_exceptions R227). -/
def fslChecked (fsl : Field5) (s : State) (transfer : Host.Outcome State Fault Refusal) :
    Host.Outcome State Fault Refusal :=
  match s.priv with
  | .user => raiseException .programPrivileged s.instrWord s s
  | .privileged =>
    if !s.cfg.apu.fsl then .refused .apuNotForwarding
    else if !s.hasFsl fsl then .refused .noSuchFsl
    else transfer

/-- The state after a get that found word `w` before `rest` (R114 to R117): rD, XER.OV, for n = 1 XER.CA, the queue. -/
def getPresent (n c : Bool) (rD fsl : Field5) (w : FslWord) (rest : List FslWord) (s : State) : State :=
  let taken := ((s.writeGpr rD w.data).setInQueue fsl rest).setOv (ovOfGet w.control c)
  (if n then taken.setCa (caOfGet true) else taken).advance

/-- The state after a non-blocking get that found no word (R115, D14): rD and XER.OV are free values, XER.CA is 1, the
queue is untouched. -/
def getAbsent (rD : Field5) (s : State) : State :=
  ((((s.writeGpr rD (Config.freeWord s.draws)).setOv (Config.freeBit s.draws)).setCa (caOfGet false)).drawn 1).advance

/-- The get form with selector bits n and c (R110, R111). A blocking form with no word stalls: nothing changes, pc
included, until the environment supplies one (R112; log 14). -/
def getForm (n c : Bool) (rD fsl : Field5) (s : State) : Host.Outcome State Fault Refusal :=
  fslChecked fsl s <|
    match s.inQueue fsl with
    | w :: rest => .next (getPresent n c rD fsl w rest s)
    | [] => if n then .next (getAbsent rD s) else .next s

/-- The state after a put that found space (R118 to R121): the word at the tail of the queue, for n = 1 XER.CA. -/
def putAccepted (n c : Bool) (rA fsl : Field5) (s : State) : State :=
  let sent := s.setOutQueue fsl (s.outQueue fsl ++ [{ data := s.readGpr rA, control := c }])
  (if n then sent.setCa (caOfPut false) else sent).advance

/-- The put form with selector bits n and c (R110). A blocking form on a full interface stalls (R112); a non-blocking one
discards the word and says so in XER.CA (R119). -/
def putForm (n c : Bool) (rA fsl : Field5) (s : State) : Host.Outcome State Fault Refusal :=
  fslChecked fsl s <|
    if s.isFull fsl then (if n then .next (s.setCa (caOfPut true)).advance else .next s)
    else .next (putAccepted n c rA fsl s)

/-- `get rD, FSLx` (R114). -/
def execGet (rD fsl : Field5) (s : State) : Host.Outcome State Fault Refusal := getForm false false rD fsl s

/-- `nget rD, FSLx` (R115). -/
def execNget (rD fsl : Field5) (s : State) : Host.Outcome State Fault Refusal := getForm true false rD fsl s

/-- `cget rD, FSLx` (R116). -/
def execCget (rD fsl : Field5) (s : State) : Host.Outcome State Fault Refusal := getForm false true rD fsl s

/-- `ncget rD, FSLx` (R117). -/
def execNcget (rD fsl : Field5) (s : State) : Host.Outcome State Fault Refusal := getForm true true rD fsl s

/-- `put rA, FSLx` (R118). -/
def execPut (rA fsl : Field5) (s : State) : Host.Outcome State Fault Refusal := putForm false false rA fsl s

/-- `nput rA, FSLx` (R119). -/
def execNput (rA fsl : Field5) (s : State) : Host.Outcome State Fault Refusal := putForm true false rA fsl s

/-- `cput rA, FSLx` (R120). -/
def execCput (rA fsl : Field5) (s : State) : Host.Outcome State Fault Refusal := putForm false true rA fsl s

/-- `ncput rA, FSLx` (R121). -/
def execNcput (rA fsl : Field5) (s : State) : Host.Outcome State Fault Refusal := putForm true true rA fsl s

end Sys2Proof.Machine
end

