-- ==== Sys2Proof/Machine/Udi.lean ====
section
/-! DEFINITION. The sixteen user defined instructions (41_udi). -/

namespace Sys2Proof.Machine

/-- `if t_kind = gpr_dest and t_result != none then x[T] <- t_result` (R131). -/
def writeUdiTarget (kind : UdiTarget) (t : Field5) (r : Option Word) (s : State) : State :=
  match kind, r with
  | .gprDest, some v => s.writeGpr t v
  | .gprDest, none => s
  | .fcr, _ => s

/-- `if Rcn = 0 and cr_result = (f, v) then CR field f <- v`; with Rcn = 1 CR is unchanged (R131, R132). -/
def writeUdiCr (rcn : BitVec 1) (r : Option (BitVec 3 × BitVec 4)) (s : State) : State :=
  match r with
  | none => s
  | some (f, v) => if rcn == 0#1 then s.setCr (writeCrField s.cr f v) else s

/-- What `op` answers for a UDI of meaning `m` in state `s` (R131). -/
def udiAnswer (m : UdiMeaning) (t a b : Field5) (s : State) : UdiResult :=
  udiResult m.op s.fcm t a b (udiSourceValue m.aKind a s) (udiSourceValue m.bKind b s)

/-- The state after a UDI whose operation answered `r` without an exception (R131). -/
def udiCompleted (m : UdiMeaning) (rcn : BitVec 1) (t : Field5) (r : UdiResult) (s : State) : State :=
  (writeUdiCr rcn r.crResult (writeUdiTarget m.tKind t r.tResult (s.setFcm r.fcm))).advance

/-- Execution of UDI `n` with last bit `rcn` (R131). It is not privileged (R133). -/
def udiForm (n : BitVec 3) (rcn : BitVec 1) (t a b : Field5) (s : State) : Host.Outcome State Fault Refusal :=
  if !s.cfg.apu.udi then .refused .apuNotForwarding
  else
    match s.udiDef n rcn with
    | none => .refused .udiNotDefined
    | some m =>
      let r := udiAnswer m t a b s
      match r.exc with
      | some e => raiseException (.userDefined e.code) e.info s s
      | none => .next (udiCompleted m rcn t r s)

/-- `udi0fcm T, A, B` (R134). -/
def execUdi0fcm (t a b : Field5) (s : State) : Host.Outcome State Fault Refusal := udiForm 0#3 1#1 t a b s

/-- `udi1fcm T, A, B` (R135). -/
def execUdi1fcm (t a b : Field5) (s : State) : Host.Outcome State Fault Refusal := udiForm 1#3 1#1 t a b s

/-- `udi2fcm T, A, B` (R136). -/
def execUdi2fcm (t a b : Field5) (s : State) : Host.Outcome State Fault Refusal := udiForm 2#3 1#1 t a b s

/-- `udi3fcm T, A, B` (R137). -/
def execUdi3fcm (t a b : Field5) (s : State) : Host.Outcome State Fault Refusal := udiForm 3#3 1#1 t a b s

/-- `udi4fcm T, A, B` (R138). -/
def execUdi4fcm (t a b : Field5) (s : State) : Host.Outcome State Fault Refusal := udiForm 4#3 1#1 t a b s

/-- `udi5fcm T, A, B` (R139). -/
def execUdi5fcm (t a b : Field5) (s : State) : Host.Outcome State Fault Refusal := udiForm 5#3 1#1 t a b s

/-- `udi6fcm T, A, B` (R140). -/
def execUdi6fcm (t a b : Field5) (s : State) : Host.Outcome State Fault Refusal := udiForm 6#3 1#1 t a b s

/-- `udi7fcm T, A, B` (R141). -/
def execUdi7fcm (t a b : Field5) (s : State) : Host.Outcome State Fault Refusal := udiForm 7#3 1#1 t a b s

/-- `udi0fcm. T, A, B` (R142). -/
def execUdi0fcmDot (t a b : Field5) (s : State) : Host.Outcome State Fault Refusal := udiForm 0#3 0#1 t a b s

/-- `udi1fcm. T, A, B` (R143). -/
def execUdi1fcmDot (t a b : Field5) (s : State) : Host.Outcome State Fault Refusal := udiForm 1#3 0#1 t a b s

/-- `udi2fcm. T, A, B` (R144). -/
def execUdi2fcmDot (t a b : Field5) (s : State) : Host.Outcome State Fault Refusal := udiForm 2#3 0#1 t a b s

/-- `udi3fcm. T, A, B` (R145). -/
def execUdi3fcmDot (t a b : Field5) (s : State) : Host.Outcome State Fault Refusal := udiForm 3#3 0#1 t a b s

/-- `udi4fcm. T, A, B` (R146). -/
def execUdi4fcmDot (t a b : Field5) (s : State) : Host.Outcome State Fault Refusal := udiForm 4#3 0#1 t a b s

/-- `udi5fcm. T, A, B` (R147). -/
def execUdi5fcmDot (t a b : Field5) (s : State) : Host.Outcome State Fault Refusal := udiForm 5#3 0#1 t a b s

/-- `udi6fcm. T, A, B` (R148). -/
def execUdi6fcmDot (t a b : Field5) (s : State) : Host.Outcome State Fault Refusal := udiForm 6#3 0#1 t a b s

/-- `udi7fcm. T, A, B` (R149). -/
def execUdi7fcmDot (t a b : Field5) (s : State) : Host.Outcome State Fault Refusal := udiForm 7#3 0#1 t a b s

end Sys2Proof.Machine
end

