-- ==== Sys2Proof/Machine/Dispatch.lean ====
section
/-! DEFINITION. One arm per instruction. -/

namespace Sys2Proof.Machine

/-- What each instruction does. -/
def exec (i : Instr) (s : State) : Host.Outcome State Fault Refusal :=
  match i with
  | .get rD fsl => Sys2Proof.Machine.execGet rD fsl s
  | .nget rD fsl => Sys2Proof.Machine.execNget rD fsl s
  | .cget rD fsl => Sys2Proof.Machine.execCget rD fsl s
  | .ncget rD fsl => Sys2Proof.Machine.execNcget rD fsl s
  | .put rA fsl => Sys2Proof.Machine.execPut rA fsl s
  | .nput rA fsl => Sys2Proof.Machine.execNput rA fsl s
  | .cput rA fsl => Sys2Proof.Machine.execCput rA fsl s
  | .ncput rA fsl => Sys2Proof.Machine.execNcput rA fsl s
  | .udi0fcm t a b => Sys2Proof.Machine.execUdi0fcm t a b s
  | .udi1fcm t a b => Sys2Proof.Machine.execUdi1fcm t a b s
  | .udi2fcm t a b => Sys2Proof.Machine.execUdi2fcm t a b s
  | .udi3fcm t a b => Sys2Proof.Machine.execUdi3fcm t a b s
  | .udi4fcm t a b => Sys2Proof.Machine.execUdi4fcm t a b s
  | .udi5fcm t a b => Sys2Proof.Machine.execUdi5fcm t a b s
  | .udi6fcm t a b => Sys2Proof.Machine.execUdi6fcm t a b s
  | .udi7fcm t a b => Sys2Proof.Machine.execUdi7fcm t a b s
  | .udi0fcmDot t a b => Sys2Proof.Machine.execUdi0fcmDot t a b s
  | .udi1fcmDot t a b => Sys2Proof.Machine.execUdi1fcmDot t a b s
  | .udi2fcmDot t a b => Sys2Proof.Machine.execUdi2fcmDot t a b s
  | .udi3fcmDot t a b => Sys2Proof.Machine.execUdi3fcmDot t a b s
  | .udi4fcmDot t a b => Sys2Proof.Machine.execUdi4fcmDot t a b s
  | .udi5fcmDot t a b => Sys2Proof.Machine.execUdi5fcmDot t a b s
  | .udi6fcmDot t a b => Sys2Proof.Machine.execUdi6fcmDot t a b s
  | .udi7fcmDot t a b => Sys2Proof.Machine.execUdi7fcmDot t a b s
  | .lbfcmux fcm5 rA rB => Sys2Proof.Machine.execLbfcmux fcm5 rA rB s
  | .lhfcmux fcm5 rA rB => Sys2Proof.Machine.execLhfcmux fcm5 rA rB s
  | .lwfcmux fcm5 rA rB => Sys2Proof.Machine.execLwfcmux fcm5 rA rB s
  | .ldfcmux fcm5 rA rB => Sys2Proof.Machine.execLdfcmux fcm5 rA rB s
  | .lqfcmux fcm5 rA rB => Sys2Proof.Machine.execLqfcmux fcm5 rA rB s
  | .lbfcmx fcm5 rA rB => Sys2Proof.Machine.execLbfcmx fcm5 rA rB s
  | .lhfcmx fcm5 rA rB => Sys2Proof.Machine.execLhfcmx fcm5 rA rB s
  | .lwfcmx fcm5 rA rB => Sys2Proof.Machine.execLwfcmx fcm5 rA rB s
  | .ldfcmx fcm5 rA rB => Sys2Proof.Machine.execLdfcmx fcm5 rA rB s
  | .lqfcmx fcm5 rA rB => Sys2Proof.Machine.execLqfcmx fcm5 rA rB s
  | .stbfcmux fcm5 rA rB => Sys2Proof.Machine.execStbfcmux fcm5 rA rB s
  | .sthfcmux fcm5 rA rB => Sys2Proof.Machine.execSthfcmux fcm5 rA rB s
  | .stwfcmux fcm5 rA rB => Sys2Proof.Machine.execStwfcmux fcm5 rA rB s
  | .stdfcmux fcm5 rA rB => Sys2Proof.Machine.execStdfcmux fcm5 rA rB s
  | .stqfcmux fcm5 rA rB => Sys2Proof.Machine.execStqfcmux fcm5 rA rB s
  | .stbfcmx fcm5 rA rB => Sys2Proof.Machine.execStbfcmx fcm5 rA rB s
  | .sthfcmx fcm5 rA rB => Sys2Proof.Machine.execSthfcmx fcm5 rA rB s
  | .stwfcmx fcm5 rA rB => Sys2Proof.Machine.execStwfcmx fcm5 rA rB s
  | .stdfcmx fcm5 rA rB => Sys2Proof.Machine.execStdfcmx fcm5 rA rB s
  | .stqfcmx fcm5 rA rB => Sys2Proof.Machine.execStqfcmx fcm5 rA rB s

end Sys2Proof.Machine
end

