-- ==== Sys2Proof/Machine/Step.lean ====
section
/-! DEFINITION. One step of the machine, and placing one instruction where the next step fetches it. -/

namespace Sys2Proof.Machine

/-- One step: pc must be a multiple of 4 (10_state R24); at the program's end the run has ended and its final state stays
as it is (70_reset R263; log 24); elsewhere outside the program the fetch is refused (R263). In the text the environment
has its turn (10_state R37), the four bytes at pc are fetched and decoded (20_memory R69, 30_encoding R90), and the
instruction runs. -/
def step (s : State) : Host.Outcome State Fault Refusal :=
  if !s.pcAligned then .refused .pcMisaligned
  else
    match s.fetchPlace with
    | .programEnd => .next s
    | .outside => .refused .fetchOutsideProgram
    | .text =>
      match decode s.cfg.getEnc s.fetchBytes with
      | .error e => .refused (refusalOf e)
      | .ok (i, _) => exec i s.envTurn

/-- `s` with the one-word program `w` loaded at pc, as a launch supplies it (70_reset R263; log 24): its four bytes in
memory, big-endian, and the program text set to that word. -/
def State.withFetchWord (s : State) (nbits w : Nat) : State :=
  { s with
    mem := s.mem.writeBytes s.pc (BitVec.ofNat 32 (w % 2 ^ nbits)) 4
    progBase := s.pc
    progLen := 1 }

end Sys2Proof.Machine
end

