-- ==== Sys2Proof/Safety.lean ====
section
/-! DEFINITION. What claims about this machine speak of: the classes of instructions, the invariant of its states, and the
words for what a step keeps. -/

namespace Sys2Proof.Machine

/-- The three groups of 00_scope R2 by their common frames: get and put forms with their selector bits (40_fsl_get_put
R110), UDIs with number and Rcn (41_udi R130), FCM loads and stores with access kind and update (R165, R195). -/
inductive InstrClass where
  | get (n c : Bool) (rD fsl : Field5)
  | put (n c : Bool) (rA fsl : Field5)
  | udi (n : BitVec 3) (rcn : BitVec 1) (t a b : Field5)
  | load (kind : AccessKind) (update : Bool) (fcm5 rA rB : Field5)
  | store (kind : AccessKind) (update : Bool) (fcm5 rA rB : Field5)
deriving DecidableEq, Repr

/-- The class of each instruction. -/
def classOf : Instr → InstrClass
  | .get rD fsl => .get false false rD fsl
  | .nget rD fsl => .get true false rD fsl
  | .cget rD fsl => .get false true rD fsl
  | .ncget rD fsl => .get true true rD fsl
  | .put rA fsl => .put false false rA fsl
  | .nput rA fsl => .put true false rA fsl
  | .cput rA fsl => .put false true rA fsl
  | .ncput rA fsl => .put true true rA fsl
  | .udi0fcm t a b => .udi 0#3 1#1 t a b
  | .udi1fcm t a b => .udi 1#3 1#1 t a b
  | .udi2fcm t a b => .udi 2#3 1#1 t a b
  | .udi3fcm t a b => .udi 3#3 1#1 t a b
  | .udi4fcm t a b => .udi 4#3 1#1 t a b
  | .udi5fcm t a b => .udi 5#3 1#1 t a b
  | .udi6fcm t a b => .udi 6#3 1#1 t a b
  | .udi7fcm t a b => .udi 7#3 1#1 t a b
  | .udi0fcmDot t a b => .udi 0#3 0#1 t a b
  | .udi1fcmDot t a b => .udi 1#3 0#1 t a b
  | .udi2fcmDot t a b => .udi 2#3 0#1 t a b
  | .udi3fcmDot t a b => .udi 3#3 0#1 t a b
  | .udi4fcmDot t a b => .udi 4#3 0#1 t a b
  | .udi5fcmDot t a b => .udi 5#3 0#1 t a b
  | .udi6fcmDot t a b => .udi 6#3 0#1 t a b
  | .udi7fcmDot t a b => .udi 7#3 0#1 t a b
  | .lbfcmux fcm5 rA rB => .load .b true fcm5 rA rB
  | .lhfcmux fcm5 rA rB => .load .h true fcm5 rA rB
  | .lwfcmux fcm5 rA rB => .load .w true fcm5 rA rB
  | .ldfcmux fcm5 rA rB => .load .d true fcm5 rA rB
  | .lqfcmux fcm5 rA rB => .load .q true fcm5 rA rB
  | .lbfcmx fcm5 rA rB => .load .b false fcm5 rA rB
  | .lhfcmx fcm5 rA rB => .load .h false fcm5 rA rB
  | .lwfcmx fcm5 rA rB => .load .w false fcm5 rA rB
  | .ldfcmx fcm5 rA rB => .load .d false fcm5 rA rB
  | .lqfcmx fcm5 rA rB => .load .q false fcm5 rA rB
  | .stbfcmux fcm5 rA rB => .store .b true fcm5 rA rB
  | .sthfcmux fcm5 rA rB => .store .h true fcm5 rA rB
  | .stwfcmux fcm5 rA rB => .store .w true fcm5 rA rB
  | .stdfcmux fcm5 rA rB => .store .d true fcm5 rA rB
  | .stqfcmux fcm5 rA rB => .store .q true fcm5 rA rB
  | .stbfcmx fcm5 rA rB => .store .b false fcm5 rA rB
  | .sthfcmx fcm5 rA rB => .store .h false fcm5 rA rB
  | .stwfcmx fcm5 rA rB => .store .w false fcm5 rA rB
  | .stdfcmx fcm5 rA rB => .store .d false fcm5 rA rB
  | .stqfcmx fcm5 rA rB => .store .q false fcm5 rA rB

/-- An interface that does not exist holds no word (10_state R36 gives queues to 0 .. N_FSL-1 only). -/
def State.absentFslsEmpty (s : State) : Prop :=
  ∀ x : Field5, s.hasFsl x = false → s.inQueue x = [] ∧ s.outQueue x = []

/-- The launch parameters obey what the spec asks of them: N_FSL in 1 .. 32 (00_scope R10) and the constraints on
`GET_ENC` (30_encoding R86). -/
def State.cfgWf (s : State) : Bool :=
  decide (1 ≤ s.cfg.nFsl) && decide (s.cfg.nFsl ≤ 32) && s.cfg.getEnc.wf

/-- The invariant every step keeps: memory in its canonical form, pc a multiple of 4 (10_state R24), the launch parameters
as the spec asks, nothing queued on an interface that does not exist. -/
def State.Inv (s : State) : Prop :=
  s.mem.wf = true ∧ s.pcAligned = true ∧ s.cfgWf = true ∧ s.absentFslsEmpty

/-- The program text is the same in both states: where it is, how long it is, and every byte of it (20_memory R67). -/
def sameText (s t : State) : Prop :=
  t.progBase = s.progBase ∧ t.progLen = s.progLen ∧ ∀ a, s.inText a = true → t.mem.read a = s.mem.read a

/-- No FSL interface differs between the two states. -/
def sameFsl (s t : State) : Prop := t.fslIn = s.fslIn ∧ t.fslOut = s.fslOut ∧ t.fslFull = s.fslFull

/-- A get or put form passes its checks (40_fsl_get_put R122): privileged mode, the class forwarded, the link there. -/
def fslReady (s : State) (x : Field5) : Prop :=
  s.priv = .privileged ∧ s.cfg.apu.fsl = true ∧ s.hasFsl x = true

/-- An FCM load or store passes the checks before its first beat (60_exceptions R226): a valid form, the class forwarded,
no misalignment the policy raises for. -/
def fcmReady (kind : AccessKind) (update : Bool) (rA rB : Field5) (s : State) : Prop :=
  (update = true → rA ≠ 0#5) ∧ s.cfg.apu.fcmTransfer = true ∧
    misalignRaises s.cfg.misalign kind (addressSum update rA rB s) = false

/-- The effective address of a transfer, as its meaning computes it. -/
def transferEA (kind : AccessKind) (update : Bool) (rA rB : Field5) (s : State) : Word :=
  effectiveAddress kind (addressSum update rA rB s)

/-- Bytes of a whole transfer: the alignment that the policy `faultNatural` asks for (20_memory R56, log 23). -/
def transferBytes : AccessKind → Nat
  | .b => 1
  | .h => 2
  | .w => 4
  | .d => 8
  | .q => 16

/-- The beats before `b` go through (20_memory R53, R54, R67). -/
def earlierBeatsPass (s : State) (kind : AccessKind) (access : Access) (ea : Word) (b : Fin 4) : Prop :=
  ∀ c ∈ beatsOf kind, c < b → ∃ ra, s.realAddress kind access (beatAddress ea c) (unitBytes kind) = .ok ra ∧
    (access = .store → allBytes (fun a => !s.inText a) ra (unitBytes kind) = true)

/-- The addresses of the `n` bytes from `ra` up. -/
def inSpan (ra : Word) (n : Nat) (a : Word) : Prop := ∃ k < n, a = ra + BitVec.ofNat 32 k

/-- Two states that differ at most in XER[CA] and XER[OV]. -/
def sameButXer (s t : State) : Prop := { s with xerCa := false, xerOv := false } = { t with xerCa := false, xerOv := false }

/-- A get or put form. -/
def isFslTransfer : InstrClass → Bool
  | .get _ _ _ _ => true
  | .put _ _ _ _ => true
  | .udi _ _ _ _ _ => false
  | .load _ _ _ _ _ => false
  | .store _ _ _ _ _ => false

/-- A blocking get or put form, the only instructions that stall (40_fsl_get_put R112). -/
def isBlocking : InstrClass → Bool
  | .get n _ _ _ => !n
  | .put n _ _ _ => !n
  | .udi _ _ _ _ _ => false
  | .load _ _ _ _ _ => false
  | .store _ _ _ _ _ => false

/-- The FCM load or store a class is, with its access kind, direction, update and operands. -/
def transferOf : InstrClass → Option (AccessKind × Access × Bool × Field5 × Field5 × Field5)
  | .get _ _ _ _ => none
  | .put _ _ _ _ => none
  | .udi _ _ _ _ _ => none
  | .load k u f rA rB => some (k, .load, u, f, rA, rB)
  | .store k u f rA rB => some (k, .store, u, f, rA, rB)

/-- The state an outcome's fault froze, if it is a fault (60_exceptions R231). -/
def faultRecordOf : Fault → FaultRecord
  | .dataStorage r => r
  | .dataTlbMiss r => r
  | .alignment r => r
  | .programPrivileged r => r
  | .userDefined _ r => r

end Sys2Proof.Machine
end

