-- ==== Sys2Proof/Certificates/Slice0/Obligations.lean ====
section
/-! DEFINITION. The statements about this machine. OBLIGATIONS.json gives each its rules and its words. -/

open Sys2Proof Sys2Proof.Machine

/-- After reset: privileged mode, relocation off, pc = 0xFFFFFFFC, every general register 0, every FSL queue empty and not
full, every memory byte reads 0, no program loaded, no UDI defined. The spec states no reset value (R45): these are
the model's (logs 2, 3, 7, 16, 18, 24). (10_state section 9, 92_eei_decisions section 2) -/
def Obligations.ResetState : Prop :=
  State.reset.priv = .privileged ∧ State.reset.dataReloc = false ∧ State.reset.pc = 0xFFFFFFFC#32 ∧
    State.reset.progLen = 0 ∧ (∀ r, State.reset.readGpr r = 0#32) ∧
    (∀ x, State.reset.inQueue x = [] ∧ State.reset.outQueue x = [] ∧ State.reset.isFull x = false) ∧
    (∀ a, State.reset.mem.read a = 0#8) ∧ ∀ n rcn, State.reset.udiDef n rcn = none

/-- State.reset has memory in canonical form, pc a multiple of 4, launch parameters as the spec asks (N_FSL in 1..32,
GET_ENC as R86 constrains it), and nothing queued on an interface that does not exist. The values are the model's
(logs 1, 3, 7, 16). (10_state R24, 00_scope R10, 30_encoding R86) -/
def Obligations.ResetMeetsInvariant : Prop :=
  State.reset.Inv

/-- For every state that meets Inv (canonical memory, aligned pc, launch parameters as the spec asks, absent interfaces
empty), if step answers a next state, that state meets Inv. One proof covers all 44 instructions and every move of the
environment. (10_state R24, 10_state R36, 30_encoding R86) -/
def Obligations.StepKeepsInvariant : Prop :=
  ∀ s t : State, s.Inv → step s = .next t → t.Inv

/-- For every state with canonical memory, if step answers a next state then the program text stands where it stood, is as
long as it was, and every byte of it reads as before: no store of the extension changes an instruction of the run.
(20_memory R67, 70_reset_and_hazards R270) -/
def Obligations.StepKeepsProgramText : Prop :=
  ∀ s t : State, s.mem.wf = true → step s = .next t → sameText s t

/-- If pc is a multiple of 4 and in the program text and the bytes at pc decode to an instruction i, step is exec of i on
the state after the environment's turn; with no move pending the turn changes nothing, and an instruction the decoder
answers is well formed. (20_memory R69, 30_encoding R90, 10_state R37) -/
def Obligations.StepRunsDecodedInstruction : Prop :=
  ∀ (s : State) (i : Instr) (rest : List Byte), s.pcAligned = true → s.fetchPlace = .text →
    decode s.cfg.getEnc s.fetchBytes = .ok (i, rest) →
      step s = exec i s.envTurn ∧ (s.env = [] → s.envTurn = s) ∧ i.wellFormed = true

/-- A pc that is not a multiple of 4 is refused; at the program's end address the final state stays as it is (the model's
form of a normal end, log 24); at any address that starts none of the program's words the fetch is refused (that an
address inside the text of an unaligned program is such a one is the model's reading of R263, log 24); in the text,
bytes that do not decode are refused under the decoder's reason. (10_state R24, 70_reset_and_hazards R263, 30_encoding
R90) -/
def Obligations.StepOutsideTheText : Prop :=
  ∀ s : State,
    (s.pcAligned = false → step s = .refused .pcMisaligned) ∧
    (s.pcAligned = true → s.fetchPlace = .programEnd → step s = .next s) ∧
    (s.pcAligned = true → s.fetchPlace = .outside → step s = .refused .fetchOutsideProgram) ∧
    ∀ e, s.pcAligned = true → s.fetchPlace = .text → decode s.cfg.getEnc s.fetchBytes = .error e →
      step s = .refused (refusalOf e)

/-- For all 44 instructions, every operand at every value of its field, and every GET_ENC that R86 allows: decode (encode
i) = i with no byte left over. (30_encoding R85, 30_encoding R86, 30_encoding R87, 30_encoding R88, 30_encoding R90) -/
def Obligations.DecodeEncodeAgree : Prop :=
  ∀ (e : GetEnc) (i : Instr), e.wf = true → i.wellFormed = true → decode e (encode e i) = .ok (i, [])

/-- If a word decodes to an instruction that is not a get form (whose pattern is a parameter and may leave bits open),
encoding that instruction gives the word back: no bit of a load, store, put or UDI word is ignored. (30_encoding R81,
30_encoding R82, 30_encoding R83, 30_encoding R90) -/
def Obligations.EncodeDecodeAgree : Prop :=
  ∀ (e : GetEnc) (w : Word) (i : Instr), decodeWord e w = .ok i →
    (∀ n c rD fsl, classOf i ≠ .get n c rD fsl) → encodeWord e i = w

/-- Words of 95_test_vectors section 3 (and program E's get word under the test instance of GET_ENC) decode to the
instructions printed beside them; words that must not decode are rejected. (95_test_vectors section 3, 30_encoding
R90) -/
def Obligations.SampleWordsDecode : Prop :=
  decodeTableWord 32 0x7C242C0E = some (.lbfcmux 1 4 5) ∧ decodeTableWord 32 0x7C1FF60E = some (.ldfcmux 0 31 30) ∧
    decodeTableWord 32 0x7FFFF9CE = some (.stqfcmx 31 31 31) ∧ decodeTableWord 32 0x7C60018E = some (.stwfcmx 3 0 0) ∧
    decodeTableWord 32 0x10071AD8 = some (.nput 7 3) ∧ decodeTableWord 32 0x13E08DC6 = some (.udi7fcmDot 31 0 17) ∧
    decodeTableWord 32 0x114B6547 = some (.udi5fcm 10 11 12) ∧ decodeTableWord 32 0x10800278 = some (.ncget 4 0) ∧
    decodeTableWord 32 0x7C01108F = none ∧ decodeTableWord 32 0x7C60148E = none ∧
    decodeTableWord 32 0x10230298 = none ∧ decodeTableWord 32 0x60000000 = none

/-- No word is both an FCM load or store pattern and a UDI or put pattern, none is both a UDI and a put, and under a
GET_ENC as R86 constrains it no get word is any of the three. (30_encoding R90, 30_encoding R86, 30_encoding R91) -/
def Obligations.DecodePatternsDisjoint : Prop :=
  ∀ (e : GetEnc) (w : Word), e.wf = true →
    ((fcmRows.lookup (w &&& fcmMask)).isSome = true →
      w &&& udiMask ≠ udiPattern ∧ w &&& putMask ≠ putPattern ∧ e.covers w = false) ∧
    (w &&& udiMask = udiPattern → w &&& putMask ≠ putPattern ∧ e.covers w = false) ∧
    (w &&& putMask = putPattern → e.covers w = false)

/-- For every FCM load and store, all operand values: its word with bit {31} set decodes to the rejection
invalidFormReserved, never to an instruction. For the four puts, all operand values: a word with any bit of the
reserved field {6:10} or bit {31} set decodes to the same rejection, unless it is a word of GET_ENC, which R90 asks
first; that puts are treated so is the spec's own choice (R94 last sentence, D20), the rejection's name the model's
(log 29). (30_encoding R93, 30_encoding R94, 30_encoding R90) -/
def Obligations.ReservedBitSetIsRejected : Prop :=
  (∀ (e : GetEnc) (i : Instr), e.wf = true → (transferOf (classOf i)).isSome = true →
    decodeWord e (encodeWord e i ||| 1#32) = .error .invalidFormReserved) ∧
    ∀ (e : GetEnc) (n c : Bool) (rA fsl r : Field5) (z : Bool) (w : Word), (r ≠ 0#5 ∨ z = true) →
      w = putWord n c rA fsl ||| placeField 21 r ||| placeBit 0 z → e.covers w = false →
        decodeWord e w = .error .invalidFormReserved

/-- Each of the ten update forms with rA = 0: its word decodes to the rejection invalidFormRA0, and exec refuses it before
anything else (R226 (1)); each of the ten non-update forms with rA = 0 decodes and takes the base 0. The source calls
the result boundedly undefined: that the model refuses it is the spec's own decision (R95 'The model refuses it',
D20), and the rejection's name and the second refusal by the meaning are the model's (log 29, DESIGN CHOICE).
(30_encoding R95, 60_exceptions R226, 92_eei_decisions D20) -/
def Obligations.UpdateFormWithRA0IsRefused : Prop :=
  ∀ (e : GetEnc) (f rB : Field5) (s : State),
    ∀ i ∈ ([.lbfcmux f 0#5 rB, .lhfcmux f 0#5 rB, .lwfcmux f 0#5 rB, .ldfcmux f 0#5 rB, .lqfcmux f 0#5 rB,
        .stbfcmux f 0#5 rB, .sthfcmux f 0#5 rB, .stwfcmux f 0#5 rB, .stdfcmux f 0#5 rB, .stqfcmux f 0#5 rB] : List Instr),
      decodeWord e (encodeWord e i) = .error .invalidFormRA0 ∧ exec i s = .refused .invalidFormRA0 ∧
        ∀ j ∈ ([.lbfcmx f 0#5 rB, .lhfcmx f 0#5 rB, .lwfcmx f 0#5 rB, .ldfcmx f 0#5 rB, .lqfcmx f 0#5 rB,
            .stbfcmx f 0#5 rB, .sthfcmx f 0#5 rB, .stwfcmx f 0#5 rB, .stdfcmx f 0#5 rB, .stqfcmx f 0#5 rB] : List Instr),
          decodeWord e (encodeWord e j) = .ok j ∧ addressSum false 0#5 rB s = s.readGpr rB

/-- get and cget, checks passed, word w at the head of the queue: a next state with rD = w's data, XER[OV] = 0 exactly
when w's control bit is the expected one, w removed from that queue and no other queue touched, pc + 4, everything
else as before (XER[CA] among it). (40_fsl_get_put R114, 40_fsl_get_put R116, 40_fsl_get_put R111) -/
def Obligations.BlockingGetTakesWord : Prop :=
  ∀ (rD fsl : Field5) (s : State) (w : FslWord) (rest : List FslWord),
    ∀ p ∈ ([(.get rD fsl, false), (.cget rD fsl, true)] : List (Instr × Bool)),
      fslReady s fsl → s.inQueue fsl = w :: rest →
        ∃ t, exec p.1 s = .next t ∧
          t = { s with gpr := t.gpr, pc := s.pc + 4#32, xerOv := w.control != p.2, fslIn := t.fslIn } ∧
          (∀ r, t.readGpr r = if r = rD then w.data else s.readGpr r) ∧
          ∀ x, t.inQueue x = if x = fsl then rest else s.inQueue x

/-- nget and ncget, checks passed, word w at the head: as the blocking forms, and XER[CA] = 0. (40_fsl_get_put R115,
40_fsl_get_put R117) -/
def Obligations.NonblockingGetTakesWord : Prop :=
  ∀ (rD fsl : Field5) (s : State) (w : FslWord) (rest : List FslWord),
    ∀ p ∈ ([(.nget rD fsl, false), (.ncget rD fsl, true)] : List (Instr × Bool)),
      fslReady s fsl → s.inQueue fsl = w :: rest →
        ∃ t, exec p.1 s = .next t ∧
          t = { s with gpr := t.gpr, pc := s.pc + 4#32, xerCa := false, xerOv := w.control != p.2, fslIn := t.fslIn } ∧
          (∀ r, t.readGpr r = if r = rD then w.data else s.readGpr r) ∧
          ∀ x, t.inQueue x = if x = fsl then rest else s.inQueue x

/-- nget and ncget, checks passed, queue empty: a next state with XER[CA] = 1, pc + 4, queues untouched, every general
register but rD as before; rD and XER[OV] hold free values, of which nothing is said; nothing else changes but the
model's draw counter. (40_fsl_get_put R115, 40_fsl_get_put R117, 70_reset_and_hazards R266) -/
def Obligations.NonblockingGetWithoutWord : Prop :=
  ∀ (rD fsl : Field5) (s : State), ∀ i ∈ ([.nget rD fsl, .ncget rD fsl] : List Instr),
    fslReady s fsl → s.inQueue fsl = [] →
      ∃ t, exec i s = .next t ∧
        t = { s with gpr := t.gpr, pc := s.pc + 4#32, xerCa := true, xerOv := t.xerOv, draws := t.draws } ∧
        ∀ r, r ≠ rD → t.readGpr r = s.readGpr r

/-- get and cget on an empty queue, put and cput on a full interface, checks passed: the outcome is the same state, pc
included (the model's form of 'no step', log 14). (40_fsl_get_put R112) -/
def Obligations.BlockingTransferStalls : Prop :=
  ∀ (r fsl : Field5) (s : State), fslReady s fsl →
    (s.inQueue fsl = [] → exec (.get r fsl) s = .next s ∧ exec (.cget r fsl) s = .next s) ∧
    (s.isFull fsl = true → exec (.put r fsl) s = .next s ∧ exec (.cput r fsl) s = .next s)

/-- If the instruction at pc is a get or cget with no word, or a put or cput with no space, and no move of the environment
is pending, then any number of steps leaves the state exactly as it is. (40_fsl_get_put R112, 70_reset_and_hazards
R265) -/
def Obligations.StallLastsWhileTheEnvironmentIsIdle : Prop :=
  ∀ (s : State) (r fsl : Field5) (i : Instr) (rest : List Byte), s.pcAligned = true → s.fetchPlace = .text →
    s.env = [] → decode s.cfg.getEnc s.fetchBytes = .ok (i, rest) → fslReady s fsl →
    (((i = .get r fsl ∨ i = .cget r fsl) ∧ s.inQueue fsl = []) ∨
      ((i = .put r fsl ∨ i = .cput r fsl) ∧ s.isFull fsl = true)) →
    ∀ k, Host.Core.run Sys2Proof.core k s = .next s

/-- put and cput, checks passed, interface not full: a next state with (x[rA], 0) or (x[rA], 1) at the tail of that output
queue and no other queue touched, pc + 4, everything else as before (XER among it). rA = 0 names r0. (40_fsl_get_put
R118, 40_fsl_get_put R120) -/
def Obligations.BlockingPutAppends : Prop :=
  ∀ (rA fsl : Field5) (s : State), ∀ p ∈ ([(.put rA fsl, false), (.cput rA fsl, true)] : List (Instr × Bool)),
    fslReady s fsl → s.isFull fsl = false →
      ∃ t, exec p.1 s = .next t ∧ t = { s with pc := s.pc + 4#32, fslOut := t.fslOut } ∧
        ∀ x, t.outQueue x =
          if x = fsl then s.outQueue x ++ [{ data := s.readGpr rA, control := p.2 }] else s.outQueue x

/-- nput and ncput, checks passed: with space the word is appended and XER[CA] = 0; on a full interface nothing is
appended and XER[CA] = 1; pc + 4 in both, everything else as before. (40_fsl_get_put R119, 40_fsl_get_put R121) -/
def Obligations.NonblockingPutReportsSpace : Prop :=
  ∀ (rA fsl : Field5) (s : State), ∀ p ∈ ([(.nput rA fsl, false), (.ncput rA fsl, true)] : List (Instr × Bool)),
    fslReady s fsl →
      ∃ t, exec p.1 s = .next t ∧ t = { s with pc := s.pc + 4#32, xerCa := s.isFull fsl, fslOut := t.fslOut } ∧
        ∀ x, t.outQueue x =
          if x = fsl ∧ s.isFull fsl = false then s.outQueue x ++ [{ data := s.readGpr rA, control := p.2 }]
          else s.outQueue x

/-- In user mode each of the eight FSL instructions, for all operands and in every state, answers the fault
programPrivileged with the address of the instruction, the instruction word and the unchanged state. That user mode
raises Program is the spec's own decision (D16); the word recorded is the one read at pc, the instruction's own where
a step runs what it fetched, which is the model's inference (log 28, DEDUCED). (40_fsl_get_put R113, 60_exceptions
R227, 60_exceptions R231, 92_eei_decisions D16) -/
def Obligations.UserModeTransferIsPrivileged : Prop :=
  ∀ (r fsl : Field5) (s : State), s.priv = .user →
    ∀ i ∈ ([.get r fsl, .nget r fsl, .cget r fsl, .ncget r fsl, .put r fsl, .nput r fsl, .cput r fsl, .ncput r fsl] :
        List Instr),
      exec i s = .fault (.programPrivileged { pc := s.pc, info := s.instrWord, frozen := s })

/-- In privileged mode with FSL instructions forwarded, each of the eight forms whose FSL number is not below N_FSL is
refused as noSuchFsl, whatever the queues hold. The source does not say what happens; that a model refuses is the
spec's own decision (R38 second sentence: 'a model refuses the instruction', D12). (10_state R38, 40_fsl_get_put R122,
92_eei_decisions D12) -/
def Obligations.MissingFslIsRefused : Prop :=
  ∀ (r fsl : Field5) (s : State), s.priv = .privileged → s.cfg.apu.fsl = true → s.cfg.nFsl ≤ fsl.toNat →
    ∀ i ∈ ([.get r fsl, .nget r fsl, .cget r fsl, .ncget r fsl, .put r fsl, .nput r fsl, .cput r fsl, .ncput r fsl] :
        List Instr),
      exec i s = .refused .noSuchFsl

/-- Each undotted UDI whose slot (n, 1) is defined and whose operation raises nothing: a next state with the FCM state the
operation gives, rT written exactly when T is a destination register and the operation gives a result, pc + 4, and
everything else, CR and memory among it, as before. a_val and b_val are the registers' values only for operands of
kind gpr_src. (41_udi R130, 41_udi R131, 41_udi R132, 41_udi R133) -/
def Obligations.UndottedUdiResult : Prop :=
  ∀ (t a b : Field5) (s : State) (m : UdiMeaning),
    ∀ p ∈ ([(.udi0fcm t a b, 0#3), (.udi1fcm t a b, 1#3), (.udi2fcm t a b, 2#3), (.udi3fcm t a b, 3#3),
        (.udi4fcm t a b, 4#3), (.udi5fcm t a b, 5#3), (.udi6fcm t a b, 6#3), (.udi7fcm t a b, 7#3)] : List (Instr × BitVec 3)),
      s.cfg.apu.udi = true → s.udiDef p.2 1#1 = some m →
      ∀ r, r = udiResult m.op s.fcm t a b (if m.aKind = .gprSrc then some (s.readGpr a) else none)
          (if m.bKind = .gprSrc then some (s.readGpr b) else none) →
        r.exc = none →
        ∃ v, exec p.1 s = .next v ∧ v = { s with gpr := v.gpr, pc := s.pc + 4#32, fcm := r.fcm } ∧
          ∀ q, v.readGpr q = if m.tKind = .gprDest ∧ q = t then r.tResult.getD (s.readGpr q) else s.readGpr q

/-- Each dotted UDI whose slot (n, 0) is defined and whose operation raises nothing: as the undotted ones, and the CR
field the operation names takes its four bits while the seven other fields, or all eight where it names none, stay.
(41_udi R131, 41_udi R132, 10_state R29) -/
def Obligations.DottedUdiResult : Prop :=
  ∀ (t a b : Field5) (s : State) (m : UdiMeaning),
    ∀ p ∈ ([(.udi0fcmDot t a b, 0#3), (.udi1fcmDot t a b, 1#3), (.udi2fcmDot t a b, 2#3), (.udi3fcmDot t a b, 3#3),
        (.udi4fcmDot t a b, 4#3), (.udi5fcmDot t a b, 5#3), (.udi6fcmDot t a b, 6#3), (.udi7fcmDot t a b, 7#3)] : List (Instr × BitVec 3)),
      s.cfg.apu.udi = true → s.udiDef p.2 0#1 = some m →
      ∀ r, r = udiResult m.op s.fcm t a b (if m.aKind = .gprSrc then some (s.readGpr a) else none)
          (if m.bKind = .gprSrc then some (s.readGpr b) else none) →
        r.exc = none →
        ∃ v, exec p.1 s = .next v ∧ v = { s with gpr := v.gpr, pc := s.pc + 4#32, fcm := r.fcm, cr := v.cr } ∧
          (∀ q, v.readGpr q = if m.tKind = .gprDest ∧ q = t then r.tResult.getD (s.readGpr q) else s.readGpr q) ∧
          (r.crResult = none → v.cr = s.cr) ∧
          ∀ f x, r.crResult = some (f, x) → ∀ g, readCrField v.cr g = if g = f then x else readCrField s.cr g

/-- For every UDI, defined, whose operation answers an exception: exec is the user-defined fault with its code and value,
the address of the instruction, and the state as it was before. That a user exception is a code and a word, the word
recorded as info, is the model's choice (log 19, DESIGN CHOICE): R227 prints only UserDefined(..). (41_udi R131,
60_exceptions R220, 60_exceptions R227, 60_exceptions R231) -/
def Obligations.UdiExceptionIsRaised : Prop :=
  ∀ (i : Instr) (n : BitVec 3) (rcn : BitVec 1) (t a b : Field5) (s : State) (m : UdiMeaning) (e : UserException),
    classOf i = .udi n rcn t a b → s.cfg.apu.udi = true → s.udiDef n rcn = some m →
    (udiAnswer m t a b s).exc = some e →
      exec i s = .fault (.userDefined e.code { pc := s.pc, info := e.info, frozen := s })

/-- For every UDI whose slot udi_def(n, Rcn) is none, exec refuses it as udiNotDefined. (41_udi R131, 30_encoding R96) -/
def Obligations.UndefinedUdiIsRefused : Prop :=
  ∀ (i : Instr) (n : BitVec 3) (rcn : BitVec 1) (t a b : Field5) (s : State),
    classOf i = .udi n rcn t a b → s.cfg.apu.udi = true → s.udiDef n rcn = none → exec i s = .refused .udiNotDefined

/-- If a UDI, or an FCM load or store with data relocation disabled, answers a next state, then in the same state with the
other mode it answers the same next state with that mode. (41_udi R133, 42_fcm_load_update R171, 60_exceptions R245) -/
def Obligations.UnprivilegedInstructionsIgnoreMode : Prop :=
  ∀ (i : Instr) (s t : State) (p : Priv), exec i s = .next t →
    ((∃ n rcn x a b, classOf i = .udi n rcn x a b) ∨
      ((transferOf (classOf i)).isSome = true ∧ s.dataReloc = false)) →
    exec i { s with priv := p } = .next { t with priv := p }

/-- A byte or half word load whose access goes through at real address ra: a next state whose latch holds the datum in
lane eb (the other bits are free), whose FCM state is fcm_load_beat of that latch, with rA = EA in the update forms
and no other register changed, pc + 4, memory, XER, CR and the FSLs as before. (42_fcm_load_update R160,
42_fcm_load_update R161, 42_fcm_load_update R167, 42_fcm_load_update R169, 43_fcm_load R175, 43_fcm_load R176,
20_memory R57) -/
def Obligations.ByteHalfLoadResult : Prop :=
  ∀ (f rA rB : Field5) (s : State) (ra : Word),
    ∀ p ∈ ([(.lbfcmux f rA rB, .b, true, 1), (.lbfcmx f rA rB, .b, false, 1), (.lhfcmux f rA rB, .h, true, 2),
        (.lhfcmx f rA rB, .h, false, 2)] : List (Instr × AccessKind × Bool × Nat)),
      ∀ ea, ea = transferEA p.2.1 p.2.2.1 rA rB s →
      fcmReady p.2.1 p.2.2.1 rA rB s → s.realAddress p.2.1 .load ea p.2.2.2 = .ok ra →
        ∃ t, exec p.1 s = .next t ∧
          extractLane (laneOffset ea) p.2.2.2 t.fcmData = s.mem.readBytes ra p.2.2.2 ∧
          t.fcm = fcmLoadBeat s.cfg.fcmLogic s.fcm f p.2.1 p.2.2.1 0 (laneOffset ea) t.fcmData ∧
          t = { s with gpr := t.gpr, pc := s.pc + 4#32, fcm := t.fcm, fcmData := t.fcmData, draws := t.draws } ∧
          ∀ r, t.readGpr r = if p.2.2.1 = true ∧ r = rA then ea else s.readGpr r

/-- lwfcmux, lwfcmx (one beat), ldfcmux, ldfcmx (two), lqfcmux, lqfcmx (four), every beat's access going through at real
address ra b: a next state whose FCM state is fcm_load_beat applied beat by beat in ascending order to the words read,
with rA = EA in the update forms and no other register changed, pc + 4, memory, XER, CR and the FSLs as before.
(42_fcm_load_update R162, 42_fcm_load_update R163, 42_fcm_load_update R164, 43_fcm_load R177, 43_fcm_load R178,
43_fcm_load R179, 20_memory R58) -/
def Obligations.WordLoadsResult : Prop :=
  ∀ (f rA rB : Field5) (s : State) (ra : Fin 4 → Word),
    ∀ p ∈ ([(.lwfcmux f rA rB, .w, true, [0]), (.lwfcmx f rA rB, .w, false, [0]), (.ldfcmux f rA rB, .d, true, [0, 1]),
        (.ldfcmx f rA rB, .d, false, [0, 1]), (.lqfcmux f rA rB, .q, true, [0, 1, 2, 3]),
        (.lqfcmx f rA rB, .q, false, [0, 1, 2, 3])] : List (Instr × AccessKind × Bool × List (Fin 4))),
      ∀ ea, ea = transferEA p.2.1 p.2.2.1 rA rB s →
      fcmReady p.2.1 p.2.2.1 rA rB s →
      (∀ b ∈ p.2.2.2, s.realAddress p.2.1 .load (ea + BitVec.ofNat 32 (4 * b.val)) 4 = .ok (ra b)) →
        ∃ t, exec p.1 s = .next t ∧
          t.fcm = p.2.2.2.foldl (fun m b =>
            fcmLoadBeat s.cfg.fcmLogic m f p.2.1 p.2.2.1 b 0 (s.mem.readBytes (ra b) 4)) s.fcm ∧
          t = { s with gpr := t.gpr, pc := s.pc + 4#32, fcm := t.fcm, fcmData := t.fcmData } ∧
          ∀ r, t.readGpr r = if p.2.2.1 = true ∧ r = rA then ea else s.readGpr r

/-- A byte or half word store whose access goes through at real address ra, outside the program text: a next state whose
bytes at ra hold lane eb of the beat the FCM presents, every other byte of memory reads as before, rA = EA in the
update forms and no other register changed, pc + 4, the FCM state, XER, CR and the FSLs as before.
(44_fcm_store_update R190, 44_fcm_store_update R191, 44_fcm_store_update R197, 44_fcm_store_update R198, 45_fcm_store
R205, 45_fcm_store R206) -/
def Obligations.ByteHalfStoreResult : Prop :=
  ∀ (f rA rB : Field5) (s : State) (ra : Word),
    ∀ p ∈ ([(.stbfcmux f rA rB, .b, true, 1), (.stbfcmx f rA rB, .b, false, 1), (.sthfcmux f rA rB, .h, true, 2),
        (.sthfcmx f rA rB, .h, false, 2)] : List (Instr × AccessKind × Bool × Nat)),
      ∀ ea, ea = transferEA p.2.1 p.2.2.1 rA rB s →
      s.mem.wf = true → fcmReady p.2.1 p.2.2.1 rA rB s → s.realAddress p.2.1 .store ea p.2.2.2 = .ok ra →
      (∀ a, inSpan ra p.2.2.2 a → s.inText a = false) →
        ∃ t, exec p.1 s = .next t ∧
          t.mem.readBytes ra p.2.2.2 = extractLane (laneOffset ea) p.2.2.2
            (fcmStoreBeat s.cfg.fcmLogic s.fcm f p.2.1 p.2.2.1 0 (laneOffset ea)) ∧
          (∀ a, ¬ inSpan ra p.2.2.2 a → t.mem.read a = s.mem.read a) ∧
          t = { s with gpr := t.gpr, pc := s.pc + 4#32, mem := t.mem, fcmData := t.fcmData } ∧
          ∀ r, t.readGpr r = if p.2.2.1 = true ∧ r = rA then ea else s.readGpr r

/-- stwfcmux, stwfcmx (one beat), stdfcmux, stdfcmx (two), stqfcmux, stqfcmx (four), every beat's access going through at
real address ra b, outside the program text: a next state in which every byte outside the beats' words reads as
before; where the words do not overlap in real memory, each holds the beat the FCM presents for it; rA = EA in the
update forms and no other register changed, pc + 4, the FCM state, XER, CR and the FSLs as before.
(44_fcm_store_update R192, 44_fcm_store_update R193, 44_fcm_store_update R194, 45_fcm_store R207, 45_fcm_store R208,
45_fcm_store R209, 20_memory R58) -/
def Obligations.WordStoresResult : Prop :=
  ∀ (f rA rB : Field5) (s : State) (ra : Fin 4 → Word),
    ∀ p ∈ ([(.stwfcmux f rA rB, .w, true, [0]), (.stwfcmx f rA rB, .w, false, [0]),
        (.stdfcmux f rA rB, .d, true, [0, 1]), (.stdfcmx f rA rB, .d, false, [0, 1]),
        (.stqfcmux f rA rB, .q, true, [0, 1, 2, 3]), (.stqfcmx f rA rB, .q, false, [0, 1, 2, 3])] :
        List (Instr × AccessKind × Bool × List (Fin 4))),
      ∀ ea, ea = transferEA p.2.1 p.2.2.1 rA rB s →
      s.mem.wf = true → fcmReady p.2.1 p.2.2.1 rA rB s →
      (∀ b ∈ p.2.2.2, s.realAddress p.2.1 .store (ea + BitVec.ofNat 32 (4 * b.val)) 4 = .ok (ra b)) →
      (∀ b ∈ p.2.2.2, ∀ a, inSpan (ra b) 4 a → s.inText a = false) →
        ∃ t, exec p.1 s = .next t ∧
          ((∀ b ∈ p.2.2.2, ∀ c ∈ p.2.2.2, b ≠ c → ∀ a, inSpan (ra b) 4 a → ¬ inSpan (ra c) 4 a) →
            ∀ b ∈ p.2.2.2, t.mem.readBytes (ra b) 4 = fcmStoreBeat s.cfg.fcmLogic s.fcm f p.2.1 p.2.2.1 b 0) ∧
          (∀ a, (∀ b ∈ p.2.2.2, ¬ inSpan (ra b) 4 a) → t.mem.read a = s.mem.read a) ∧
          t = { s with gpr := t.gpr, pc := s.pc + 4#32, mem := t.mem, fcmData := t.fcmData } ∧
          ∀ r, t.readGpr r = if p.2.2.1 = true ∧ r = rA then ea else s.readGpr r

/-- If stwfcmx f rA rB answers a next state t, and lwfcmx g rA rB in t passes its checks and reaches the same real
address, then the load answers a next state whose FCM received exactly the word the store's beat presented. (20_memory
R64, 20_memory R51) -/
def Obligations.StoredWordIsLoadedBack : Prop :=
  ∀ (f g rA rB : Field5) (s t : State) (ra : Word), s.mem.wf = true → exec (.stwfcmx f rA rB) s = .next t →
    s.realAddress .w .store (transferEA .w false rA rB s) 4 = .ok ra →
    t.realAddress .w .load (transferEA .w false rA rB s) 4 = .ok ra →
      ∃ u, exec (.lwfcmx g rA rB) t = .next u ∧
        u.fcm = fcmLoadBeat s.cfg.fcmLogic s.fcm g .w false 0 0
          (fcmStoreBeat s.cfg.fcmLogic s.fcm f .w false 0 0)

/-- For every FCM store that passes its checks and whose beats all translate: if some byte of some beat lies in the
program text, exec refuses the instruction as storeToProgramText. R67 and R270 refuse a store into what is later
fetched (the spec's own decision D6); that any byte of the whole text counts, by real address, is the model's choice
(log 25, DESIGN CHOICE). (20_memory R67, 70_reset_and_hazards R270) -/
def Obligations.StoreIntoProgramTextIsRefused : Prop :=
  ∀ (i : Instr) (k : AccessKind) (u : Bool) (f rA rB : Field5) (s : State) (ra : Fin 4 → Word) (ea : Word),
    classOf i = .store k u f rA rB → fcmReady k u rA rB s → ea = transferEA k u rA rB s →
    (∀ b ∈ beatsOf k, s.realAddress k .store (beatAddress ea b) (unitBytes k) = .ok (ra b)) →
    (∃ b ∈ beatsOf k, ∃ a, inSpan (ra b) (unitBytes k) a ∧ s.inText a = true) →
      exec i s = .refused .storeToProgramText

/-- The sum is the base (the constant 0 when a non-update form has rA = 0, else x[rA]) plus x[rB] modulo 2^32; EA is the
sum itself for byte, the sum rounded down to a multiple of 2 for half word and of 4 for word, double and quad; every
update form that completes leaves that masked EA in rA. (R55) -/
def Obligations.EffectiveAddressRule : Prop :=
  (∀ (u : Bool) (rA rB : Field5) (s : State), (addressSum u rA rB s).toNat =
      ((if u = false ∧ rA = 0#5 then 0 else (s.readGpr rA).toNat) + (s.readGpr rB).toNat) % 4294967296) ∧
    (∀ v : Word, effectiveAddress .b v = v ∧ (effectiveAddress .h v).toNat = v.toNat - v.toNat % 2 ∧
      (effectiveAddress .w v).toNat = v.toNat - v.toNat % 4 ∧ (effectiveAddress .d v).toNat = v.toNat - v.toNat % 4 ∧
      (effectiveAddress .q v).toNat = v.toNat - v.toNat % 4) ∧
    ∀ (i : Instr) (k : AccessKind) (d : Access) (f rA rB : Field5) (s t : State),
      transferOf (classOf i) = some (k, d, true, f, rA, rB) → exec i s = .next t →
        t.readGpr rA = effectiveAddress k (addressSum true rA rB s)

/-- eb is 8 times the two low bits of EA; the byte lane of the latch is bits 31-eb to 24-eb and, for an even EA, the half
word lane bits 31-eb to 16-eb; a datum put into its lane is read back from it whatever the other bits were. The
subscript of eb is illegible in the source: that it starts at bit 30 is the spec's own inference (D10; log 33,
DEDUCED, unsafe). (20_memory R57, 92_eei_decisions D10) -/
def Obligations.ByteLaneRule : Prop :=
  ∀ (ea d v bg : Word),
    laneOffset ea = 8 * (ea.toNat % 4) ∧
    extractLane (laneOffset ea) 1 d = (d.extractLsb' (24 - laneOffset ea) 8).setWidth 32 ∧
    extractLane (laneOffset ea) 1 (insertLane (laneOffset ea) 1 v bg) = (v.setWidth 8).setWidth 32 ∧
    (ea.toNat % 2 = 0 →
      extractLane (laneOffset ea) 2 d = (d.extractLsb' (16 - laneOffset ea) 16).setWidth 32 ∧
      extractLane (laneOffset ea) 2 (insertLane (laneOffset ea) 2 v bg) = (v.setWidth 16).setWidth 32)

/-- A read of 1, 2 or 4 bytes is M[a], M[a]*2^8 + M[a+1], M[a]*2^24 + M[a+1]*2^16 + M[a+2]*2^8 + M[a+3]; a write of 2 or 4
bytes puts the most significant byte lowest, byte for byte; the bytes a step fetches at pc decode as the 4-byte big-
endian read at pc does, and that read is also the word a privileged fault records. Big-endian order is the spec's own
decision (D8). (20_memory R51, 20_memory R69, 92_eei_decisions D8) -/
def Obligations.BigEndianRule : Prop :=
  (∀ (m : Memory) (a : Word), (m.readBytes a 1).toNat = (m.read a).toNat ∧
      (m.readBytes a 2).toNat = (m.read a).toNat * 256 + (m.read (a + 1#32)).toNat ∧
      (m.readBytes a 4).toNat = (m.read a).toNat * 16777216 + (m.read (a + 1#32)).toNat * 65536 +
        (m.read (a + 2#32)).toNat * 256 + (m.read (a + 3#32)).toNat) ∧
    (∀ (m : Memory) (a v : Word), m.wf = true →
      (m.writeBytes a v 1).read a = v.extractLsb' 0 8 ∧
      (m.writeBytes a v 2).read a = v.extractLsb' 8 8 ∧ (m.writeBytes a v 2).read (a + 1#32) = v.extractLsb' 0 8 ∧
      (m.writeBytes a v 4).read a = v.extractLsb' 24 8 ∧ (m.writeBytes a v 4).read (a + 1#32) = v.extractLsb' 16 8 ∧
      (m.writeBytes a v 4).read (a + 2#32) = v.extractLsb' 8 8 ∧
      (m.writeBytes a v 4).read (a + 3#32) = v.extractLsb' 0 8) ∧
    (∀ (e : GetEnc) (s : State),
      (∀ i, decodeWord e (s.mem.readBytes s.pc 4) = .ok i → decode e s.fetchBytes = .ok (i, [])) ∧
      ∀ r, decodeWord e (s.mem.readBytes s.pc 4) = .error r → decode e s.fetchBytes = .error r) ∧
    ∀ s : State, s.instrWord = s.mem.readBytes s.pc 4

/-- With relocation disabled Translate is ok with the real address equal to the effective address; a TLB miss and a
protection answer occur only with relocation enabled; no_access only in user mode; read_only only for stores.
(20_memory R60, 60_exceptions R221, 60_exceptions R222, 60_exceptions R223) -/
def Obligations.TranslateObeysItsConstraints : Prop :=
  ∀ (s : State) (ea : Word) (a : Access),
    (s.dataReloc = false → ∃ e, s.translate ea a = .ok ea e) ∧
    (s.translate ea a = .tlbMiss → s.dataReloc = true) ∧
    (s.translate ea a = .noAccess → s.dataReloc = true ∧ s.priv = .user) ∧
    (s.translate ea a = .readOnly → s.dataReloc = true ∧ a = .store)

/-- With relocation disabled, an address with the big-endian attribute whose bytes the launch memory contains is accessed
at the effective address itself; with relocation enabled, an address whose valid entry is unprotected and big-endian
is accessed at the entry's real address, if the launch memory contains its bytes. An access that goes through has the
big-endian attribute. For every FCM load and store that passes its checks: a beat translated to a big-endian real
address of which the launch memory lacks a byte, earlier beats going through, is refused as noSuchAddress (the spec's
own decision D31). (20_memory R51, 20_memory R52, 20_memory R60, 20_memory R62, 92_eei_decisions D31) -/
def Obligations.AccessGoesThrough : Prop :=
  (∀ (s : State) (k : AccessKind) (a : Access) (ea : Word) (n : Nat),
    (s.dataReloc = false → realEndian s.translation ea = .big → allBytes s.memoryHas ea n = true →
      s.realAddress k a ea n = .ok ea) ∧
    (∀ e : TlbAnswer, s.dataReloc = true → lookupTlb s.translation.tlb ea a s.priv = some e → e.zone = .unprotected →
      e.endian = .big → allBytes s.memoryHas e.ra n = true → s.realAddress k a ea n = .ok e.ra) ∧
    ∀ ra, s.realAddress k a ea n = .ok ra → s.translate ea a = .ok ra .big ∧ ∀ j < n, s.memoryHas (ra + BitVec.ofNat 32 j) = true) ∧
    ∀ (i : Instr) (k : AccessKind) (d : Access) (u : Bool) (f rA rB : Field5) (s : State) (ea ra : Word) (b : Fin 4),
      transferOf (classOf i) = some (k, d, u, f, rA, rB) → fcmReady k u rA rB s → ea = transferEA k u rA rB s →
      b ∈ beatsOf k → earlierBeatsPass s k d ea b → s.translate (beatAddress ea b) d = .ok ra .big →
      (∃ a, inSpan ra (unitBytes k) a ∧ s.memoryHas a = false) → exec i s = .refused .noSuchAddress

/-- For every FCM load and store that passes its checks, with relocation enabled: at the first beat whose address has no
valid translation entry, earlier beats going through, exec is the fault dataTlbMiss with the instruction's address and
that beat's effective address; at the first beat the frozen state is the state before. Translate answers a miss
exactly when relocation is enabled and there is no valid entry. (R223) -/
def Obligations.TlbMissFaults : Prop :=
  (∀ (i : Instr) (k : AccessKind) (d : Access) (u : Bool) (f rA rB : Field5) (s : State) (ea : Word) (b : Fin 4),
    transferOf (classOf i) = some (k, d, u, f, rA, rB) → fcmReady k u rA rB s → ea = transferEA k u rA rB s →
    b ∈ beatsOf k → earlierBeatsPass s k d ea b → s.dataReloc = true →
    lookupTlb s.translation.tlb (beatAddress ea b) d s.priv = none →
      ∃ z, exec i s = .fault (.dataTlbMiss { pc := s.pc, info := beatAddress ea b, frozen := z }) ∧ (b = 0 → z = s)) ∧
    ∀ (s : State) (a : Word) (d : Access), s.translate a d = .tlbMiss ↔
      s.dataReloc = true ∧ lookupTlb s.translation.tlb a d s.priv = none

/-- A beat of any FCM load in user mode with relocation enabled whose entry has no-access protection, earlier beats going
through, is the fault dataStorage with that beat's effective address; with a read-only zone, or in privileged mode, a
load's translation goes through; a load is never answered read-only, and no-access only in user mode with relocation
enabled. (R221) -/
def Obligations.DataStorageOnLoads : Prop :=
  (∀ (i : Instr) (k : AccessKind) (u : Bool) (f rA rB : Field5) (s : State) (ea : Word) (b : Fin 4) (e : TlbAnswer),
    classOf i = .load k u f rA rB → fcmReady k u rA rB s → ea = transferEA k u rA rB s →
    b ∈ beatsOf k → earlierBeatsPass s k .load ea b → s.dataReloc = true → s.priv = .user →
    lookupTlb s.translation.tlb (beatAddress ea b) .load s.priv = some e → e.zone = .noAccess →
      ∃ z, exec i s = .fault (.dataStorage { pc := s.pc, info := beatAddress ea b, frozen := z }) ∧ (b = 0 → z = s)) ∧
    (∀ (s : State) (a : Word) (e : TlbAnswer), s.dataReloc = true →
      lookupTlb s.translation.tlb a .load s.priv = some e → (e.zone = .readOnly ∨ s.priv = .privileged) →
        s.translate a .load = .ok e.ra e.endian) ∧
    ∀ (s : State) (a : Word), s.translate a .load ≠ .readOnly ∧
      (s.translate a .load = .noAccess → s.dataReloc = true ∧ s.priv = .user)

/-- A beat of any FCM store with relocation enabled whose entry has no-access protection (in user mode) or read-only
protection (in any mode), earlier beats going through, is the fault dataStorage with that beat's effective address;
with a no-access zone in privileged mode the translation goes through; a store is answered read-only only with
relocation enabled, and no-access only in user mode with it enabled. (R222) -/
def Obligations.DataStorageOnStores : Prop :=
  (∀ (i : Instr) (k : AccessKind) (u : Bool) (f rA rB : Field5) (s : State) (ea : Word) (b : Fin 4) (e : TlbAnswer),
    classOf i = .store k u f rA rB → fcmReady k u rA rB s → ea = transferEA k u rA rB s →
    b ∈ beatsOf k → earlierBeatsPass s k .store ea b → s.dataReloc = true →
    lookupTlb s.translation.tlb (beatAddress ea b) .store s.priv = some e →
    (e.zone = .readOnly ∨ (e.zone = .noAccess ∧ s.priv = .user)) →
      ∃ z, exec i s = .fault (.dataStorage { pc := s.pc, info := beatAddress ea b, frozen := z }) ∧ (b = 0 → z = s)) ∧
    (∀ (s : State) (a : Word) (e : TlbAnswer), s.dataReloc = true →
      lookupTlb s.translation.tlb a .store s.priv = some e → e.zone = .noAccess → s.priv = .privileged →
        s.translate a .store = .ok e.ra e.endian) ∧
    ∀ (s : State) (a : Word), (s.translate a .store = .readOnly → s.dataReloc = true) ∧
      (s.translate a .store = .noAccess → s.dataReloc = true ∧ s.priv = .user)

/-- A valid, forwarded FCM load or store whose sum is not its EA: under MISALIGN_POLICY fault exec is the fault alignment
with the unmasked sum and the state unchanged; under faultNatural (the model's reading of R56's 'may raise', log 23,
DEDUCED) the same for a sum that is not a multiple of the whole transfer's size; under mask every such instruction
passes its checks, and an alignment fault of exec has a beat with the little-endian attribute. The test raises under
fault exactly for a sum that is not a multiple of the beat size, under faultNatural exactly for one that is not a
multiple of the transfer's, under mask never. (20_memory R56, 60_exceptions R224, 60_exceptions R226, 60_exceptions
R227) -/
def Obligations.MisalignedSumFaults : Prop :=
  (∀ (i : Instr) (k : AccessKind) (d : Access) (u : Bool) (f rA rB : Field5) (s : State),
    transferOf (classOf i) = some (k, d, u, f, rA, rB) → (u = true → rA ≠ 0#5) → s.cfg.apu.fcmTransfer = true →
      (s.cfg.misalign = .fault → addressSum u rA rB s ≠ transferEA k u rA rB s →
        exec i s = .fault (.alignment { pc := s.pc, info := addressSum u rA rB s, frozen := s })) ∧
      (s.cfg.misalign = .faultNatural → (addressSum u rA rB s).toNat % transferBytes k ≠ 0 →
        exec i s = .fault (.alignment { pc := s.pc, info := addressSum u rA rB s, frozen := s })) ∧
      (s.cfg.misalign = .mask → fcmReady k u rA rB s ∧ ∀ r, exec i s = .fault (.alignment r) →
        ∃ b ∈ beatsOf k, ∃ ra, s.translate (beatAddress (transferEA k u rA rB s) b) d = .ok ra .little)) ∧
    ∀ (k : AccessKind) (v : Word), misalignRaises .mask k v = false ∧
      (misalignRaises .fault k v = true ↔ v.toNat % unitBytes k ≠ 0) ∧
      (misalignRaises .faultNatural k v = true ↔ v.toNat % transferBytes k ≠ 0)

/-- If an instruction answers the fault alignment r, it is an FCM load or store, and one of two: MISALIGN_POLICY raises
for its sum, r records the unmasked sum and the unchanged state, and the sum is not the EA under the policy fault, or
not a multiple of the transfer's size under faultNatural (the model's reading of R56's 'may raise', log 23, DEDUCED);
or r records the address of a beat that Translate reported little-endian and for which ENDIAN_POLICY answers the
Alignment exception. (60_exceptions R224, 20_memory R52, 20_memory R56) -/
def Obligations.AlignmentHasTwoCauses : Prop :=
  ∀ (i : Instr) (s : State) (r : FaultRecord), exec i s = .fault (.alignment r) →
    ∃ k d u f rA rB, transferOf (classOf i) = some (k, d, u, f, rA, rB) ∧
      ((misalignRaises s.cfg.misalign k (addressSum u rA rB s) = true ∧ r.info = addressSum u rA rB s ∧ r.frozen = s ∧
          ((s.cfg.misalign = .fault ∧ addressSum u rA rB s ≠ transferEA k u rA rB s) ∨
            (s.cfg.misalign = .faultNatural ∧ (addressSum u rA rB s).toNat % transferBytes k ≠ 0))) ∨
        ∃ b ∈ beatsOf k, ∃ ra, r.info = beatAddress (transferEA k u rA rB s) b ∧
          s.translate r.info d = .ok ra .little ∧
          endianAnswer s.cfg.endian k d .little = .unsupported .alignmentException)

/-- A fault of a get or put form is programPrivileged, of a UDI userDefined, of an FCM load or store dataStorage,
dataTlbMiss or alignment: no instruction raises any other exception. (R220) -/
def Obligations.ExceptionsByInstructionGroup : Prop :=
  ∀ (i : Instr) (s : State) (x : Fault), exec i s = .fault x →
    (isFslTransfer (classOf i) = true ∧ ∃ r, x = .programPrivileged r) ∨
    ((∃ n rcn t a b, classOf i = .udi n rcn t a b) ∧ ∃ c r, x = .userDefined c r) ∨
    ((transferOf (classOf i)).isSome = true ∧ ∃ r, x = .dataStorage r ∨ x = .dataTlbMiss r ∨ x = .alignment r)

/-- Whatever instruction raises, in every state: the fault records its address; registers, pc, XER, CR, mode, FSL queues
and parameters are as before the instruction; the state is wholly unchanged unless a beat after the first of a double
or quad transfer raised: then a load leaves memory as it was, and a store leaves the FCM state as it was and, in
memory, every byte outside the words that the beats before the raising one access. What those words hold is
LaterBeatStoreFaultLeavesOldOrNewWords. (60_exceptions R228, 60_exceptions R231, 60_exceptions R227) -/
def Obligations.FaultFreezesTheState : Prop :=
  ∀ (i : Instr) (s : State) (x : Fault), exec i s = .fault x →
    (faultRecordOf x).pc = s.pc ∧
    (∃ m c l n, (faultRecordOf x).frozen = { s with mem := m, fcm := c, fcmData := l, draws := n } ∧
      (s.mem.wf = true → m.wf = true)) ∧
    ((faultRecordOf x).frozen = s ∨
      ∃ k d u f rA rB b, transferOf (classOf i) = some (k, d, u, f, rA, rB) ∧ (k = .d ∨ k = .q) ∧
        b ∈ beatsOf k ∧ b ≠ 0 ∧
        (∃ kind, s.realAddress k d (beatAddress (transferEA k u rA rB s) b) 4 =
          .error (.raised kind (faultRecordOf x).info)) ∧
        (d = .load → (faultRecordOf x).frozen.mem = s.mem) ∧
        (d = .store → (faultRecordOf x).frozen.fcm = s.fcm ∧ (s.mem.wf = true → ∀ a,
          (∀ c ∈ beatsOf k, c < b → ∀ ra,
            s.realAddress k .store (beatAddress (transferEA k u rA rB s) c) 4 = .ok ra → ¬ inSpan ra 4 a) →
          (faultRecordOf x).frozen.mem.read a = s.mem.read a)))

/-- A double or quad store whose beat b raises after the earlier beats went through at real addresses ra c: the fault's
frozen state differs from the state before in memory, latch and draw counter only; every byte outside the earlier
beats' words is unchanged; where those words do not overlap, each holds its old value or the beat's value.
(60_exceptions R228) -/
def Obligations.LaterBeatStoreFaultLeavesOldOrNewWords : Prop :=
  ∀ (i : Instr) (k : AccessKind) (u : Bool) (f rA rB : Field5) (s : State) (ea : Word) (ra : Fin 4 → Word) (b : Fin 4)
    (x : ExceptionKind) (v : Word),
    classOf i = .store k u f rA rB → (k = .d ∨ k = .q) → fcmReady k u rA rB s → ea = transferEA k u rA rB s →
    s.mem.wf = true → b ∈ beatsOf k →
    (∀ c ∈ beatsOf k, c < b → s.realAddress k .store (beatAddress ea c) 4 = .ok (ra c) ∧
      allBytes (fun a => !s.inText a) (ra c) 4 = true) →
    s.realAddress k .store (beatAddress ea b) 4 = .error (.raised x v) →
      ∃ m l n, exec i s =
          .fault (faultOf x { pc := s.pc, info := v, frozen := { s with mem := m, fcmData := l, draws := n } }) ∧
        (∀ a, (∀ c ∈ beatsOf k, c < b → ¬ inSpan (ra c) 4 a) → m.read a = s.mem.read a) ∧
        ((∀ c ∈ beatsOf k, ∀ e ∈ beatsOf k, c < b → e < b → c ≠ e → ∀ a, inSpan (ra c) 4 a → ¬ inSpan (ra e) 4 a) →
          ∀ c ∈ beatsOf k, c < b → m.readBytes (ra c) 4 = s.mem.readBytes (ra c) 4 ∨
            m.readBytes (ra c) 4 = fcmStoreBeat s.cfg.fcmLogic s.fcm f k u c 0)

/-- Over all 44 instructions that complete: XER[CA] changes only in non-blocking get and put forms; a non-blocking get
leaves it 1 exactly when its queue was empty, a non-blocking put exactly when the interface was full; and changing
XER[CA] beforehand changes no completion and nothing but XER afterwards. (R26) -/
def Obligations.CarryFlagRule : Prop :=
  ∀ (i : Instr) (s t : State), exec i s = .next t →
    (t.xerCa ≠ s.xerCa → ∃ c x y, classOf i = .get true c x y ∨ classOf i = .put true c x y) ∧
    (∀ c rD fsl, classOf i = .get true c rD fsl → t.xerCa = (s.inQueue fsl).isEmpty) ∧
    (∀ c rA fsl, classOf i = .put true c rA fsl → t.xerCa = s.isFull fsl) ∧
    ∀ v, ∃ w, exec i { s with xerCa := v } = .next w ∧ sameButXer w t

/-- Over all 44 instructions that complete: XER[OV] changes only in get forms; a get that finds a word leaves it 0 if the
word's control bit is the expected one and 1 if not, whatever it was before; and changing XER[OV] beforehand changes
no completion and nothing but XER afterwards. (R27) -/
def Obligations.OverflowFlagRule : Prop :=
  ∀ (i : Instr) (s t : State), exec i s = .next t →
    (t.xerOv ≠ s.xerOv → ∃ n c x y, classOf i = .get n c x y) ∧
    (∀ n c rD fsl w rest, classOf i = .get n c rD fsl → s.inQueue fsl = w :: rest →
      (t.xerOv = false ↔ w.control = c)) ∧
    ∀ v, ∃ w, exec i { s with xerOv := v } = .next w ∧ sameButXer w t

/-- Over all 44 instructions and over the environment's turn: a step that answers a next state leaves the other fields of
XER, the summary overflow among them, as they were. R28 says so of the pre-defined instructions, SO by the spec's own
decision D15; for the UDIs it follows from what D21 lets a UDI do; that these fields are one 30-bit register with SO
inside is the model's (log 5, PRESUMED, unsafe). (10_state R28, 41_udi R131, 41_udi R132, 92_eei_decisions D15,
92_eei_decisions D21) -/
def Obligations.OtherXerFieldsUnchanged : Prop :=
  ∀ (s t : State), (step s = .next t → t.xerRest = s.xerRest) ∧
    ∀ i : Instr, exec i s = .next t → t.xerRest = s.xerRest

/-- Over all 44 instructions that complete: if CR changed, the instruction is a UDI with Rcn = 0. (10_state R29, 41_udi
R132) -/
def Obligations.ConditionRegisterWriters : Prop :=
  ∀ (i : Instr) (s t : State), exec i s = .next t → t.cr ≠ s.cr → ∃ n x a b, classOf i = .udi n 0#1 x a b

/-- Over all 44 instructions that complete: a register that changed is rD of a get form, rA of an update form (and it then
holds EA), or T of a UDI whose definition makes T a destination register. (10_state R21, 10_state R22) -/
def Obligations.GeneralRegisterWriters : Prop :=
  ∀ (i : Instr) (s t : State) (r : Field5), exec i s = .next t → t.readGpr r ≠ s.readGpr r →
    (∃ n c fsl, classOf i = .get n c r fsl) ∨
    (∃ k d f rB, transferOf (classOf i) = some (k, d, true, f, r, rB) ∧ t.readGpr r = transferEA k true r rB s) ∨
    ∃ n rcn a b m, classOf i = .udi n rcn r a b ∧ s.udiDef n rcn = some m ∧ m.tKind = .gprDest

/-- Over all 44 instructions: a next state has pc + 4 modulo 2^32, or the instruction is a blocking get or put and the
state is wholly unchanged. (10_state R24, 40_fsl_get_put R112) -/
def Obligations.ProgramCounterRule : Prop :=
  ∀ (i : Instr) (s t : State), exec i s = .next t →
    t.pc = s.pc + 4#32 ∨ (isBlocking (classOf i) = true ∧ t = s)

/-- Over all 44 instructions that complete: if memory changed the instruction is an FCM store; if the FCM state changed it
is an FCM load or a UDI; if any FSL queue changed it is a get or put form; full never changes. (10_state R33, 10_state
R35, 10_state R37, 41_udi R133) -/
def Obligations.MemoryAndFcmWriters : Prop :=
  ∀ (i : Instr) (s t : State), exec i s = .next t →
    (t.mem ≠ s.mem → ∃ k u f rA rB, classOf i = .store k u f rA rB) ∧
    (t.fcm ≠ s.fcm → (∃ k u f rA rB, classOf i = .load k u f rA rB) ∨ ∃ n rcn x a b, classOf i = .udi n rcn x a b) ∧
    ((t.fslIn ≠ s.fslIn ∨ t.fslOut ≠ s.fslOut) → isFslTransfer (classOf i) = true) ∧ t.fslFull = s.fslFull

/-- The environment's turn appends to input queues (never removes), removes from the heads of output queues (never
appends), may change full, and leaves every other component of the state but its own schedule as it was. Each kind of
move is there for every existing link and touches that link's queue or full only, the two directions apart. That the
environment's moves are a schedule in the state, one batch of which is made before each step, and that a move needs an
existing link, is the model's choice (log 15, DESIGN CHOICE); queues owned by the environment with the two directions
independent is the spec's own decision (R37 last sentence, D12). (10_state R36, 10_state R37, 92_eei_decisions D12) -/
def Obligations.EnvironmentMoves : Prop :=
  (∀ s : State,
    (∀ x, ∃ q, s.envTurn.inQueue x = s.inQueue x ++ q) ∧
    (∀ x, ∃ n, s.envTurn.outQueue x = (s.outQueue x).drop n) ∧
    s.envTurn =
      { s with env := s.envTurn.env, fslIn := s.envTurn.fslIn, fslOut := s.envTurn.fslOut, fslFull := s.envTurn.fslFull }) ∧
    ∀ (s : State) (x : Field5) (w : FslWord) (v : Bool) (rest : List (List EnvMove)), s.hasFsl x = true →
      (s.env = [.supply x w] :: rest → s.envTurn = { s with env := rest, fslIn := s.envTurn.fslIn } ∧
        ∀ y, s.envTurn.inQueue y = if y = x then s.inQueue y ++ [w] else s.inQueue y) ∧
      (s.env = [.drain x] :: rest → s.envTurn = { s with env := rest, fslOut := s.envTurn.fslOut } ∧
        ∀ y, s.envTurn.outQueue y = if y = x then (s.outQueue y).tail else s.outQueue y) ∧
      (s.env = [.setFull x v] :: rest → s.envTurn = { s with env := rest, fslFull := s.envTurn.fslFull } ∧
        ∀ y, s.envTurn.isFull y = if y = x then v else s.isFull y)

/-- From every state, any number of steps that answers a state leaves the mode, data relocation, the translation and
protection state and the launch parameters as they were at the start. (60_exceptions R246, 10_state R30,
70_reset_and_hazards R260) -/
def Obligations.ModeAndParametersConstantOverARun : Prop :=
  ∀ (n : Nat) (s t : State), Host.Core.run Sys2Proof.core n s = .next t →
    t.priv = s.priv ∧ t.dataReloc = s.dataReloc ∧ t.translation = s.translation ∧ t.cfg = s.cfg

/-- For every instruction and every state, exec does not answer the refusal that stands for a missing meaning. (00_scope
R2) -/
def Obligations.NoInstructionIsUnmodelled : Prop :=
  ∀ (i : Instr) (s : State) (m : String), exec i s ≠ .refused (.notModelled m)

/-- For every FCM load and store that passes its checks: the first beat that Translate reports little-endian, earlier
beats going through, is the fault alignment with the instruction's address and that beat's effective address where
ENDIAN_POLICY answers the Alignment exception (at the first beat the frozen state is the state before), and is refused
as endianNotGiven where it answers refuse. No policy answers with an access. The two answers are the spec's own
decision (D8). (60_exceptions R224, 60_exceptions R226, 20_memory R52, 92_eei_decisions D8) -/
def Obligations.LittleEndianBeatIsNotAccessed : Prop :=
  (∀ (i : Instr) (k : AccessKind) (d : Access) (u : Bool) (f rA rB : Field5) (s : State) (ea ra : Word) (b : Fin 4),
    transferOf (classOf i) = some (k, d, u, f, rA, rB) → fcmReady k u rA rB s → ea = transferEA k u rA rB s →
    b ∈ beatsOf k → earlierBeatsPass s k d ea b → s.translate (beatAddress ea b) d = .ok ra .little →
      (endianAnswer s.cfg.endian k d .little = .unsupported .alignmentException →
        ∃ z, exec i s = .fault (.alignment { pc := s.pc, info := beatAddress ea b, frozen := z }) ∧ (b = 0 → z = s)) ∧
      (endianAnswer s.cfg.endian k d .little = .unsupported .refuse → exec i s = .refused .endianNotGiven)) ∧
    ∀ (p : EndianPolicy) (k : AccessKind) (d : Access), endianAnswer p k d .little ≠ .bigEndianAccess

/-- If the APU controller does not forward a class, each instruction of it is refused as apuNotForwarding in every state
and for all operands: the gets and puts in privileged mode (in user mode they raise Program first), the sixteen UDIs,
the FCM loads and stores (the ten update forms with rA not 0). That a launch forwards the class is a premise of the
spec (R262 (a)), and refusing where it fails is the spec's own decision (D28); where the test stands among the checks
is the model's choice (log 27, DESIGN CHOICE). (70_reset_and_hazards R262, 60_exceptions R247, 92_eei_decisions D28) -/
def Obligations.UnforwardedClassIsRefused : Prop :=
  ∀ (i : Instr) (s : State),
    (isFslTransfer (classOf i) = true → s.priv = .privileged → s.cfg.apu.fsl = false →
      exec i s = .refused .apuNotForwarding) ∧
    (∀ n rcn t a b, classOf i = .udi n rcn t a b → s.cfg.apu.udi = false → exec i s = .refused .apuNotForwarding) ∧
    ∀ k d u f rA rB, transferOf (classOf i) = some (k, d, u, f, rA, rB) → (u = true → rA ≠ 0#5) →
      s.cfg.apu.fcmTransfer = false → exec i s = .refused .apuNotForwarding

/-- From every state with canonical memory, any number of steps that answers a state leaves, for every address p, both
where p stands to the program (one of its words, the end, elsewhere) and, where p is one of its words, the four bytes
that a fetch at p reads. That a store into any byte of the text is refused is log 25, and which addresses start a word
where pc0 is not a multiple of 4 is log 24 (both DESIGN CHOICE). (20_memory R67, 20_memory R69, 70_reset_and_hazards
R263, 92_eei_decisions D6) -/
def Obligations.NoStoreReachesAFetch : Prop :=
  ∀ (n : Nat) (s t : State), s.mem.wf = true → Host.Core.run Sys2Proof.core n s = .next t → ∀ p : Word,
    ({ t with pc := p } : State).fetchPlace = ({ s with pc := p } : State).fetchPlace ∧
    (({ s with pc := p } : State).fetchPlace = .text →
      ({ t with pc := p } : State).fetchBytes = ({ s with pc := p } : State).fetchBytes)
end

