-- ==== Sys2Proof/Laws/Decode.lean ====
section
/-! SUPPORT. What the field and pattern operations of the decoder and the encoder give, bit by bit. -/

namespace Sys2Proof

/-! ## Bits of the pieces -/

theorem getLsbD_placeField (lo i : Nat) (f : Field5) :
    (placeField lo f).getLsbD i = (decide (i < 32) && decide (lo ≤ i) && f.getLsbD (i - lo)) := by
  by_cases h : i < lo
  · have : ¬ lo ≤ i := by omega
    simp [placeField, h, this]
  · have h' : lo ≤ i := by omega
    by_cases hi : i < 32
    · simp [placeField, h, h', hi]
    · simp [placeField, hi]

theorem getLsbD_placeBit (lo i : Nat) (v : Bool) :
    (placeBit lo v).getLsbD i = (decide (i < 32) && decide (i = lo) && v) := by
  by_cases h : i < lo
  · have : ¬ i = lo := by omega
    simp [placeBit, h, this]
  · by_cases hi : i < 32
    · by_cases he : i = lo
      · subst he; simp [placeBit, hi]
      · have : i - lo ≠ 0 := by omega
        simp [placeBit, h, hi, he, BitVec.getLsbD_ofBool, this]
    · simp [placeBit, hi]

theorem getLsbD_fieldAt (lo i : Nat) (w : Word) :
    (fieldAt lo w).getLsbD i = (decide (i < 5) && w.getLsbD (lo + i)) := by
  simp [fieldAt, BitVec.getLsbD_extractLsb']

/-- Two masks with no bit in common, at one bit. -/
theorem and_eq_zero_bit {x y : Word} (h : x &&& y = 0#32) (i : Nat) (hx : x.getLsbD i = true) : y.getLsbD i = false := by
  have := congrArg (fun z => z.getLsbD i) h
  simpa [hx] using this

theorem getLsbD_field_full (lo i : Nat) : (placeField lo 31#5).getLsbD i = (decide (i < 32) && decide (lo ≤ i ∧ i < lo + 5)) := by
  rw [getLsbD_placeField]
  by_cases h : lo ≤ i
  · obtain ⟨k, rfl⟩ := Nat.exists_eq_add_of_le h
    by_cases hk : k < 5
    · have : (31#5).getLsbD k = true := by interval_cases k <;> rfl
      simp [hk, this]
    · have : (31#5).getLsbD k = false := BitVec.getLsbD_of_ge _ _ (by omega)
      simp [hk, this]
  · have : ¬ (lo ≤ i ∧ i < lo + 5) := by omega
    simp [h]

/-! ## Format X-FCM and X-UDI (30_encoding R85, R87) -/

section threeFields
variable {base : Word} (hb : base &&& 0x03FFF800#32 = 0#32) (f1 f2 f3 : Field5)
include hb

theorem base_field_bit {i : Nat} (h1 : 11 ≤ i) (h2 : i < 26) : base.getLsbD i = false := by
  refine and_eq_zero_bit (x := 0x03FFF800#32) (by rw [BitVec.and_comm]; exact hb) i ?_
  interval_cases i <;> rfl

theorem fieldAt_threeFieldWord_21 : fieldAt 21 (threeFieldWord base f1 f2 f3) = f1 := by
  apply BitVec.eq_of_getLsbD_eq
  intro i hi
  have h0 := base_field_bit hb (i := 21 + i) (by omega) (by omega)
  have h2 : f2.getLsbD (21 + i - 16) = false := BitVec.getLsbD_of_ge _ _ (by omega)
  have h3 : f3.getLsbD (21 + i - 11) = false := BitVec.getLsbD_of_ge _ _ (by omega)
  have hi' : 21 + i < 32 := by omega
  rw [getLsbD_fieldAt, threeFieldWord]
  simp only [BitVec.getLsbD_or, getLsbD_placeField, h0, h2, h3, hi, hi', decide_true, Bool.and_false,
    Bool.true_and, Bool.or_false, Bool.false_or, Nat.add_sub_cancel_left, Nat.le_add_right]

theorem fieldAt_threeFieldWord_16 : fieldAt 16 (threeFieldWord base f1 f2 f3) = f2 := by
  apply BitVec.eq_of_getLsbD_eq
  intro i hi
  have h0 := base_field_bit hb (i := 16 + i) (by omega) (by omega)
  have h1 : ¬ 21 ≤ 16 + i := by omega
  have h3 : f3.getLsbD (16 + i - 11) = false := BitVec.getLsbD_of_ge _ _ (by omega)
  have hi' : 16 + i < 32 := by omega
  rw [getLsbD_fieldAt, threeFieldWord]
  simp only [BitVec.getLsbD_or, getLsbD_placeField, h0, h1, h3, hi, hi', decide_true, decide_false, Bool.and_false,
    Bool.false_and, Bool.true_and, Bool.or_false, Bool.false_or, Nat.add_sub_cancel_left, Nat.le_add_right]

theorem fieldAt_threeFieldWord_11 : fieldAt 11 (threeFieldWord base f1 f2 f3) = f3 := by
  apply BitVec.eq_of_getLsbD_eq
  intro i hi
  have h0 := base_field_bit hb (i := 11 + i) (by omega) (by omega)
  have h1 : ¬ 21 ≤ 11 + i := by omega
  have h2 : ¬ 16 ≤ 11 + i := by omega
  have hi' : 11 + i < 32 := by omega
  rw [getLsbD_fieldAt, threeFieldWord]
  simp only [BitVec.getLsbD_or, getLsbD_placeField, h0, h1, h2, hi, hi', decide_true, decide_false, Bool.and_false,
    Bool.false_and, Bool.true_and, Bool.or_false, Bool.false_or, Nat.add_sub_cancel_left, Nat.le_add_right]

omit hb in
/-- A mask outside the three fields sees only the base. -/
theorem threeFieldWord_and {m : Word} (hm : m &&& 0x03FFF800#32 = 0#32) :
    threeFieldWord base f1 f2 f3 &&& m = base &&& m := by
  apply BitVec.eq_of_getLsbD_eq
  intro i hi
  by_cases hf : 11 ≤ i ∧ i < 26
  · have : m.getLsbD i = false := base_field_bit hm hf.1 hf.2
    simp [this]
  · have h1 : (decide (21 ≤ i) && f1.getLsbD (i - 21)) = false := by
      by_cases h : 21 ≤ i
      · simp [BitVec.getLsbD_of_ge f1 (i - 21) (by omega)]
      · simp [h]
    have h2 : (decide (16 ≤ i) && f2.getLsbD (i - 16)) = false := by
      by_cases h : 16 ≤ i
      · simp [BitVec.getLsbD_of_ge f2 (i - 16) (by omega)]
      · simp [h]
    have h3 : (decide (11 ≤ i) && f3.getLsbD (i - 11)) = false := by
      by_cases h : 11 ≤ i
      · simp [BitVec.getLsbD_of_ge f3 (i - 11) (by omega)]
      · simp [h]
    simp only [threeFieldWord, BitVec.getLsbD_and, BitVec.getLsbD_or, getLsbD_placeField, Bool.and_assoc, h1, h2, h3,
      Bool.and_false, Bool.or_false]

end threeFields

/-! ## Format X-PUT (30_encoding R88) -/

theorem putWord_eq (n c : Bool) (rA fsl : Field5) :
    putWord n c rA fsl = threeFieldWord (putPattern ||| placeBit 6 n ||| placeBit 5 c) 0#5 rA fsl := by
  have h0 : placeField 21 0#5 = 0#32 := rfl
  have h (p a b n c : Word) : p ||| a ||| b ||| n ||| c = p ||| n ||| c ||| 0#32 ||| a ||| b := by
    rw [BitVec.or_zero]; ac_rfl
  unfold putWord threeFieldWord
  rw [h, ← h0]

/-! ## Bytes and words -/

/-- Memory's byte order put back together (20_memory R69). -/
theorem wordOfBytes_bytesOfWord (w : Word) :
    wordOfBytes (w.extractLsb' 24 8) (w.extractLsb' 16 8) (w.extractLsb' 8 8) (w.extractLsb' 0 8) = w := by
  have h1 : w.extractLsb' 24 8 ++ w.extractLsb' 16 8 = w.extractLsb' 16 16 := by
    rw [BitVec.extractLsb'_append_extractLsb'_eq_extractLsb' (by rfl)]
  have h2 : w.extractLsb' 16 16 ++ w.extractLsb' 8 8 = w.extractLsb' 8 24 := by
    rw [BitVec.extractLsb'_append_extractLsb'_eq_extractLsb' (by rfl)]
  have h3 : w.extractLsb' 8 24 ++ w.extractLsb' 0 8 = w.extractLsb' 0 32 := by
    rw [BitVec.extractLsb'_append_extractLsb'_eq_extractLsb' (by rfl)]
  rw [wordOfBytes, h1, h2, h3, BitVec.extractLsb'_eq_self]

theorem decode_bytesOfWord (e : GetEnc) (w : Word) (rest : List Byte) :
    decode e (bytesOfWord w ++ rest) =
      match decodeWord e w with
      | .ok i => .ok (i, rest)
      | .error r => .error r := by
  cases h : decodeWord e w <;> simp [bytesOfWord, decode, wordOfBytes_bytesOfWord, h]

end Sys2Proof
end

