-- ==== Sys2Proof/Laws/State.lean ====
section
/-! SUPPORT. For every named update of State, what each field is after it, and what the reading accessors give. -/

namespace Sys2Proof.Machine

variable (s : State)

/-! ## writeGpr -/

@[simp] theorem State.writeGpr_pc (r : Field5) (v : Word) : (s.writeGpr r v).pc = s.pc := rfl
@[simp] theorem State.writeGpr_xerCa (r : Field5) (v : Word) : (s.writeGpr r v).xerCa = s.xerCa := rfl
@[simp] theorem State.writeGpr_xerOv (r : Field5) (v : Word) : (s.writeGpr r v).xerOv = s.xerOv := rfl
@[simp] theorem State.writeGpr_xerRest (r : Field5) (v : Word) : (s.writeGpr r v).xerRest = s.xerRest := rfl
@[simp] theorem State.writeGpr_cr (r : Field5) (v : Word) : (s.writeGpr r v).cr = s.cr := rfl
@[simp] theorem State.writeGpr_priv (r : Field5) (v : Word) : (s.writeGpr r v).priv = s.priv := rfl
@[simp] theorem State.writeGpr_dataReloc (r : Field5) (v : Word) : (s.writeGpr r v).dataReloc = s.dataReloc := rfl
@[simp] theorem State.writeGpr_translation (r : Field5) (v : Word) : (s.writeGpr r v).translation = s.translation := rfl
@[simp] theorem State.writeGpr_mem (r : Field5) (v : Word) : (s.writeGpr r v).mem = s.mem := rfl
@[simp] theorem State.writeGpr_fcm (r : Field5) (v : Word) : (s.writeGpr r v).fcm = s.fcm := rfl
@[simp] theorem State.writeGpr_fcmData (r : Field5) (v : Word) : (s.writeGpr r v).fcmData = s.fcmData := rfl
@[simp] theorem State.writeGpr_fslIn (r : Field5) (v : Word) : (s.writeGpr r v).fslIn = s.fslIn := rfl
@[simp] theorem State.writeGpr_fslOut (r : Field5) (v : Word) : (s.writeGpr r v).fslOut = s.fslOut := rfl
@[simp] theorem State.writeGpr_fslFull (r : Field5) (v : Word) : (s.writeGpr r v).fslFull = s.fslFull := rfl
@[simp] theorem State.writeGpr_env (r : Field5) (v : Word) : (s.writeGpr r v).env = s.env := rfl
@[simp] theorem State.writeGpr_cfg (r : Field5) (v : Word) : (s.writeGpr r v).cfg = s.cfg := rfl
@[simp] theorem State.writeGpr_progBase (r : Field5) (v : Word) : (s.writeGpr r v).progBase = s.progBase := rfl
@[simp] theorem State.writeGpr_progLen (r : Field5) (v : Word) : (s.writeGpr r v).progLen = s.progLen := rfl
@[simp] theorem State.writeGpr_draws (r : Field5) (v : Word) : (s.writeGpr r v).draws = s.draws := rfl

/-! ## advance -/

@[simp] theorem State.advance_gpr : (s.advance).gpr = s.gpr := rfl
@[simp] theorem State.advance_pc : (s.advance).pc = s.pc + 4#32 := rfl
@[simp] theorem State.advance_xerCa : (s.advance).xerCa = s.xerCa := rfl
@[simp] theorem State.advance_xerOv : (s.advance).xerOv = s.xerOv := rfl
@[simp] theorem State.advance_xerRest : (s.advance).xerRest = s.xerRest := rfl
@[simp] theorem State.advance_cr : (s.advance).cr = s.cr := rfl
@[simp] theorem State.advance_priv : (s.advance).priv = s.priv := rfl
@[simp] theorem State.advance_dataReloc : (s.advance).dataReloc = s.dataReloc := rfl
@[simp] theorem State.advance_translation : (s.advance).translation = s.translation := rfl
@[simp] theorem State.advance_mem : (s.advance).mem = s.mem := rfl
@[simp] theorem State.advance_fcm : (s.advance).fcm = s.fcm := rfl
@[simp] theorem State.advance_fcmData : (s.advance).fcmData = s.fcmData := rfl
@[simp] theorem State.advance_fslIn : (s.advance).fslIn = s.fslIn := rfl
@[simp] theorem State.advance_fslOut : (s.advance).fslOut = s.fslOut := rfl
@[simp] theorem State.advance_fslFull : (s.advance).fslFull = s.fslFull := rfl
@[simp] theorem State.advance_env : (s.advance).env = s.env := rfl
@[simp] theorem State.advance_cfg : (s.advance).cfg = s.cfg := rfl
@[simp] theorem State.advance_progBase : (s.advance).progBase = s.progBase := rfl
@[simp] theorem State.advance_progLen : (s.advance).progLen = s.progLen := rfl
@[simp] theorem State.advance_draws : (s.advance).draws = s.draws := rfl

/-! ## setCa -/

@[simp] theorem State.setCa_gpr (v : Bool) : (s.setCa v).gpr = s.gpr := rfl
@[simp] theorem State.setCa_pc (v : Bool) : (s.setCa v).pc = s.pc := rfl
@[simp] theorem State.setCa_xerCa (v : Bool) : (s.setCa v).xerCa = v := rfl
@[simp] theorem State.setCa_xerOv (v : Bool) : (s.setCa v).xerOv = s.xerOv := rfl
@[simp] theorem State.setCa_xerRest (v : Bool) : (s.setCa v).xerRest = s.xerRest := rfl
@[simp] theorem State.setCa_cr (v : Bool) : (s.setCa v).cr = s.cr := rfl
@[simp] theorem State.setCa_priv (v : Bool) : (s.setCa v).priv = s.priv := rfl
@[simp] theorem State.setCa_dataReloc (v : Bool) : (s.setCa v).dataReloc = s.dataReloc := rfl
@[simp] theorem State.setCa_translation (v : Bool) : (s.setCa v).translation = s.translation := rfl
@[simp] theorem State.setCa_mem (v : Bool) : (s.setCa v).mem = s.mem := rfl
@[simp] theorem State.setCa_fcm (v : Bool) : (s.setCa v).fcm = s.fcm := rfl
@[simp] theorem State.setCa_fcmData (v : Bool) : (s.setCa v).fcmData = s.fcmData := rfl
@[simp] theorem State.setCa_fslIn (v : Bool) : (s.setCa v).fslIn = s.fslIn := rfl
@[simp] theorem State.setCa_fslOut (v : Bool) : (s.setCa v).fslOut = s.fslOut := rfl
@[simp] theorem State.setCa_fslFull (v : Bool) : (s.setCa v).fslFull = s.fslFull := rfl
@[simp] theorem State.setCa_env (v : Bool) : (s.setCa v).env = s.env := rfl
@[simp] theorem State.setCa_cfg (v : Bool) : (s.setCa v).cfg = s.cfg := rfl
@[simp] theorem State.setCa_progBase (v : Bool) : (s.setCa v).progBase = s.progBase := rfl
@[simp] theorem State.setCa_progLen (v : Bool) : (s.setCa v).progLen = s.progLen := rfl
@[simp] theorem State.setCa_draws (v : Bool) : (s.setCa v).draws = s.draws := rfl

/-! ## setOv -/

@[simp] theorem State.setOv_gpr (v : Bool) : (s.setOv v).gpr = s.gpr := rfl
@[simp] theorem State.setOv_pc (v : Bool) : (s.setOv v).pc = s.pc := rfl
@[simp] theorem State.setOv_xerCa (v : Bool) : (s.setOv v).xerCa = s.xerCa := rfl
@[simp] theorem State.setOv_xerOv (v : Bool) : (s.setOv v).xerOv = v := rfl
@[simp] theorem State.setOv_xerRest (v : Bool) : (s.setOv v).xerRest = s.xerRest := rfl
@[simp] theorem State.setOv_cr (v : Bool) : (s.setOv v).cr = s.cr := rfl
@[simp] theorem State.setOv_priv (v : Bool) : (s.setOv v).priv = s.priv := rfl
@[simp] theorem State.setOv_dataReloc (v : Bool) : (s.setOv v).dataReloc = s.dataReloc := rfl
@[simp] theorem State.setOv_translation (v : Bool) : (s.setOv v).translation = s.translation := rfl
@[simp] theorem State.setOv_mem (v : Bool) : (s.setOv v).mem = s.mem := rfl
@[simp] theorem State.setOv_fcm (v : Bool) : (s.setOv v).fcm = s.fcm := rfl
@[simp] theorem State.setOv_fcmData (v : Bool) : (s.setOv v).fcmData = s.fcmData := rfl
@[simp] theorem State.setOv_fslIn (v : Bool) : (s.setOv v).fslIn = s.fslIn := rfl
@[simp] theorem State.setOv_fslOut (v : Bool) : (s.setOv v).fslOut = s.fslOut := rfl
@[simp] theorem State.setOv_fslFull (v : Bool) : (s.setOv v).fslFull = s.fslFull := rfl
@[simp] theorem State.setOv_env (v : Bool) : (s.setOv v).env = s.env := rfl
@[simp] theorem State.setOv_cfg (v : Bool) : (s.setOv v).cfg = s.cfg := rfl
@[simp] theorem State.setOv_progBase (v : Bool) : (s.setOv v).progBase = s.progBase := rfl
@[simp] theorem State.setOv_progLen (v : Bool) : (s.setOv v).progLen = s.progLen := rfl
@[simp] theorem State.setOv_draws (v : Bool) : (s.setOv v).draws = s.draws := rfl

/-! ## setCr -/

@[simp] theorem State.setCr_gpr (v : BitVec 32) : (s.setCr v).gpr = s.gpr := rfl
@[simp] theorem State.setCr_pc (v : BitVec 32) : (s.setCr v).pc = s.pc := rfl
@[simp] theorem State.setCr_xerCa (v : BitVec 32) : (s.setCr v).xerCa = s.xerCa := rfl
@[simp] theorem State.setCr_xerOv (v : BitVec 32) : (s.setCr v).xerOv = s.xerOv := rfl
@[simp] theorem State.setCr_xerRest (v : BitVec 32) : (s.setCr v).xerRest = s.xerRest := rfl
@[simp] theorem State.setCr_cr (v : BitVec 32) : (s.setCr v).cr = v := rfl
@[simp] theorem State.setCr_priv (v : BitVec 32) : (s.setCr v).priv = s.priv := rfl
@[simp] theorem State.setCr_dataReloc (v : BitVec 32) : (s.setCr v).dataReloc = s.dataReloc := rfl
@[simp] theorem State.setCr_translation (v : BitVec 32) : (s.setCr v).translation = s.translation := rfl
@[simp] theorem State.setCr_mem (v : BitVec 32) : (s.setCr v).mem = s.mem := rfl
@[simp] theorem State.setCr_fcm (v : BitVec 32) : (s.setCr v).fcm = s.fcm := rfl
@[simp] theorem State.setCr_fcmData (v : BitVec 32) : (s.setCr v).fcmData = s.fcmData := rfl
@[simp] theorem State.setCr_fslIn (v : BitVec 32) : (s.setCr v).fslIn = s.fslIn := rfl
@[simp] theorem State.setCr_fslOut (v : BitVec 32) : (s.setCr v).fslOut = s.fslOut := rfl
@[simp] theorem State.setCr_fslFull (v : BitVec 32) : (s.setCr v).fslFull = s.fslFull := rfl
@[simp] theorem State.setCr_env (v : BitVec 32) : (s.setCr v).env = s.env := rfl
@[simp] theorem State.setCr_cfg (v : BitVec 32) : (s.setCr v).cfg = s.cfg := rfl
@[simp] theorem State.setCr_progBase (v : BitVec 32) : (s.setCr v).progBase = s.progBase := rfl
@[simp] theorem State.setCr_progLen (v : BitVec 32) : (s.setCr v).progLen = s.progLen := rfl
@[simp] theorem State.setCr_draws (v : BitVec 32) : (s.setCr v).draws = s.draws := rfl

/-! ## setFcm -/

@[simp] theorem State.setFcm_gpr (v : FcmState) : (s.setFcm v).gpr = s.gpr := rfl
@[simp] theorem State.setFcm_pc (v : FcmState) : (s.setFcm v).pc = s.pc := rfl
@[simp] theorem State.setFcm_xerCa (v : FcmState) : (s.setFcm v).xerCa = s.xerCa := rfl
@[simp] theorem State.setFcm_xerOv (v : FcmState) : (s.setFcm v).xerOv = s.xerOv := rfl
@[simp] theorem State.setFcm_xerRest (v : FcmState) : (s.setFcm v).xerRest = s.xerRest := rfl
@[simp] theorem State.setFcm_cr (v : FcmState) : (s.setFcm v).cr = s.cr := rfl
@[simp] theorem State.setFcm_priv (v : FcmState) : (s.setFcm v).priv = s.priv := rfl
@[simp] theorem State.setFcm_dataReloc (v : FcmState) : (s.setFcm v).dataReloc = s.dataReloc := rfl
@[simp] theorem State.setFcm_translation (v : FcmState) : (s.setFcm v).translation = s.translation := rfl
@[simp] theorem State.setFcm_mem (v : FcmState) : (s.setFcm v).mem = s.mem := rfl
@[simp] theorem State.setFcm_fcm (v : FcmState) : (s.setFcm v).fcm = v := rfl
@[simp] theorem State.setFcm_fcmData (v : FcmState) : (s.setFcm v).fcmData = s.fcmData := rfl
@[simp] theorem State.setFcm_fslIn (v : FcmState) : (s.setFcm v).fslIn = s.fslIn := rfl
@[simp] theorem State.setFcm_fslOut (v : FcmState) : (s.setFcm v).fslOut = s.fslOut := rfl
@[simp] theorem State.setFcm_fslFull (v : FcmState) : (s.setFcm v).fslFull = s.fslFull := rfl
@[simp] theorem State.setFcm_env (v : FcmState) : (s.setFcm v).env = s.env := rfl
@[simp] theorem State.setFcm_cfg (v : FcmState) : (s.setFcm v).cfg = s.cfg := rfl
@[simp] theorem State.setFcm_progBase (v : FcmState) : (s.setFcm v).progBase = s.progBase := rfl
@[simp] theorem State.setFcm_progLen (v : FcmState) : (s.setFcm v).progLen = s.progLen := rfl
@[simp] theorem State.setFcm_draws (v : FcmState) : (s.setFcm v).draws = s.draws := rfl

/-! ## setLatch -/

@[simp] theorem State.setLatch_gpr (v : Word) : (s.setLatch v).gpr = s.gpr := rfl
@[simp] theorem State.setLatch_pc (v : Word) : (s.setLatch v).pc = s.pc := rfl
@[simp] theorem State.setLatch_xerCa (v : Word) : (s.setLatch v).xerCa = s.xerCa := rfl
@[simp] theorem State.setLatch_xerOv (v : Word) : (s.setLatch v).xerOv = s.xerOv := rfl
@[simp] theorem State.setLatch_xerRest (v : Word) : (s.setLatch v).xerRest = s.xerRest := rfl
@[simp] theorem State.setLatch_cr (v : Word) : (s.setLatch v).cr = s.cr := rfl
@[simp] theorem State.setLatch_priv (v : Word) : (s.setLatch v).priv = s.priv := rfl
@[simp] theorem State.setLatch_dataReloc (v : Word) : (s.setLatch v).dataReloc = s.dataReloc := rfl
@[simp] theorem State.setLatch_translation (v : Word) : (s.setLatch v).translation = s.translation := rfl
@[simp] theorem State.setLatch_mem (v : Word) : (s.setLatch v).mem = s.mem := rfl
@[simp] theorem State.setLatch_fcm (v : Word) : (s.setLatch v).fcm = s.fcm := rfl
@[simp] theorem State.setLatch_fcmData (v : Word) : (s.setLatch v).fcmData = v := rfl
@[simp] theorem State.setLatch_fslIn (v : Word) : (s.setLatch v).fslIn = s.fslIn := rfl
@[simp] theorem State.setLatch_fslOut (v : Word) : (s.setLatch v).fslOut = s.fslOut := rfl
@[simp] theorem State.setLatch_fslFull (v : Word) : (s.setLatch v).fslFull = s.fslFull := rfl
@[simp] theorem State.setLatch_env (v : Word) : (s.setLatch v).env = s.env := rfl
@[simp] theorem State.setLatch_cfg (v : Word) : (s.setLatch v).cfg = s.cfg := rfl
@[simp] theorem State.setLatch_progBase (v : Word) : (s.setLatch v).progBase = s.progBase := rfl
@[simp] theorem State.setLatch_progLen (v : Word) : (s.setLatch v).progLen = s.progLen := rfl
@[simp] theorem State.setLatch_draws (v : Word) : (s.setLatch v).draws = s.draws := rfl

/-! ## drawn -/

@[simp] theorem State.drawn_gpr (n : Nat) : (s.drawn n).gpr = s.gpr := rfl
@[simp] theorem State.drawn_pc (n : Nat) : (s.drawn n).pc = s.pc := rfl
@[simp] theorem State.drawn_xerCa (n : Nat) : (s.drawn n).xerCa = s.xerCa := rfl
@[simp] theorem State.drawn_xerOv (n : Nat) : (s.drawn n).xerOv = s.xerOv := rfl
@[simp] theorem State.drawn_xerRest (n : Nat) : (s.drawn n).xerRest = s.xerRest := rfl
@[simp] theorem State.drawn_cr (n : Nat) : (s.drawn n).cr = s.cr := rfl
@[simp] theorem State.drawn_priv (n : Nat) : (s.drawn n).priv = s.priv := rfl
@[simp] theorem State.drawn_dataReloc (n : Nat) : (s.drawn n).dataReloc = s.dataReloc := rfl
@[simp] theorem State.drawn_translation (n : Nat) : (s.drawn n).translation = s.translation := rfl
@[simp] theorem State.drawn_mem (n : Nat) : (s.drawn n).mem = s.mem := rfl
@[simp] theorem State.drawn_fcm (n : Nat) : (s.drawn n).fcm = s.fcm := rfl
@[simp] theorem State.drawn_fcmData (n : Nat) : (s.drawn n).fcmData = s.fcmData := rfl
@[simp] theorem State.drawn_fslIn (n : Nat) : (s.drawn n).fslIn = s.fslIn := rfl
@[simp] theorem State.drawn_fslOut (n : Nat) : (s.drawn n).fslOut = s.fslOut := rfl
@[simp] theorem State.drawn_fslFull (n : Nat) : (s.drawn n).fslFull = s.fslFull := rfl
@[simp] theorem State.drawn_env (n : Nat) : (s.drawn n).env = s.env := rfl
@[simp] theorem State.drawn_cfg (n : Nat) : (s.drawn n).cfg = s.cfg := rfl
@[simp] theorem State.drawn_progBase (n : Nat) : (s.drawn n).progBase = s.progBase := rfl
@[simp] theorem State.drawn_progLen (n : Nat) : (s.drawn n).progLen = s.progLen := rfl
@[simp] theorem State.drawn_draws (n : Nat) : (s.drawn n).draws = s.draws + n := rfl

/-! ## setMem -/

@[simp] theorem State.setMem_gpr (m : Memory) : (s.setMem m).gpr = s.gpr := rfl
@[simp] theorem State.setMem_pc (m : Memory) : (s.setMem m).pc = s.pc := rfl
@[simp] theorem State.setMem_xerCa (m : Memory) : (s.setMem m).xerCa = s.xerCa := rfl
@[simp] theorem State.setMem_xerOv (m : Memory) : (s.setMem m).xerOv = s.xerOv := rfl
@[simp] theorem State.setMem_xerRest (m : Memory) : (s.setMem m).xerRest = s.xerRest := rfl
@[simp] theorem State.setMem_cr (m : Memory) : (s.setMem m).cr = s.cr := rfl
@[simp] theorem State.setMem_priv (m : Memory) : (s.setMem m).priv = s.priv := rfl
@[simp] theorem State.setMem_dataReloc (m : Memory) : (s.setMem m).dataReloc = s.dataReloc := rfl
@[simp] theorem State.setMem_translation (m : Memory) : (s.setMem m).translation = s.translation := rfl
@[simp] theorem State.setMem_mem (m : Memory) : (s.setMem m).mem = m := rfl
@[simp] theorem State.setMem_fcm (m : Memory) : (s.setMem m).fcm = s.fcm := rfl
@[simp] theorem State.setMem_fcmData (m : Memory) : (s.setMem m).fcmData = s.fcmData := rfl
@[simp] theorem State.setMem_fslIn (m : Memory) : (s.setMem m).fslIn = s.fslIn := rfl
@[simp] theorem State.setMem_fslOut (m : Memory) : (s.setMem m).fslOut = s.fslOut := rfl
@[simp] theorem State.setMem_fslFull (m : Memory) : (s.setMem m).fslFull = s.fslFull := rfl
@[simp] theorem State.setMem_env (m : Memory) : (s.setMem m).env = s.env := rfl
@[simp] theorem State.setMem_cfg (m : Memory) : (s.setMem m).cfg = s.cfg := rfl
@[simp] theorem State.setMem_progBase (m : Memory) : (s.setMem m).progBase = s.progBase := rfl
@[simp] theorem State.setMem_progLen (m : Memory) : (s.setMem m).progLen = s.progLen := rfl
@[simp] theorem State.setMem_draws (m : Memory) : (s.setMem m).draws = s.draws := rfl

/-! ## setInQueue -/

@[simp] theorem State.setInQueue_gpr (x : Field5) (q : List FslWord) : (s.setInQueue x q).gpr = s.gpr := rfl
@[simp] theorem State.setInQueue_pc (x : Field5) (q : List FslWord) : (s.setInQueue x q).pc = s.pc := rfl
@[simp] theorem State.setInQueue_xerCa (x : Field5) (q : List FslWord) : (s.setInQueue x q).xerCa = s.xerCa := rfl
@[simp] theorem State.setInQueue_xerOv (x : Field5) (q : List FslWord) : (s.setInQueue x q).xerOv = s.xerOv := rfl
@[simp] theorem State.setInQueue_xerRest (x : Field5) (q : List FslWord) : (s.setInQueue x q).xerRest = s.xerRest := rfl
@[simp] theorem State.setInQueue_cr (x : Field5) (q : List FslWord) : (s.setInQueue x q).cr = s.cr := rfl
@[simp] theorem State.setInQueue_priv (x : Field5) (q : List FslWord) : (s.setInQueue x q).priv = s.priv := rfl
@[simp] theorem State.setInQueue_dataReloc (x : Field5) (q : List FslWord) : (s.setInQueue x q).dataReloc = s.dataReloc := rfl
@[simp] theorem State.setInQueue_translation (x : Field5) (q : List FslWord) : (s.setInQueue x q).translation = s.translation := rfl
@[simp] theorem State.setInQueue_mem (x : Field5) (q : List FslWord) : (s.setInQueue x q).mem = s.mem := rfl
@[simp] theorem State.setInQueue_fcm (x : Field5) (q : List FslWord) : (s.setInQueue x q).fcm = s.fcm := rfl
@[simp] theorem State.setInQueue_fcmData (x : Field5) (q : List FslWord) : (s.setInQueue x q).fcmData = s.fcmData := rfl
@[simp] theorem State.setInQueue_fslOut (x : Field5) (q : List FslWord) : (s.setInQueue x q).fslOut = s.fslOut := rfl
@[simp] theorem State.setInQueue_fslFull (x : Field5) (q : List FslWord) : (s.setInQueue x q).fslFull = s.fslFull := rfl
@[simp] theorem State.setInQueue_env (x : Field5) (q : List FslWord) : (s.setInQueue x q).env = s.env := rfl
@[simp] theorem State.setInQueue_cfg (x : Field5) (q : List FslWord) : (s.setInQueue x q).cfg = s.cfg := rfl
@[simp] theorem State.setInQueue_progBase (x : Field5) (q : List FslWord) : (s.setInQueue x q).progBase = s.progBase := rfl
@[simp] theorem State.setInQueue_progLen (x : Field5) (q : List FslWord) : (s.setInQueue x q).progLen = s.progLen := rfl
@[simp] theorem State.setInQueue_draws (x : Field5) (q : List FslWord) : (s.setInQueue x q).draws = s.draws := rfl

/-! ## setOutQueue -/

@[simp] theorem State.setOutQueue_gpr (x : Field5) (q : List FslWord) : (s.setOutQueue x q).gpr = s.gpr := rfl
@[simp] theorem State.setOutQueue_pc (x : Field5) (q : List FslWord) : (s.setOutQueue x q).pc = s.pc := rfl
@[simp] theorem State.setOutQueue_xerCa (x : Field5) (q : List FslWord) : (s.setOutQueue x q).xerCa = s.xerCa := rfl
@[simp] theorem State.setOutQueue_xerOv (x : Field5) (q : List FslWord) : (s.setOutQueue x q).xerOv = s.xerOv := rfl
@[simp] theorem State.setOutQueue_xerRest (x : Field5) (q : List FslWord) : (s.setOutQueue x q).xerRest = s.xerRest := rfl
@[simp] theorem State.setOutQueue_cr (x : Field5) (q : List FslWord) : (s.setOutQueue x q).cr = s.cr := rfl
@[simp] theorem State.setOutQueue_priv (x : Field5) (q : List FslWord) : (s.setOutQueue x q).priv = s.priv := rfl
@[simp] theorem State.setOutQueue_dataReloc (x : Field5) (q : List FslWord) : (s.setOutQueue x q).dataReloc = s.dataReloc := rfl
@[simp] theorem State.setOutQueue_translation (x : Field5) (q : List FslWord) : (s.setOutQueue x q).translation = s.translation := rfl
@[simp] theorem State.setOutQueue_mem (x : Field5) (q : List FslWord) : (s.setOutQueue x q).mem = s.mem := rfl
@[simp] theorem State.setOutQueue_fcm (x : Field5) (q : List FslWord) : (s.setOutQueue x q).fcm = s.fcm := rfl
@[simp] theorem State.setOutQueue_fcmData (x : Field5) (q : List FslWord) : (s.setOutQueue x q).fcmData = s.fcmData := rfl
@[simp] theorem State.setOutQueue_fslIn (x : Field5) (q : List FslWord) : (s.setOutQueue x q).fslIn = s.fslIn := rfl
@[simp] theorem State.setOutQueue_fslFull (x : Field5) (q : List FslWord) : (s.setOutQueue x q).fslFull = s.fslFull := rfl
@[simp] theorem State.setOutQueue_env (x : Field5) (q : List FslWord) : (s.setOutQueue x q).env = s.env := rfl
@[simp] theorem State.setOutQueue_cfg (x : Field5) (q : List FslWord) : (s.setOutQueue x q).cfg = s.cfg := rfl
@[simp] theorem State.setOutQueue_progBase (x : Field5) (q : List FslWord) : (s.setOutQueue x q).progBase = s.progBase := rfl
@[simp] theorem State.setOutQueue_progLen (x : Field5) (q : List FslWord) : (s.setOutQueue x q).progLen = s.progLen := rfl
@[simp] theorem State.setOutQueue_draws (x : Field5) (q : List FslWord) : (s.setOutQueue x q).draws = s.draws := rfl

/-! ## setFull -/

@[simp] theorem State.setFull_gpr (x : Field5) (v : Bool) : (s.setFull x v).gpr = s.gpr := rfl
@[simp] theorem State.setFull_pc (x : Field5) (v : Bool) : (s.setFull x v).pc = s.pc := rfl
@[simp] theorem State.setFull_xerCa (x : Field5) (v : Bool) : (s.setFull x v).xerCa = s.xerCa := rfl
@[simp] theorem State.setFull_xerOv (x : Field5) (v : Bool) : (s.setFull x v).xerOv = s.xerOv := rfl
@[simp] theorem State.setFull_xerRest (x : Field5) (v : Bool) : (s.setFull x v).xerRest = s.xerRest := rfl
@[simp] theorem State.setFull_cr (x : Field5) (v : Bool) : (s.setFull x v).cr = s.cr := rfl
@[simp] theorem State.setFull_priv (x : Field5) (v : Bool) : (s.setFull x v).priv = s.priv := rfl
@[simp] theorem State.setFull_dataReloc (x : Field5) (v : Bool) : (s.setFull x v).dataReloc = s.dataReloc := rfl
@[simp] theorem State.setFull_translation (x : Field5) (v : Bool) : (s.setFull x v).translation = s.translation := rfl
@[simp] theorem State.setFull_mem (x : Field5) (v : Bool) : (s.setFull x v).mem = s.mem := rfl
@[simp] theorem State.setFull_fcm (x : Field5) (v : Bool) : (s.setFull x v).fcm = s.fcm := rfl
@[simp] theorem State.setFull_fcmData (x : Field5) (v : Bool) : (s.setFull x v).fcmData = s.fcmData := rfl
@[simp] theorem State.setFull_fslIn (x : Field5) (v : Bool) : (s.setFull x v).fslIn = s.fslIn := rfl
@[simp] theorem State.setFull_fslOut (x : Field5) (v : Bool) : (s.setFull x v).fslOut = s.fslOut := rfl
@[simp] theorem State.setFull_env (x : Field5) (v : Bool) : (s.setFull x v).env = s.env := rfl
@[simp] theorem State.setFull_cfg (x : Field5) (v : Bool) : (s.setFull x v).cfg = s.cfg := rfl
@[simp] theorem State.setFull_progBase (x : Field5) (v : Bool) : (s.setFull x v).progBase = s.progBase := rfl
@[simp] theorem State.setFull_progLen (x : Field5) (v : Bool) : (s.setFull x v).progLen = s.progLen := rfl
@[simp] theorem State.setFull_draws (x : Field5) (v : Bool) : (s.setFull x v).draws = s.draws := rfl

/-! ## Reading after an update -/

theorem State.readGpr_congr {s t : State} (h : t.gpr = s.gpr) (r : Field5) : t.readGpr r = s.readGpr r := by
  simp [State.readGpr, h]

theorem State.inQueue_congr {s t : State} (h : t.fslIn = s.fslIn) (x : Field5) : t.inQueue x = s.inQueue x := by
  simp [State.inQueue, h]

theorem State.outQueue_congr {s t : State} (h : t.fslOut = s.fslOut) (x : Field5) : t.outQueue x = s.outQueue x := by
  simp [State.outQueue, h]

@[simp] theorem State.readGpr_writeGpr_same (r : Field5) (v : Word) : (s.writeGpr r v).readGpr r = v := by
  simp [State.readGpr, State.writeGpr]

theorem State.readGpr_writeGpr_other {r q : Field5} (h : q ≠ r) (v : Word) :
    (s.writeGpr r v).readGpr q = s.readGpr q := by
  have : r.toNat ≠ q.toNat := fun e => h (BitVec.eq_of_toNat_eq e).symm
  simp [State.readGpr, State.writeGpr, this]

theorem State.readGpr_writeGpr (r q : Field5) (v : Word) :
    (s.writeGpr r v).readGpr q = if q = r then v else s.readGpr q := by
  split
  · next h => subst h; exact State.readGpr_writeGpr_same s q v
  · next h => exact State.readGpr_writeGpr_other s h v

@[simp] theorem State.inQueue_setInQueue_same (x : Field5) (q : List FslWord) : (s.setInQueue x q).inQueue x = q := by
  simp [State.inQueue, State.setInQueue]

theorem State.inQueue_setInQueue_other {x y : Field5} (h : y ≠ x) (q : List FslWord) :
    (s.setInQueue x q).inQueue y = s.inQueue y := by
  have : x.toNat ≠ y.toNat := fun e => h (BitVec.eq_of_toNat_eq e).symm
  simp [State.inQueue, State.setInQueue, this]

theorem State.inQueue_setInQueue (x y : Field5) (q : List FslWord) :
    (s.setInQueue x q).inQueue y = if y = x then q else s.inQueue y := by
  split
  · next h => subst h; exact State.inQueue_setInQueue_same s y q
  · next h => exact State.inQueue_setInQueue_other s h q

@[simp] theorem State.outQueue_setOutQueue_same (x : Field5) (q : List FslWord) :
    (s.setOutQueue x q).outQueue x = q := by
  simp [State.outQueue, State.setOutQueue]

theorem State.outQueue_setOutQueue_other {x y : Field5} (h : y ≠ x) (q : List FslWord) :
    (s.setOutQueue x q).outQueue y = s.outQueue y := by
  have : x.toNat ≠ y.toNat := fun e => h (BitVec.eq_of_toNat_eq e).symm
  simp [State.outQueue, State.setOutQueue, this]

theorem State.outQueue_setOutQueue (x y : Field5) (q : List FslWord) :
    (s.setOutQueue x q).outQueue y = if y = x then q else s.outQueue y := by
  split
  · next h => subst h; exact State.outQueue_setOutQueue_same s y q
  · next h => exact State.outQueue_setOutQueue_other s h q

@[simp] theorem State.isFull_setFull_same (x : Field5) (v : Bool) : (s.setFull x v).isFull x = v := by
  simp [State.isFull, State.setFull]

theorem State.isFull_setFull_other {x y : Field5} (h : y ≠ x) (v : Bool) : (s.setFull x v).isFull y = s.isFull y := by
  have : x.toNat ≠ y.toNat := fun e => h (BitVec.eq_of_toNat_eq e).symm
  simp [State.isFull, State.setFull, this]

@[simp] theorem State.advance_readGpr (k : Field5) : (s.advance).readGpr k = s.readGpr k := rfl
@[simp] theorem State.setCa_readGpr (v : Bool) (k : Field5) : (s.setCa v).readGpr k = s.readGpr k := rfl
@[simp] theorem State.setOv_readGpr (v : Bool) (k : Field5) : (s.setOv v).readGpr k = s.readGpr k := rfl
@[simp] theorem State.setCr_readGpr (v : BitVec 32) (k : Field5) : (s.setCr v).readGpr k = s.readGpr k := rfl
@[simp] theorem State.setFcm_readGpr (v : FcmState) (k : Field5) : (s.setFcm v).readGpr k = s.readGpr k := rfl
@[simp] theorem State.setLatch_readGpr (v : Word) (k : Field5) : (s.setLatch v).readGpr k = s.readGpr k := rfl
@[simp] theorem State.drawn_readGpr (n : Nat) (k : Field5) : (s.drawn n).readGpr k = s.readGpr k := rfl
@[simp] theorem State.setMem_readGpr (m : Memory) (k : Field5) : (s.setMem m).readGpr k = s.readGpr k := rfl
@[simp] theorem State.setInQueue_readGpr (x : Field5) (q : List FslWord) (k : Field5) : (s.setInQueue x q).readGpr k = s.readGpr k := rfl
@[simp] theorem State.setOutQueue_readGpr (x : Field5) (q : List FslWord) (k : Field5) : (s.setOutQueue x q).readGpr k = s.readGpr k := rfl
@[simp] theorem State.setFull_readGpr (x : Field5) (v : Bool) (k : Field5) : (s.setFull x v).readGpr k = s.readGpr k := rfl
@[simp] theorem State.writeGpr_inQueue (r : Field5) (v : Word) (k : Field5) : (s.writeGpr r v).inQueue k = s.inQueue k := rfl
@[simp] theorem State.advance_inQueue (k : Field5) : (s.advance).inQueue k = s.inQueue k := rfl
@[simp] theorem State.setCa_inQueue (v : Bool) (k : Field5) : (s.setCa v).inQueue k = s.inQueue k := rfl
@[simp] theorem State.setOv_inQueue (v : Bool) (k : Field5) : (s.setOv v).inQueue k = s.inQueue k := rfl
@[simp] theorem State.setCr_inQueue (v : BitVec 32) (k : Field5) : (s.setCr v).inQueue k = s.inQueue k := rfl
@[simp] theorem State.setFcm_inQueue (v : FcmState) (k : Field5) : (s.setFcm v).inQueue k = s.inQueue k := rfl
@[simp] theorem State.setLatch_inQueue (v : Word) (k : Field5) : (s.setLatch v).inQueue k = s.inQueue k := rfl
@[simp] theorem State.drawn_inQueue (n : Nat) (k : Field5) : (s.drawn n).inQueue k = s.inQueue k := rfl
@[simp] theorem State.setMem_inQueue (m : Memory) (k : Field5) : (s.setMem m).inQueue k = s.inQueue k := rfl
@[simp] theorem State.setOutQueue_inQueue (x : Field5) (q : List FslWord) (k : Field5) : (s.setOutQueue x q).inQueue k = s.inQueue k := rfl
@[simp] theorem State.setFull_inQueue (x : Field5) (v : Bool) (k : Field5) : (s.setFull x v).inQueue k = s.inQueue k := rfl
@[simp] theorem State.writeGpr_outQueue (r : Field5) (v : Word) (k : Field5) : (s.writeGpr r v).outQueue k = s.outQueue k := rfl
@[simp] theorem State.advance_outQueue (k : Field5) : (s.advance).outQueue k = s.outQueue k := rfl
@[simp] theorem State.setCa_outQueue (v : Bool) (k : Field5) : (s.setCa v).outQueue k = s.outQueue k := rfl
@[simp] theorem State.setOv_outQueue (v : Bool) (k : Field5) : (s.setOv v).outQueue k = s.outQueue k := rfl
@[simp] theorem State.setCr_outQueue (v : BitVec 32) (k : Field5) : (s.setCr v).outQueue k = s.outQueue k := rfl
@[simp] theorem State.setFcm_outQueue (v : FcmState) (k : Field5) : (s.setFcm v).outQueue k = s.outQueue k := rfl
@[simp] theorem State.setLatch_outQueue (v : Word) (k : Field5) : (s.setLatch v).outQueue k = s.outQueue k := rfl
@[simp] theorem State.drawn_outQueue (n : Nat) (k : Field5) : (s.drawn n).outQueue k = s.outQueue k := rfl
@[simp] theorem State.setMem_outQueue (m : Memory) (k : Field5) : (s.setMem m).outQueue k = s.outQueue k := rfl
@[simp] theorem State.setInQueue_outQueue (x : Field5) (q : List FslWord) (k : Field5) : (s.setInQueue x q).outQueue k = s.outQueue k := rfl
@[simp] theorem State.setFull_outQueue (x : Field5) (v : Bool) (k : Field5) : (s.setFull x v).outQueue k = s.outQueue k := rfl
@[simp] theorem State.writeGpr_isFull (r : Field5) (v : Word) (k : Field5) : (s.writeGpr r v).isFull k = s.isFull k := rfl
@[simp] theorem State.advance_isFull (k : Field5) : (s.advance).isFull k = s.isFull k := rfl
@[simp] theorem State.setCa_isFull (v : Bool) (k : Field5) : (s.setCa v).isFull k = s.isFull k := rfl
@[simp] theorem State.setOv_isFull (v : Bool) (k : Field5) : (s.setOv v).isFull k = s.isFull k := rfl
@[simp] theorem State.setCr_isFull (v : BitVec 32) (k : Field5) : (s.setCr v).isFull k = s.isFull k := rfl
@[simp] theorem State.setFcm_isFull (v : FcmState) (k : Field5) : (s.setFcm v).isFull k = s.isFull k := rfl
@[simp] theorem State.setLatch_isFull (v : Word) (k : Field5) : (s.setLatch v).isFull k = s.isFull k := rfl
@[simp] theorem State.drawn_isFull (n : Nat) (k : Field5) : (s.drawn n).isFull k = s.isFull k := rfl
@[simp] theorem State.setMem_isFull (m : Memory) (k : Field5) : (s.setMem m).isFull k = s.isFull k := rfl
@[simp] theorem State.setInQueue_isFull (x : Field5) (q : List FslWord) (k : Field5) : (s.setInQueue x q).isFull k = s.isFull k := rfl
@[simp] theorem State.setOutQueue_isFull (x : Field5) (q : List FslWord) (k : Field5) : (s.setOutQueue x q).isFull k = s.isFull k := rfl

@[simp] theorem State.advance_hasFsl (x : Field5) : s.advance.hasFsl x = s.hasFsl x := rfl

end Sys2Proof.Machine
end

