-- ==== Sys2Proof/Laws/Memory.lean ====
section
/-! SUPPORT. The laws of memory: reading after writing, the canonical form, and the big-endian accesses built on them. -/

namespace Sys2Proof.Machine

/-! ## One cell -/

theorem Memory.lookupCell_putCell (a b : Nat) (v : Byte) : ∀ (l : List Host.Cell) (lo : Nat),
    Memory.cellsWf lo l = true →
    Memory.lookupCell (Memory.putCell l a v) b = if b = a then v else Memory.lookupCell l b
  | [], _, _ => by
    by_cases hb : b = a
    · by_cases hv : v = Memory.unlistedByte <;> simp [Memory.putCell, Memory.lookupCell, hv, hb]
    · have : a ≠ b := fun e => hb e.symm
      by_cases hv : v = Memory.unlistedByte <;> simp [Memory.putCell, Memory.lookupCell, hv, hb, this]
  | (k, u) :: rest, lo, h => by
    simp only [Memory.cellsWf, Bool.and_eq_true, decide_eq_true_eq] at h
    obtain ⟨⟨⟨_, _⟩, _⟩, hr⟩ := h
    have absent : ∀ (l : List Host.Cell) (m c : Nat), Memory.cellsWf m l = true → c < m →
        Memory.lookupCell l c = Memory.unlistedByte := by
      intro l
      induction l with
      | nil => intros; rfl
      | cons p t ih =>
        intro m c hm hc
        simp only [Memory.cellsWf, Bool.and_eq_true, decide_eq_true_eq] at hm
        have : p.1 ≠ c := by omega
        simp only [Memory.lookupCell, this, if_false]
        exact ih (p.1 + 1) c hm.2 (by omega)
    have ih := Memory.lookupCell_putCell a b v rest (k + 1) hr
    simp only [Memory.putCell]
    split
    · next hlt =>
      split
      · next hv =>
        by_cases hb : b = a
        · subst hb
          have : k ≠ b := by omega
          simp [Memory.lookupCell, this, absent rest (k + 1) b hr (by omega), hv]
        · simp [hb]
      · by_cases hb : b = a
        · simp [Memory.lookupCell, hb]
        · have : a ≠ b := fun e => hb e.symm
          simp [Memory.lookupCell, hb, this]
    · next hge =>
      split
      · next heq =>
        subst heq
        split
        · next hv =>
          by_cases hb : b = a
          · subst hb; simp [absent rest (b + 1) b hr (by omega), hv]
          · have : a ≠ b := fun e => hb e.symm
            simp [Memory.lookupCell, hb, this]
        · by_cases hb : b = a
          · simp [Memory.lookupCell, hb]
          · have : a ≠ b := fun e => hb e.symm
            simp [Memory.lookupCell, hb, this]
      · next hne =>
        by_cases hk : k = b
        · have : b ≠ a := by omega
          simp [Memory.lookupCell, hk, this]
        · simp only [Memory.lookupCell, hk, if_false]; exact ih

theorem Memory.cellsWf_mono : ∀ (l : List Host.Cell) (m n : Nat), m ≤ n → Memory.cellsWf n l = true →
    Memory.cellsWf m l = true
  | [], _, _, _, _ => rfl
  | (k, u) :: rest, m, n, hmn, h => by
    simp only [Memory.cellsWf, Bool.and_eq_true, decide_eq_true_eq] at h ⊢
    exact ⟨⟨⟨by omega, h.1.1.2⟩, h.1.2⟩, h.2⟩

theorem Memory.cellsWf_putCell (a : Nat) (v : Byte) (ha : a < 4294967296) : ∀ (l : List Host.Cell) (lo : Nat),
    lo ≤ a → Memory.cellsWf lo l = true → Memory.cellsWf lo (Memory.putCell l a v) = true
  | [], lo, hlo, _ => by
    by_cases hv : v = Memory.unlistedByte <;> simp [Memory.putCell, Memory.cellsWf, hv, hlo, ha]
  | (k, u) :: rest, lo, hlo, h => by
    have h' := h
    simp only [Memory.cellsWf, Bool.and_eq_true, decide_eq_true_eq] at h'
    obtain ⟨⟨⟨h1, h2⟩, h3⟩, hr⟩ := h'
    simp only [Memory.putCell]
    split
    · next hlt =>
      split
      · exact h
      · next hv =>
        simp only [Memory.cellsWf, Bool.and_eq_true, decide_eq_true_eq]
        exact ⟨⟨⟨hlo, ha⟩, by simpa using hv⟩, ⟨⟨⟨by omega, h2⟩, h3⟩, hr⟩⟩
    · split
      · next heq =>
        subst heq
        split
        · exact Memory.cellsWf_mono rest lo (a + 1) (by omega) hr
        · next hv =>
          simp only [Memory.cellsWf, Bool.and_eq_true, decide_eq_true_eq]
          exact ⟨⟨⟨hlo, ha⟩, by simpa using hv⟩, hr⟩
      · next hlt hne =>
        simp only [Memory.cellsWf, Bool.and_eq_true, decide_eq_true_eq]
        exact ⟨⟨⟨h1, h2⟩, h3⟩, Memory.cellsWf_putCell a v ha rest (k + 1) (by omega) hr⟩

/-! ## One byte -/

theorem Memory.read_write (m : Memory) (h : m.wf = true) (a b : Word) (v : Byte) :
    (m.write a v).read b = if b = a then v else m.read b := by
  have := Memory.lookupCell_putCell a.toNat b.toNat v m.cells 0 h
  simpa [Memory.read, Memory.write, BitVec.toNat_inj] using this

theorem Memory.wf_write (m : Memory) (h : m.wf = true) (a : Word) (v : Byte) : (m.write a v).wf = true :=
  Memory.cellsWf_putCell a.toNat v a.isLt m.cells 0 (Nat.zero_le _) h

/-! ## Accesses of n bytes -/

theorem Memory.wf_writeBytes (m : Memory) (h : m.wf = true) (ra : Word) : ∀ (n : Nat) (v : Word),
    (m.writeBytes ra v n).wf = true
  | 0, _ => h
  | n + 1, v => Memory.wf_write _ (Memory.wf_writeBytes m h ra n (v >>> 8)) _ _

/-- A write of `n` bytes leaves every other address as it was. -/
theorem Memory.read_writeBytes_other (m : Memory) (h : m.wf = true) (ra a : Word) : ∀ (n : Nat) (v : Word),
    (∀ k < n, a ≠ ra + BitVec.ofNat 32 k) → (m.writeBytes ra v n).read a = m.read a
  | 0, _, _ => rfl
  | n + 1, v, ho => by
    have hw := Memory.wf_writeBytes m h ra n (v >>> 8)
    simp only [Memory.writeBytes]
    rw [Memory.read_write _ hw, if_neg (ho n (by omega))]
    exact Memory.read_writeBytes_other m h ra a n (v >>> 8) (fun k hk => ho k (by omega))

theorem Memory.readBytes_congr (m m' : Memory) (ra : Word) : ∀ (n : Nat),
    (∀ k < n, m'.read (ra + BitVec.ofNat 32 k) = m.read (ra + BitVec.ofNat 32 k)) →
    m'.readBytes ra n = m.readBytes ra n
  | 0, _ => rfl
  | n + 1, h => by
    simp only [Memory.readBytes]
    rw [Memory.readBytes_congr m m' ra n (fun k hk => h k (by omega)), h n (by omega)]

/-- Two of the first 2^32 addresses from `ra` up are equal only if their offsets are. -/
theorem offset_inj (ra : Word) {j k : Nat} (hj : j < 4294967296) (hk : k < 4294967296)
    (h : ra + BitVec.ofNat 32 j = ra + BitVec.ofNat 32 k) : j = k := by
  have h' := congrArg BitVec.toNat h
  simp only [BitVec.toNat_add, BitVec.toNat_ofNat] at h'
  have := ra.isLt
  omega

/-- A read of `n` bytes after a write of the same `n` bytes gives their value (20_memory R51, R64). -/
theorem Memory.readBytes_writeBytes (m : Memory) (h : m.wf = true) (ra : Word) : ∀ (n : Nat) (v : Word), n ≤ 4 →
    (m.writeBytes ra v n).readBytes ra n = v &&& BitVec.ofNat 32 (2 ^ (8 * n) - 1)
  | 0, v, _ => by simp [Memory.readBytes]
  | n + 1, v, hn => by
    have hw := Memory.wf_writeBytes m h ra n (v >>> 8)
    have ih := Memory.readBytes_writeBytes m h ra n (v >>> 8) (by omega)
    have hc : ((m.writeBytes ra (v >>> 8) n).write (ra + BitVec.ofNat 32 n) (v.setWidth 8)).readBytes ra n =
        (m.writeBytes ra (v >>> 8) n).readBytes ra n := by
      apply Memory.readBytes_congr
      intro k hk
      rw [Memory.read_write _ hw, if_neg]
      exact fun e => by have := offset_inj ra (by omega) (by omega) e; omega
    simp only [Memory.readBytes, Memory.writeBytes]
    rw [hc, ih, Memory.read_write _ hw, if_pos rfl]
    have : n = 0 ∨ n = 1 ∨ n = 2 ∨ n = 3 := by omega
    apply BitVec.eq_of_getLsbD_eq
    intro i hi
    rcases this with rfl | rfl | rfl | rfl <;>
      simp [BitVec.getLsbD_or, BitVec.getLsbD_shiftLeft, BitVec.getLsbD_and, BitVec.getLsbD_setWidth] <;>
      interval_cases i <;> simp

end Sys2Proof.Machine
end

