-- ==== Sys2Proof/Laws/Exec.lean ====
section
/-! SUPPORT. For each shared operation, what it can answer, said once; and `exec` as one form per class. -/

namespace Sys2Proof.Machine

/-- The form of each class of instructions. -/
def execClass (c : InstrClass) (s : State) : Host.Outcome State Fault Refusal :=
  match c with
  | .get n c rD fsl => getForm n c rD fsl s
  | .put n c rA fsl => putForm n c rA fsl s
  | .udi n rcn t a b => udiForm n rcn t a b s
  | .load kind update f rA rB => loadForm kind update f rA rB s
  | .store kind update f rA rB => storeForm kind update f rA rB s

/-- Each instruction is the form of its class. -/
theorem exec_eq_execClass (i : Instr) (s : State) : exec i s = execClass (classOf i) s := by cases i <;> rfl

/-! ## FSL transfers -/

/-- The checks before a transfer let it through only in privileged mode, with the class forwarded and the link there. -/
theorem fslChecked_next {fsl : Field5} {s t : State} {r : Host.Outcome State Fault Refusal}
    (h : fslChecked fsl s r = .next t) :
    s.priv = .privileged ∧ s.cfg.apu.fsl = true ∧ s.hasFsl fsl = true ∧ r = .next t := by
  unfold fslChecked at h
  split at h
  · cases h
  · next hp =>
    split at h
    · cases h
    · split at h
      · cases h
      · next h1 h2 => exact ⟨hp, by simpa using h1, by simpa using h2, h⟩

/-- A transfer that passes the checks. -/
theorem fslChecked_pass {fsl : Field5} {s : State} (hp : s.priv = .privileged) (ha : s.cfg.apu.fsl = true)
    (hf : s.hasFsl fsl = true) (r : Host.Outcome State Fault Refusal) : fslChecked fsl s r = r := by
  simp [fslChecked, hp, ha, hf]

/-- A get form that answers a next state found a word, or was non-blocking and found none, or stalled. -/
theorem getForm_next {n c : Bool} {rD fsl : Field5} {s t : State} (h : getForm n c rD fsl s = .next t) :
    s.priv = .privileged ∧ s.cfg.apu.fsl = true ∧ s.hasFsl fsl = true ∧
      ((∃ w rest, s.inQueue fsl = w :: rest ∧ t = getPresent n c rD fsl w rest s) ∨
        (s.inQueue fsl = [] ∧ n = true ∧ t = getAbsent rD s) ∨ (s.inQueue fsl = [] ∧ n = false ∧ t = s)) := by
  obtain ⟨hp, ha, hf, h⟩ := fslChecked_next h
  refine ⟨hp, ha, hf, ?_⟩
  split at h
  · next w rest hq => cases h; exact .inl ⟨w, rest, hq, rfl⟩
  · next hq =>
    split at h
    · next hn => cases h; exact .inr (.inl ⟨hq, hn, rfl⟩)
    · next hn => cases h; exact .inr (.inr ⟨hq, by simpa using hn, rfl⟩)

/-- A put form that answers a next state found space, or was non-blocking and found none, or stalled. -/
theorem putForm_next {n c : Bool} {rA fsl : Field5} {s t : State} (h : putForm n c rA fsl s = .next t) :
    s.priv = .privileged ∧ s.cfg.apu.fsl = true ∧ s.hasFsl fsl = true ∧
      ((s.isFull fsl = false ∧ t = putAccepted n c rA fsl s) ∨
        (s.isFull fsl = true ∧ n = true ∧ t = (s.setCa (caOfPut true)).advance) ∨
        (s.isFull fsl = true ∧ n = false ∧ t = s)) := by
  obtain ⟨hp, ha, hf, h⟩ := fslChecked_next h
  refine ⟨hp, ha, hf, ?_⟩
  split at h
  · next hfull =>
    split at h
    · next hn => cases h; exact .inr (.inl ⟨hfull, hn, rfl⟩)
    · next hn => cases h; exact .inr (.inr ⟨hfull, by simpa using hn, rfl⟩)
  · next hfull => cases h; exact .inl ⟨by simpa using hfull, rfl⟩

/-! ## UDIs -/

/-- A UDI that answers a next state is defined and its operation raised nothing. -/
theorem udiForm_next {n : BitVec 3} {rcn : BitVec 1} {a b c : Field5} {s t : State}
    (h : udiForm n rcn a b c s = .next t) :
    s.cfg.apu.udi = true ∧ ∃ m, s.udiDef n rcn = some m ∧ (udiAnswer m a b c s).exc = none ∧
      t = udiCompleted m rcn a (udiAnswer m a b c s) s := by
  unfold udiForm at h
  split at h
  · cases h
  · next ha =>
    refine ⟨by simpa using ha, ?_⟩
    split at h
    · cases h
    · next m hm =>
      dsimp only at h
      split at h
      · cases h
      · next he => cases h; exact ⟨m, hm, he, rfl⟩

/-! ## Memory accesses -/

/-- The policy lets an access go through exactly where the attribute is big-endian (20_memory R52, D8). -/
@[simp] theorem endianAnswer_big (p : EndianPolicy) (k : AccessKind) (a : Access) :
    endianAnswer p k a .big = .bigEndianAccess := rfl

theorem endianAnswer_little (p : EndianPolicy) (k : AccessKind) (a : Access) :
    ∃ x, endianAnswer p k a .little = .unsupported x := by cases a <;> exact ⟨_, rfl⟩

/-- An access that goes through: what the translation and the memory map said. -/
theorem realAddress_ok {s : State} {k : AccessKind} {a : Access} {ea ra : Word} {n : Nat}
    (h : s.realAddress k a ea n = .ok ra) :
    s.translate ea a = .ok ra .big ∧ allBytes s.memoryHas ra n = true := by
  unfold State.realAddress at h
  split at h <;> try cases h
  next r e ht =>
    split at h <;> try cases h
    next he =>
      have hb : e = .big := by
        cases e with
        | big => rfl
        | little => obtain ⟨x, hx⟩ := endianAnswer_little s.cfg.endian k a; rw [hx] at he; cases he
      split at h
      · next hm => cases h; exact ⟨hb ▸ ht, hm⟩
      · cases h

/-- An access that raises: what the translation and the policy said, and the address it records. -/
theorem realAddress_raised {s : State} {k : AccessKind} {a : Access} {ea v : Word} {n : Nat} {x : ExceptionKind}
    (h : s.realAddress k a ea n = .error (.raised x v)) :
    v = ea ∧ ((x = .dataTlbMiss ∧ s.translate ea a = .tlbMiss) ∨
      (x = .dataStorage ∧ (s.translate ea a = .noAccess ∨ s.translate ea a = .readOnly)) ∨
      (x = .alignment ∧ ∃ ra, s.translate ea a = .ok ra .little ∧
        endianAnswer s.cfg.endian k a .little = .unsupported .alignmentException)) := by
  unfold State.realAddress at h
  split at h
  · next ht => cases h; exact ⟨rfl, .inl ⟨rfl, ht⟩⟩
  · next ht => cases h; exact ⟨rfl, .inr (.inl ⟨rfl, .inl ht⟩)⟩
  · next ht => cases h; exact ⟨rfl, .inr (.inl ⟨rfl, .inr ht⟩)⟩
  · next ra e ht =>
    split at h
    · next he =>
      cases h
      cases e with
      | big => cases he
      | little => exact ⟨rfl, .inr (.inr ⟨rfl, ra, ht, he⟩)⟩
    · cases h
    · split at h <;> cases h

theorem memRead_ok {s : State} {k : AccessKind} {ea : Word} {n : Nat} {v : Word} (h : s.memRead k ea n = .ok v) :
    ∃ ra, s.realAddress k .load ea n = .ok ra ∧ v = s.mem.readBytes ra n := by
  unfold State.memRead at h
  split at h
  · cases h
  · next ra hr => cases h; exact ⟨ra, hr, rfl⟩

theorem memWrite_ok {s : State} {k : AccessKind} {ea : Word} {n : Nat} {v : Word} {m : Memory}
    (h : s.memWrite k ea n v = .ok m) :
    ∃ ra, s.realAddress k .store ea n = .ok ra ∧ allBytes (fun a => !s.inText a) ra n = true ∧
      m = s.mem.writeBytes ra v n := by
  unfold State.memWrite at h
  split at h
  · cases h
  · next ra hr =>
    split at h
    · next ht => cases h; exact ⟨ra, hr, ht, rfl⟩
    · cases h

theorem allBytes_true {p : Word → Bool} {ra : Word} : ∀ {n : Nat}, allBytes p ra n = true →
    ∀ k < n, p (ra + BitVec.ofNat 32 k) = true
  | n + 1, h, k, hk => by
    simp only [allBytes, Bool.and_eq_true] at h
    by_cases he : k = n
    · subst he; exact h.2
    · exact allBytes_true h.1 k (by omega)

theorem allBytes_intro {p : Word → Bool} {ra : Word} : ∀ {n : Nat}, (∀ k < n, p (ra + BitVec.ofNat 32 k) = true) →
    allBytes p ra n = true
  | 0, _ => rfl
  | n + 1, h => by
    simp only [allBytes, Bool.and_eq_true]
    exact ⟨allBytes_intro fun k hk => h k (by omega), h n (by omega)⟩

/-! ## FCM loads and stores -/

theorem fcmChecked_next {k : AccessKind} {u : Bool} {rA rB : Field5} {s t : State}
    {f : Word → Host.Outcome State Fault Refusal} (h : fcmChecked k u rA rB s f = .next t) :
    (u = true → rA ≠ 0#5) ∧ s.cfg.apu.fcmTransfer = true ∧
      misalignRaises s.cfg.misalign k (addressSum u rA rB s) = false ∧
      f (effectiveAddress k (addressSum u rA rB s)) = .next t := by
  unfold fcmChecked at h
  split at h
  · cases h
  · next h0 =>
    split at h
    · cases h
    · next h1 =>
      split at h
      · cases h
      · next h2 =>
        refine ⟨fun hu hr => h0 (by simp [hu, hr]), by simpa using h1, by simpa using h2, h⟩

theorem fcmChecked_pass {k : AccessKind} {u : Bool} {rA rB : Field5} {s : State} (h0 : u = true → rA ≠ 0#5)
    (h1 : s.cfg.apu.fcmTransfer = true) (h2 : misalignRaises s.cfg.misalign k (addressSum u rA rB s) = false)
    (f : Word → Host.Outcome State Fault Refusal) :
    fcmChecked k u rA rB s f = f (effectiveAddress k (addressSum u rA rB s)) := by
  have : (u && rA == 0#5) = false := by
    cases u
    · rfl
    · simpa using h0 rfl
  simp [fcmChecked, this, h1, h2]

theorem finishTransfer_next {u : Bool} {rA : Field5} {ea : Word} {s t : State} {fz : Fin 4 → State} {e : TransferEnd}
    (h : finishTransfer u rA ea s fz e = .next t) : ∃ m, e = .done m ∧ t = afterTransfer u rA ea m := by
  unfold finishTransfer at h
  split at h
  · cases h; exact ⟨_, rfl, rfl⟩
  · cases h
  · cases h

/-- One load beat changes the FCM's state, the latch and the draw counter only. -/
theorem loadBeat_frame {k : AccessKind} {u : Bool} {f : Field5} {ea : Word} {b : Fin 4} {s t : State}
    (h : loadBeat k u f ea b s = .ok t) : t = { s with fcm := t.fcm, fcmData := t.fcmData, draws := t.draws } := by
  unfold loadBeat at h
  split at h
  · cases h
  · cases h; rfl

theorem loadBeats_frame {k : AccessKind} {u : Bool} {f : Field5} {ea : Word} : ∀ {l : List (Fin 4)} {s t : State},
    loadBeats k u f ea l s = .done t → t = { s with fcm := t.fcm, fcmData := t.fcmData, draws := t.draws }
  | [], s, t, h => by cases h; rfl
  | b :: rest, s, t, h => by
    unfold loadBeats at h
    split at h
    · cases h
    · next m hm =>
      have h1 := loadBeat_frame hm
      have h2 := loadBeats_frame h
      rw [h1] at h2
      exact h2

/-- One store beat changes memory and the latch only; memory is as before or the bytes of the beat are written. -/
theorem storeBeat_frame {k : AccessKind} {u : Bool} {f : Field5} {ea : Word} {b : Fin 4} {l : Bool} {s t : State}
    (h : storeBeat k u f ea b l s = .ok t) :
    t = { s with mem := t.mem, fcmData := t.fcmData } ∧
      ∃ ra, s.realAddress k .store (beatAddress ea b) (unitBytes k) = .ok ra ∧
        allBytes (fun a => !s.inText a) ra (unitBytes k) = true ∧
        t.mem = if l then s.mem.writeBytes ra (storedValue k ea (storeData k u f ea b s)) (unitBytes k) else s.mem := by
  unfold storeBeat at h
  split at h
  · cases h
  · next m hm =>
    obtain ⟨ra, h1, h2, h3⟩ := memWrite_ok hm
    cases h
    refine ⟨rfl, ra, h1, h2, ?_⟩
    cases l
    · rfl
    · simp [h3]

theorem storeBeats_frame {k : AccessKind} {u : Bool} {f : Field5} {ea : Word} {p : Fin 4 → Bool} :
    ∀ {l : List (Fin 4)} {s t : State}, storeBeats k u f ea p l s = .done t →
      t = { s with mem := t.mem, fcmData := t.fcmData }
  | [], s, t, h => by cases h; rfl
  | b :: rest, s, t, h => by
    unfold storeBeats at h
    split at h
    · cases h
    · next m hm =>
      have h1 := (storeBeat_frame hm).1
      have h2 := storeBeats_frame h
      rw [h1] at h2
      exact h2

/-- The checks of an access read nothing that a store beat changes. -/
theorem realAddress_congr (s : State) (m : Memory) (d : Word) (k : AccessKind) (a : Access) (ea : Word) (n : Nat) :
    ({ s with mem := m, fcmData := d } : State).realAddress k a ea n = s.realAddress k a ea n := rfl

/-- Stores keep the canonical form, and leave every byte outside the beats they make. -/
theorem storeBeats_memory {k : AccessKind} {u : Bool} {f : Field5} {ea : Word} {p : Fin 4 → Bool} :
    ∀ {l : List (Fin 4)} {s t : State}, storeBeats k u f ea p l s = .done t → s.mem.wf = true →
      t.mem.wf = true ∧
      (∀ a, s.inText a = true → t.mem.read a = s.mem.read a) ∧
      ∀ a, (∀ b ∈ l, ∀ ra, s.realAddress k .store (beatAddress ea b) (unitBytes k) = .ok ra →
        ¬ inSpan ra (unitBytes k) a) → t.mem.read a = s.mem.read a
  | [], s, t, h, hw => by cases h; exact ⟨hw, fun _ _ => rfl, fun _ _ => rfl⟩
  | b :: rest, s, t, h, hw => by
    unfold storeBeats at h
    split at h
    · cases h
    · next m hm =>
      obtain ⟨hf, ra, hra, htext, hmem⟩ := storeBeat_frame hm
      have hmw : m.mem.wf = true := by
        rw [hmem]; split
        · exact Memory.wf_writeBytes _ hw _ _ _
        · exact hw
      obtain ⟨i1, i2, i3⟩ := storeBeats_memory h hmw
      have hone : ∀ a, (∀ j < unitBytes k, a ≠ ra + BitVec.ofNat 32 j) → m.mem.read a = s.mem.read a := by
        intro a ha
        rw [hmem]; split
        · exact Memory.read_writeBytes_other _ hw _ _ _ _ ha
        · rfl
      have htxt : ∀ a, m.inText a = s.inText a := by intro a; rw [hf]; rfl
      have hreal : ∀ a n, m.realAddress k .store a n = s.realAddress k .store a n := by
        intro a n; rw [hf]; rfl
      refine ⟨i1, fun a ha => ?_, fun a ha => ?_⟩
      · rw [i2 a (by rw [htxt]; exact ha)]
        refine hone a fun j hj e => ?_
        have := allBytes_true htext j hj
        rw [← e, ha] at this
        cases this
      · rw [i3 a (fun c hc r hr => ha c (List.mem_cons_of_mem _ hc) r (by rw [← hreal]; exact hr))]
        exact hone a fun j hj e => ha b List.mem_cons_self ra hra ⟨j, hj, e⟩

/-- Store beats of the word-sized kinds that all go through: which bytes they leave, and what each beat's word holds. -/
theorem storeBeats_run {k : AccessKind} {u : Bool} {f : Field5} {ea : Word} {p : Fin 4 → Bool} (hk : fillsLatch k = true)
    (ra : Fin 4 → Word) : ∀ (l : List (Fin 4)) (s : State), s.mem.wf = true → l.Nodup →
    (∀ b ∈ l, s.realAddress k .store (beatAddress ea b) 4 = .ok (ra b) ∧
      allBytes (fun a => !s.inText a) (ra b) 4 = true) →
    ∃ t, storeBeats k u f ea p l s = .done t ∧
      ((∀ b ∈ l, ∀ c ∈ l, b ≠ c → ∀ a, inSpan (ra b) 4 a → ¬ inSpan (ra c) 4 a) →
        ∀ b ∈ l, t.mem.readBytes (ra b) 4 =
          if p b then fcmStoreBeat s.cfg.fcmLogic s.fcm f k u b (laneOffset ea) else s.mem.readBytes (ra b) 4) ∧
      ∀ a, (∀ b ∈ l, ¬ inSpan (ra b) 4 a) → t.mem.read a = s.mem.read a
  | [], s, _, _, _ => ⟨s, rfl, fun _ _ h => (List.not_mem_nil h).elim, fun _ _ => rfl⟩
  | b :: rest, s, hw, hn, h => by
    have hu : unitBytes k = 4 := by cases k <;> first | rfl | cases hk
    obtain ⟨hb, hr⟩ := List.nodup_cons.mp hn
    obtain ⟨h1, h2⟩ := h b List.mem_cons_self
    have hbeat : storeBeat k u f ea b (p b) s =
        .ok ((s.setLatch (storeData k u f ea b s)).setMem
          (if p b then s.mem.writeBytes (ra b) (storeData k u f ea b s) 4 else s.mem)) := by
      simp [storeBeat, State.memWrite, hu, h1, h2, storedValue, hk]
    let m := (s.setLatch (storeData k u f ea b s)).setMem
      (if p b then s.mem.writeBytes (ra b) (storeData k u f ea b s) 4 else s.mem)
    have hmw : m.mem.wf = true := by
      show (if p b then _ else _ : Memory).wf = true
      split
      · exact Memory.wf_writeBytes _ hw _ _ _
      · exact hw
    have hout : ∀ a, ¬ inSpan (ra b) 4 a → m.mem.read a = s.mem.read a := by
      intro a ha
      show (if p b then _ else _ : Memory).read a = _
      split
      · exact Memory.read_writeBytes_other _ hw _ _ _ _ fun j hj e => ha ⟨j, hj, e⟩
      · rfl
    obtain ⟨t, ht, hv, ho⟩ := storeBeats_run (u := u) (f := f) (ea := ea) (p := p) hk ra rest m hmw hr
      fun c hc => h c (List.mem_cons_of_mem _ hc)
    refine ⟨t, by simp only [storeBeats, hbeat]; exact ht, ?_, ?_⟩
    · intro hd c hc
      have hd' := hv fun x hx y hy => hd x (List.mem_cons_of_mem _ hx) y (List.mem_cons_of_mem _ hy)
      rcases List.mem_cons.mp hc with rfl | hc'
      · have : t.mem.readBytes (ra c) 4 = m.mem.readBytes (ra c) 4 := by
          apply Memory.readBytes_congr
          intro j hj
          apply ho
          intro y hy
          exact hd c hc y (List.mem_cons_of_mem _ hy) (fun e => hb (e ▸ hy)) _ ⟨j, hj, rfl⟩
        rw [this]
        show (if p c then _ else _ : Memory).readBytes (ra c) 4 = _
        split
        · rw [Memory.readBytes_writeBytes _ hw _ _ _ (by omega)]
          show _ &&& BitVec.allOnes 32 = _
          rw [BitVec.and_allOnes]; rfl
        · rfl
      · rw [hd' c hc']
        have : m.mem.readBytes (ra c) 4 = s.mem.readBytes (ra c) 4 := by
          apply Memory.readBytes_congr
          intro j hj
          apply hout
          exact hd c hc b List.mem_cons_self (fun e => hb (e ▸ hc')) _ ⟨j, hj, rfl⟩
        rw [this]; rfl
    · intro a ha
      rw [ho a fun c hc => ha c (List.mem_cons_of_mem _ hc)]
      exact hout a (ha b List.mem_cons_self)

/-- The word-sized kinds use lane 0 (20_memory R57). -/
theorem laneOffset_effectiveAddress {k : AccessKind} (hk : fillsLatch k = true) (v : Word) :
    laneOffset (effectiveAddress k v) = 0 := by
  have h1 : effectiveAddress k v = v &&& ~~~3#32 := by cases k <;> first | rfl | cases hk
  have h2 : v &&& ~~~3#32 &&& 3#32 = 0#32 := by rw [BitVec.and_assoc]; simp
  rw [h1, laneOffset, h2]
  rfl

/-- A load that answers a next state: the beats done, then rA and pc. -/
theorem loadForm_next {k : AccessKind} {u : Bool} {f rA rB : Field5} {s t : State}
    (h : loadForm k u f rA rB s = .next t) :
    (u = true → rA ≠ 0#5) ∧ s.cfg.apu.fcmTransfer = true ∧
      misalignRaises s.cfg.misalign k (addressSum u rA rB s) = false ∧
      ∃ m, loadBeats k u f (effectiveAddress k (addressSum u rA rB s)) (beatsOf k) s = .done m ∧
        m = { s with fcm := m.fcm, fcmData := m.fcmData, draws := m.draws } ∧
        t = afterTransfer u rA (effectiveAddress k (addressSum u rA rB s)) m := by
  obtain ⟨h0, h1, h2, h3⟩ := fcmChecked_next h
  obtain ⟨m, hm, ht⟩ := finishTransfer_next h3
  exact ⟨h0, h1, h2, m, hm, loadBeats_frame hm, ht⟩

/-- A store that answers a next state: the beats done, then rA and pc. -/
theorem storeForm_next {k : AccessKind} {u : Bool} {f rA rB : Field5} {s t : State}
    (h : storeForm k u f rA rB s = .next t) :
    (u = true → rA ≠ 0#5) ∧ s.cfg.apu.fcmTransfer = true ∧
      misalignRaises s.cfg.misalign k (addressSum u rA rB s) = false ∧
      ∃ m, storeBeats k u f (effectiveAddress k (addressSum u rA rB s)) (fun _ => true) (beatsOf k) s = .done m ∧
        m = { s with mem := m.mem, fcmData := m.fcmData } ∧
        t = afterTransfer u rA (effectiveAddress k (addressSum u rA rB s)) m := by
  obtain ⟨h0, h1, h2, h3⟩ := fcmChecked_next h
  obtain ⟨m, hm, ht⟩ := finishTransfer_next h3
  exact ⟨h0, h1, h2, m, hm, storeBeats_frame hm, ht⟩

/-! ## Every instruction -/

/-- A written UDI target changes the general registers only. -/
theorem writeUdiTarget_frame (k : UdiTarget) (t : Field5) (r : Option Word) (s : State) :
    writeUdiTarget k t r s = { s with gpr := (writeUdiTarget k t r s).gpr } := by
  cases k <;> cases r <;> rfl

theorem readGpr_writeUdiTarget (k : UdiTarget) (t q : Field5) (r : Option Word) (s : State) :
    (writeUdiTarget k t r s).readGpr q = if k = .gprDest ∧ q = t then r.getD (s.readGpr q) else s.readGpr q := by
  cases k <;> cases r <;> simp [writeUdiTarget, State.readGpr_writeGpr]

/-- A completed UDI changes the registers, pc, the FCM's state and, with Rcn = 0, CR. -/
theorem udiCompleted_frame (m : UdiMeaning) (rcn : BitVec 1) (t : Field5) (r : UdiResult) (s : State) :
    ∃ c, udiCompleted m rcn t r s =
        { s with gpr := (writeUdiTarget m.tKind t r.tResult s).gpr, pc := s.pc + 4#32, cr := c, fcm := r.fcm } ∧
      (rcn ≠ 0#1 → c = s.cr) := by
  have key : (writeUdiTarget m.tKind t r.tResult (s.setFcm r.fcm)).gpr = (writeUdiTarget m.tKind t r.tResult s).gpr := by
    cases m.tKind <;> cases r.tResult <;> rfl
  unfold udiCompleted writeUdiCr
  rw [writeUdiTarget_frame, key]
  split
  · exact ⟨s.cr, rfl, fun _ => rfl⟩
  · split
    · exact ⟨_, rfl, fun h => by simp_all⟩
    · exact ⟨s.cr, rfl, fun _ => rfl⟩

theorem readGpr_afterTransfer (u : Bool) (rA : Field5) (ea : Word) (m : State) (r : Field5) :
    (afterTransfer u rA ea m).readGpr r = if u = true ∧ r = rA then ea else m.readGpr r := by
  unfold afterTransfer
  split
  · next h => simp [State.readGpr_writeGpr, h]
  · next h => simp [h]

/-- Everything an instruction that answers a next state can have done, by class. -/
theorem exec_next_cases {i : Instr} {s t : State} (h : exec i s = .next t) :
    (∃ n c rD fsl, classOf i = .get n c rD fsl ∧ fslReady s fsl ∧
      ((∃ w rest, s.inQueue fsl = w :: rest ∧ t = getPresent n c rD fsl w rest s) ∨
        (s.inQueue fsl = [] ∧ n = true ∧ t = getAbsent rD s) ∨ (s.inQueue fsl = [] ∧ n = false ∧ t = s))) ∨
    (∃ n c rA fsl, classOf i = .put n c rA fsl ∧ fslReady s fsl ∧
      ((s.isFull fsl = false ∧ t = putAccepted n c rA fsl s) ∨
        (s.isFull fsl = true ∧ n = true ∧ t = (s.setCa (caOfPut true)).advance) ∨
        (s.isFull fsl = true ∧ n = false ∧ t = s))) ∨
    (∃ n rcn x a b m, classOf i = .udi n rcn x a b ∧ s.cfg.apu.udi = true ∧ s.udiDef n rcn = some m ∧
      (udiAnswer m x a b s).exc = none ∧ t = udiCompleted m rcn x (udiAnswer m x a b s) s) ∨
    (∃ k u f rA rB m, classOf i = .load k u f rA rB ∧ fcmReady k u rA rB s ∧
      loadBeats k u f (transferEA k u rA rB s) (beatsOf k) s = .done m ∧
      m = { s with fcm := m.fcm, fcmData := m.fcmData, draws := m.draws } ∧
      t = afterTransfer u rA (transferEA k u rA rB s) m) ∨
    (∃ k u f rA rB m, classOf i = .store k u f rA rB ∧ fcmReady k u rA rB s ∧
      storeBeats k u f (transferEA k u rA rB s) (fun _ => true) (beatsOf k) s = .done m ∧
      m = { s with mem := m.mem, fcmData := m.fcmData } ∧
      t = afterTransfer u rA (transferEA k u rA rB s) m) := by
  rw [exec_eq_execClass] at h
  cases hc : classOf i with
  | get n c rD fsl =>
    rw [hc] at h
    obtain ⟨h1, h2, h3, h4⟩ := getForm_next h
    exact .inl ⟨n, c, rD, fsl, rfl, ⟨h1, h2, h3⟩, h4⟩
  | put n c rA fsl =>
    rw [hc] at h
    obtain ⟨h1, h2, h3, h4⟩ := putForm_next h
    exact .inr (.inl ⟨n, c, rA, fsl, rfl, ⟨h1, h2, h3⟩, h4⟩)
  | udi n rcn x a b =>
    rw [hc] at h
    obtain ⟨h1, m, h2⟩ := udiForm_next h
    exact .inr (.inr (.inl ⟨n, rcn, x, a, b, m, rfl, h1, h2⟩))
  | load k u f rA rB =>
    rw [hc] at h
    obtain ⟨h1, h2, h3, m, h4⟩ := loadForm_next h
    exact .inr (.inr (.inr (.inl ⟨k, u, f, rA, rB, m, rfl, ⟨h1, h2, h3⟩, h4⟩)))
  | store k u f rA rB =>
    rw [hc] at h
    obtain ⟨h1, h2, h3, m, h4⟩ := storeForm_next h
    exact .inr (.inr (.inr (.inr ⟨k, u, f, rA, rB, m, rfl, ⟨h1, h2, h3⟩, h4⟩)))

/-- What no instruction that completes changes: the rest of XER, mode, relocation, translation, `full`, the environment's
schedule, the parameters, where the program is. -/
theorem exec_frame {i : Instr} {s t : State} (h : exec i s = .next t) :
    t = { s with gpr := t.gpr, pc := t.pc, xerCa := t.xerCa, xerOv := t.xerOv, cr := t.cr, mem := t.mem, fcm := t.fcm,
                 fcmData := t.fcmData, fslIn := t.fslIn, fslOut := t.fslOut, draws := t.draws } := by
  obtain ⟨n, c, rD, fsl, _, _, h⟩ | ⟨n, c, rA, fsl, _, _, h⟩ | ⟨n, rcn, x, a, b, m, _, _, _, _, rfl⟩ |
    ⟨k, u, f, rA, rB, m, _, _, _, hm, rfl⟩ | ⟨k, u, f, rA, rB, m, _, _, _, hm, rfl⟩ := exec_next_cases h
  · rcases h with ⟨_, _, _, rfl⟩ | ⟨_, _, rfl⟩ | ⟨_, _, rfl⟩
    · unfold getPresent; split <;> rfl
    · rfl
    · rfl
  · rcases h with ⟨_, rfl⟩ | ⟨_, _, rfl⟩ | ⟨_, _, rfl⟩
    · unfold putAccepted; split <;> rfl
    · rfl
    · rfl
  · obtain ⟨c, hc, _⟩ := udiCompleted_frame m rcn x (udiAnswer m x a b s) s
    rw [hc]
  · unfold afterTransfer; rw [hm]; split <;> rfl
  · unfold afterTransfer; rw [hm]; split <;> rfl

/-! ## Transfers that stop -/

/-- The beats of a double or quad transfer before `b`, `b`, and the beats after it. -/
theorem beatsOf_split {k : AccessKind} {b : Fin 4} (hb : b ∈ beatsOf k) :
    ∃ rest, beatsOf k = (beatsOf k).filter (· < b) ++ b :: rest := by
  cases k <;> fin_cases b <;> first | exact absurd hb (by decide) | exact ⟨_, rfl⟩

/-- A load beat that stops did so at the checks of its access, and those read nothing that earlier beats change. -/
theorem loadBeats_stopped {k : AccessKind} {u : Bool} {f : Field5} {ea : Word} {e : Stop} {b : Fin 4} :
    ∀ {l : List (Fin 4)} {s : State}, loadBeats k u f ea l s = .stopped e b →
      b ∈ l ∧ s.realAddress k .load (beatAddress ea b) (unitBytes k) = .error e
  | [], _, h => by cases h
  | c :: rest, s, h => by
    unfold loadBeats at h
    split at h
    · next x hx =>
      cases h
      refine ⟨List.mem_cons_self, ?_⟩
      unfold loadBeat at hx
      split at hx
      · next y hy =>
        cases hx
        unfold State.memRead at hy
        split at hy
        · next z hz => cases hy; exact hz
        · cases hy
      · cases hx
    · next m hm =>
      obtain ⟨h1, h2⟩ := loadBeats_stopped h
      rw [loadBeat_frame hm] at h2
      exact ⟨List.mem_cons_of_mem _ h1, h2⟩

/-- A store beat that stops did so at the checks of its access or at the program text. -/
theorem storeBeats_stopped {k : AccessKind} {u : Bool} {f : Field5} {ea : Word} {p : Fin 4 → Bool} {e : Stop} {b : Fin 4} :
    ∀ {l : List (Fin 4)} {s : State}, storeBeats k u f ea p l s = .stopped e b →
      b ∈ l ∧ (s.realAddress k .store (beatAddress ea b) (unitBytes k) = .error e ∨ e = .refused .storeToProgramText)
  | [], _, h => by cases h
  | c :: rest, s, h => by
    unfold storeBeats at h
    split at h
    · next x hx =>
      cases h
      refine ⟨List.mem_cons_self, ?_⟩
      unfold storeBeat at hx
      split at hx
      · next y hy =>
        cases hx
        unfold State.memWrite at hy
        split at hy
        · next z hz => cases hy; exact .inl hz
        · split at hy
          · cases hy
          · cases hy; exact .inr rfl
      · cases hx
    · next m hm =>
      obtain ⟨h1, h2⟩ := storeBeats_stopped h
      rw [(storeBeat_frame hm).1] at h2
      exact ⟨List.mem_cons_of_mem _ h1, h2⟩

/-- Load beats up to the first whose access does not go through. -/
theorem loadBeats_stop {k : AccessKind} {u : Bool} {f : Field5} {ea : Word} {e : Stop} {b : Fin 4} (rest : List (Fin 4)) :
    ∀ (l : List (Fin 4)) (s : State),
      (∀ c ∈ l, ∃ ra, s.realAddress k .load (beatAddress ea c) (unitBytes k) = .ok ra) →
      s.realAddress k .load (beatAddress ea b) (unitBytes k) = .error e →
      loadBeats k u f ea (l ++ b :: rest) s = .stopped e b
  | [], s, _, he => by simp [loadBeats, loadBeat, State.memRead, he]
  | c :: l, s, h, he => by
    obtain ⟨ra, hra⟩ := h c List.mem_cons_self
    obtain ⟨m, hm⟩ : ∃ m, loadBeat k u f ea c s = .ok m := by simp [loadBeat, State.memRead, hra]
    simp only [List.cons_append, loadBeats, hm]
    have hf := loadBeat_frame hm
    exact loadBeats_stop rest l m (fun d hd => by rw [hf]; exact h d (List.mem_cons_of_mem _ hd)) (by rw [hf]; exact he)

/-- Store beats up to the first whose access does not go through. -/
theorem storeBeats_stop {k : AccessKind} {u : Bool} {f : Field5} {ea : Word} {p : Fin 4 → Bool} {e : Stop} {b : Fin 4}
    (rest : List (Fin 4)) : ∀ (l : List (Fin 4)) (s : State),
      (∀ c ∈ l, ∃ ra, s.realAddress k .store (beatAddress ea c) (unitBytes k) = .ok ra ∧
        allBytes (fun a => !s.inText a) ra (unitBytes k) = true) →
      s.realAddress k .store (beatAddress ea b) (unitBytes k) = .error e →
      storeBeats k u f ea p (l ++ b :: rest) s = .stopped e b
  | [], s, _, he => by simp [storeBeats, storeBeat, State.memWrite, he]
  | c :: l, s, h, he => by
    obtain ⟨ra, hra, ht⟩ := h c List.mem_cons_self
    obtain ⟨m, hm⟩ : ∃ m, storeBeat k u f ea c (p c) s = .ok m := by simp [storeBeat, State.memWrite, hra, ht]
    simp only [List.cons_append, storeBeats, hm]
    have hf := (storeBeat_frame hm).1
    exact storeBeats_stop rest l m (fun d hd => by rw [hf]; exact h d (List.mem_cons_of_mem _ hd)) (by rw [hf]; exact he)

/-- What an outcome is when a beat stops for `e` and an exception would freeze `z`. -/
def stopOutcome (s z : State) : Stop → Host.Outcome State Fault Refusal
  | .raised x v => raiseException x v s z
  | .refused r => .refused r

/-- An FCM load or store that passes its checks stops at the first beat whose access does not go through. -/
theorem exec_transfer_stops {i : Instr} {k : AccessKind} {d : Access} {u : Bool} {f rA rB : Field5} {s : State} {b : Fin 4}
    {e : Stop} (hc : transferOf (classOf i) = some (k, d, u, f, rA, rB)) (hr : fcmReady k u rA rB s) (hb : b ∈ beatsOf k)
    (hp : earlierBeatsPass s k d (transferEA k u rA rB s) b)
    (he : s.realAddress k d (beatAddress (transferEA k u rA rB s) b) (unitBytes k) = .error e) :
    ∃ z, exec i s = stopOutcome s z e ∧ (b = 0 → z = s) := by
  obtain ⟨rest, hl⟩ := beatsOf_split hb
  rw [exec_eq_execClass]
  have mem : ∀ c ∈ (beatsOf k).filter (· < b), c ∈ beatsOf k ∧ c < b := fun c h => by simpa using List.mem_filter.mp h
  cases hi : classOf i with
  | get n c x y => rw [hi] at hc; cases hc
  | put n c x y => rw [hi] at hc; cases hc
  | udi n r x y w => rw [hi] at hc; cases hc
  | load k' u' f' x y =>
    rw [hi] at hc; cases hc
    refine ⟨loadFrozen s b, ?_, fun h => by simp [loadFrozen, h]⟩
    have := loadBeats_stop (u := u) (f := f) rest _ s
      (fun c h => by obtain ⟨ra, h, _⟩ := hp c (mem c h).1 (mem c h).2; exact ⟨ra, h⟩) he
    rw [← hl] at this
    simp only [execClass, loadForm]
    rw [fcmChecked_pass hr.1 hr.2.1 hr.2.2]
    unfold transferEA at this
    rw [this]
    cases e <;> rfl
  | store k' u' f' x y =>
    rw [hi] at hc; cases hc
    refine ⟨storeFrozen k u f (transferEA k u rA rB s) s b, ?_, fun h => by simp [storeFrozen, h]⟩
    have := storeBeats_stop (u := u) (f := f) (p := fun _ => true) rest _ s
      (fun c h => by obtain ⟨ra, h, ht⟩ := hp c (mem c h).1 (mem c h).2; exact ⟨ra, h, ht rfl⟩) he
    rw [← hl] at this
    simp only [execClass, storeForm]
    rw [fcmChecked_pass hr.1 hr.2.1 hr.2.2]
    unfold transferEA at this ⊢
    rw [this]
    cases e <;> rfl

/-- A fault before the first beat of a transfer is the misalignment test's; a later one is the beats'. -/
theorem fcmChecked_fault {k : AccessKind} {u : Bool} {rA rB : Field5} {s : State} {x : Fault}
    {f : Word → Host.Outcome State Fault Refusal} (h : fcmChecked k u rA rB s f = .fault x) :
    (misalignRaises s.cfg.misalign k (addressSum u rA rB s) = true ∧
        x = .alignment { pc := s.pc, info := addressSum u rA rB s, frozen := s }) ∨
      (fcmReady k u rA rB s ∧ f (transferEA k u rA rB s) = .fault x) := by
  unfold fcmChecked at h
  split at h
  · cases h
  · next h0 =>
    split at h
    · cases h
    · next h1 =>
      split at h
      · next h2 => cases h; exact .inl ⟨h2, rfl⟩
      · next h2 => exact .inr ⟨⟨fun hu hr => h0 (by simp [hu, hr]), by simpa using h1, by simpa using h2⟩, h⟩

theorem finishTransfer_fault {u : Bool} {rA : Field5} {ea : Word} {s : State} {fz : Fin 4 → State} {e : TransferEnd} {x : Fault}
    (h : finishTransfer u rA ea s fz e = .fault x) : ∃ kind v b, e = .stopped (.raised kind v) b ∧
      x = faultOf kind { pc := s.pc, info := v, frozen := fz b } := by
  unfold finishTransfer at h
  split at h
  · cases h
  · cases h; exact ⟨_, _, _, rfl, rfl⟩
  · cases h

/-- The frozen state of a transfer of class `c` stopped at beat `b` (60_exceptions R228). -/
def frozenOf (c : InstrClass) (ea : Word) (s : State) (b : Fin 4) : State :=
  match c with
  | .load _ _ _ _ _ => loadFrozen s b
  | .store k u f _ _ => storeFrozen k u f ea s b
  | .get _ _ _ _ => s
  | .put _ _ _ _ => s
  | .udi _ _ _ _ _ => s

/-- Everything an instruction that faults can have met: user mode, a UDI's own exception, a sum the policy raises for, or a
beat whose access raises. -/
theorem exec_fault_cases {i : Instr} {s : State} {x : Fault} (h : exec i s = .fault x) :
    (isFslTransfer (classOf i) = true ∧ s.priv = .user ∧
      x = .programPrivileged { pc := s.pc, info := s.instrWord, frozen := s }) ∨
    (∃ n rcn t a b m e, classOf i = .udi n rcn t a b ∧ s.udiDef n rcn = some m ∧ (udiAnswer m t a b s).exc = some e ∧
      x = .userDefined e.code { pc := s.pc, info := e.info, frozen := s }) ∨
    ∃ k d u f rA rB, transferOf (classOf i) = some (k, d, u, f, rA, rB) ∧
      ((misalignRaises s.cfg.misalign k (addressSum u rA rB s) = true ∧
          x = .alignment { pc := s.pc, info := addressSum u rA rB s, frozen := s }) ∨
        (fcmReady k u rA rB s ∧ ∃ b ∈ beatsOf k, ∃ kind,
          s.realAddress k d (beatAddress (transferEA k u rA rB s) b) (unitBytes k) =
            .error (.raised kind (beatAddress (transferEA k u rA rB s) b)) ∧
          x = faultOf kind { pc := s.pc, info := beatAddress (transferEA k u rA rB s) b,
                             frozen := frozenOf (classOf i) (transferEA k u rA rB s) s b })) := by
  have fsl : ∀ {y r}, fslChecked y s r = .fault x → (∀ z, r ≠ .fault z) →
      s.priv = .user ∧ x = .programPrivileged { pc := s.pc, info := s.instrWord, frozen := s } := by
    intro y r hf hr
    unfold fslChecked at hf
    split at hf
    · next hp => cases hf; exact ⟨hp, rfl⟩
    · split at hf
      · cases hf
      · split at hf
        · cases hf
        · exact absurd hf (hr x)
  rw [exec_eq_execClass] at h
  cases hc : classOf i with
  | get n c rD y =>
    rw [hc] at h
    refine .inl ⟨rfl, fsl h fun z => ?_⟩
    split
    · simp
    · split <;> simp
  | put n c rA y =>
    rw [hc] at h
    refine .inl ⟨rfl, fsl h fun z => ?_⟩
    split
    · split <;> simp
    · simp
  | udi n rcn t a b =>
    rw [hc] at h
    simp only [execClass, udiForm] at h
    split at h
    · cases h
    · split at h
      · cases h
      · next m hm =>
        split at h
        · next e he => cases h; exact .inr (.inl ⟨n, rcn, t, a, b, m, e, rfl, hm, he, rfl⟩)
        · cases h
  | load k u f rA rB =>
    rw [hc] at h
    simp only [execClass, loadForm] at h
    refine .inr (.inr ⟨k, .load, u, f, rA, rB, rfl, ?_⟩)
    rcases fcmChecked_fault h with h | ⟨hr, h⟩
    · exact .inl h
    · obtain ⟨kind, v, b, he, hx⟩ := finishTransfer_fault h
      obtain ⟨hb, ha⟩ := loadBeats_stopped he
      obtain ⟨rfl, _⟩ := realAddress_raised ha
      exact .inr ⟨hr, b, hb, kind, ha, hx⟩
  | store k u f rA rB =>
    rw [hc] at h
    simp only [execClass, storeForm] at h
    refine .inr (.inr ⟨k, .store, u, f, rA, rB, rfl, ?_⟩)
    rcases fcmChecked_fault h with h | ⟨hr, h⟩
    · exact .inl h
    · obtain ⟨kind, v, b, he, hx⟩ := finishTransfer_fault h
      obtain ⟨hb, ha | ha⟩ := storeBeats_stopped he
      · obtain ⟨rfl, _⟩ := realAddress_raised ha
        exact .inr ⟨hr, b, hb, kind, ha, hx⟩
      · cases ha

/-! ## The environment and the step -/

/-- The environment touches the FSL queues and `full` only (10_state R37). -/
theorem envMove_frame (s : State) (m : EnvMove) :
    s.envMove m = { s with fslIn := (s.envMove m).fslIn, fslOut := (s.envMove m).fslOut,
                           fslFull := (s.envMove m).fslFull } := by
  cases m <;> simp only [State.envMove] <;> split <;> rfl

theorem envMoves_frame : ∀ (l : List EnvMove) (s : State),
    s.envMoves l = { s with fslIn := (s.envMoves l).fslIn, fslOut := (s.envMoves l).fslOut,
                            fslFull := (s.envMoves l).fslFull }
  | [], _ => rfl
  | m :: rest, s => by
    have h1 := envMove_frame s m
    have h2 := envMoves_frame rest (s.envMove m)
    simp only [State.envMoves]
    rw [h1] at h2
    rw [h1]
    exact h2

theorem envTurn_frame (s : State) :
    s.envTurn = { s with env := s.env.tail, fslIn := s.envTurn.fslIn, fslOut := s.envTurn.fslOut,
                         fslFull := s.envTurn.fslFull } := by
  unfold State.envTurn
  split
  · next h => cases s; simp_all
  · next b rest h =>
    have := envMoves_frame b ({ s with env := rest } : State)
    simp only [h, List.tail_cons]
    exact this

@[simp] theorem envTurn_cfg (s : State) : s.envTurn.cfg = s.cfg := by rw [envTurn_frame]
@[simp] theorem envTurn_pc (s : State) : s.envTurn.pc = s.pc := by rw [envTurn_frame]
@[simp] theorem envTurn_mem (s : State) : s.envTurn.mem = s.mem := by rw [envTurn_frame]
@[simp] theorem envTurn_priv (s : State) : s.envTurn.priv = s.priv := by rw [envTurn_frame]
@[simp] theorem envTurn_progBase (s : State) : s.envTurn.progBase = s.progBase := by rw [envTurn_frame]
@[simp] theorem envTurn_progLen (s : State) : s.envTurn.progLen = s.progLen := by rw [envTurn_frame]
@[simp] theorem envTurn_dataReloc (s : State) : s.envTurn.dataReloc = s.dataReloc := by rw [envTurn_frame]
@[simp] theorem envTurn_translation (s : State) : s.envTurn.translation = s.translation := by rw [envTurn_frame]
@[simp] theorem envTurn_gpr (s : State) : s.envTurn.gpr = s.gpr := by rw [envTurn_frame]

/-- Where a fetch is in the program, all four bytes it reads are bytes of the program text. -/
theorem fetchPlace_text {s : State} (h : s.fetchPlace = .text) {i : Nat} (hi : i < 4) :
    s.inText (s.pc + BitVec.ofNat 32 i) = true := by
  unfold State.fetchPlace at h
  split at h
  · next hc =>
    simp only [Bool.and_eq_true, beq_iff_eq, State.inText, decide_eq_true_eq] at hc ⊢
    have hm : (s.pc - s.progBase).toNat % 4 = 0 := by
      have := congrArg BitVec.toNat hc.2
      rw [BitVec.toNat_and] at this
      simpa [Nat.and_two_pow_sub_one_eq_mod _ 2] using this
    have he : (s.pc + BitVec.ofNat 32 i - s.progBase).toNat = (s.pc - s.progBase).toNat + i := by
      have := (s.pc - s.progBase).isLt
      rw [show s.pc + BitVec.ofNat 32 i - s.progBase = s.pc - s.progBase + BitVec.ofNat 32 i by ring,
        BitVec.toNat_add, BitVec.toNat_ofNat]
      omega
    omega
  · split at h <;> cases h

/-- A step that answers a next state: the run has ended and nothing changes, or the instruction at pc was decoded and ran
after the environment's turn. -/
theorem step_next {s t : State} (h : step s = .next t) :
    s.pcAligned = true ∧
      ((s.fetchPlace = .programEnd ∧ t = s) ∨
        (s.fetchPlace = .text ∧ ∃ i rest, decode s.cfg.getEnc s.fetchBytes = .ok (i, rest) ∧ exec i s.envTurn = .next t)) := by
  unfold step at h
  split at h
  · cases h
  · next ha =>
    refine ⟨by simpa using ha, ?_⟩
    split at h
    · next hp => cases h; exact .inl ⟨hp, rfl⟩
    · cases h
    · next hp =>
      split at h
      · cases h
      · next i rest hd => exact .inr ⟨hp, i, rest, hd, h⟩

end Sys2Proof.Machine
end

