-- ==== Sys2Proof/Laws/PerInstr.lean ====
section
/-! SUPPORT. Per-instruction family TableRow: the encoder gives every instruction the fixed bits its row of
spec/opcode_table.json prints. -/

namespace Sys2Proof.Laws.TableRow

/-- The row's `match` and `mask`, copied from spec/opcode_table.json. The get rows are incomplete there: only the primary
opcode is known. -/
def row : Instr → Word × Word
  | .get _ _ => (0x10000000#32, 0xFC000000#32)
  | .nget _ _ => (0x10000000#32, 0xFC000000#32)
  | .cget _ _ => (0x10000000#32, 0xFC000000#32)
  | .ncget _ _ => (0x10000000#32, 0xFC000000#32)
  | .put _ _ => (0x10000298#32, 0xFFE007FF#32)
  | .nput _ _ => (0x100002D8#32, 0xFFE007FF#32)
  | .cput _ _ => (0x100002B8#32, 0xFFE007FF#32)
  | .ncput _ _ => (0x100002F8#32, 0xFFE007FF#32)
  | .udi0fcm _ _ _ => (0x10000407#32, 0xFC0007FF#32)
  | .udi1fcm _ _ _ => (0x10000447#32, 0xFC0007FF#32)
  | .udi2fcm _ _ _ => (0x10000487#32, 0xFC0007FF#32)
  | .udi3fcm _ _ _ => (0x100004C7#32, 0xFC0007FF#32)
  | .udi4fcm _ _ _ => (0x10000507#32, 0xFC0007FF#32)
  | .udi5fcm _ _ _ => (0x10000547#32, 0xFC0007FF#32)
  | .udi6fcm _ _ _ => (0x10000587#32, 0xFC0007FF#32)
  | .udi7fcm _ _ _ => (0x100005C7#32, 0xFC0007FF#32)
  | .udi0fcmDot _ _ _ => (0x10000406#32, 0xFC0007FF#32)
  | .udi1fcmDot _ _ _ => (0x10000446#32, 0xFC0007FF#32)
  | .udi2fcmDot _ _ _ => (0x10000486#32, 0xFC0007FF#32)
  | .udi3fcmDot _ _ _ => (0x100004C6#32, 0xFC0007FF#32)
  | .udi4fcmDot _ _ _ => (0x10000506#32, 0xFC0007FF#32)
  | .udi5fcmDot _ _ _ => (0x10000546#32, 0xFC0007FF#32)
  | .udi6fcmDot _ _ _ => (0x10000586#32, 0xFC0007FF#32)
  | .udi7fcmDot _ _ _ => (0x100005C6#32, 0xFC0007FF#32)
  | .lbfcmux _ _ _ => (0x7C00040E#32, 0xFC0007FF#32)
  | .lhfcmux _ _ _ => (0x7C00044E#32, 0xFC0007FF#32)
  | .lwfcmux _ _ _ => (0x7C00048E#32, 0xFC0007FF#32)
  | .ldfcmux _ _ _ => (0x7C00060E#32, 0xFC0007FF#32)
  | .lqfcmux _ _ _ => (0x7C0004CE#32, 0xFC0007FF#32)
  | .lbfcmx _ _ _ => (0x7C00000E#32, 0xFC0007FF#32)
  | .lhfcmx _ _ _ => (0x7C00004E#32, 0xFC0007FF#32)
  | .lwfcmx _ _ _ => (0x7C00008E#32, 0xFC0007FF#32)
  | .ldfcmx _ _ _ => (0x7C00020E#32, 0xFC0007FF#32)
  | .lqfcmx _ _ _ => (0x7C0000CE#32, 0xFC0007FF#32)
  | .stbfcmux _ _ _ => (0x7C00050E#32, 0xFC0007FF#32)
  | .sthfcmux _ _ _ => (0x7C00054E#32, 0xFC0007FF#32)
  | .stwfcmux _ _ _ => (0x7C00058E#32, 0xFC0007FF#32)
  | .stdfcmux _ _ _ => (0x7C00070E#32, 0xFC0007FF#32)
  | .stqfcmux _ _ _ => (0x7C0005CE#32, 0xFC0007FF#32)
  | .stbfcmx _ _ _ => (0x7C00010E#32, 0xFC0007FF#32)
  | .sthfcmx _ _ _ => (0x7C00014E#32, 0xFC0007FF#32)
  | .stwfcmx _ _ _ => (0x7C00018E#32, 0xFC0007FF#32)
  | .stdfcmx _ _ _ => (0x7C00030E#32, 0xFC0007FF#32)
  | .stqfcmx _ _ _ => (0x7C0001CE#32, 0xFC0007FF#32)

/-- The encoding of `i` has its row's fixed bits, under every `GET_ENC` that R86 allows. -/
def Statement (i : Instr) : Prop :=
  ∀ e : GetEnc, e.wf = true → encodeWord e i &&& (row i).2 = (row i).1

/-- A word of format X-FCM or X-UDI has the bits of its base word outside the three fields. -/
theorem threeFields {base v : Word} (hv : base &&& 0xFC0007FF#32 = v) (f1 f2 f3 : Field5) :
    threeFieldWord base f1 f2 f3 &&& 0xFC0007FF#32 = v := by
  rw [threeFieldWord_and f1 f2 f3 rfl, hv]

/-- A UDI word has its pattern's bits, its number and Rcn among them. -/
theorem udiFields {n : BitVec 3} {rcn : Bool} {v : Word}
    (hv : (udiPattern ||| n.setWidth 32 <<< 6 ||| placeBit 0 rcn) &&& 0xFC0007FF#32 = v) (t a b : Field5) :
    udiWord n rcn t a b &&& 0xFC0007FF#32 = v := threeFields hv t a b

/-- A put word has its pattern's bits, the reserved field {6:10} among them. -/
theorem putFields {n c : Bool} {v : Word}
    (hv : (putPattern ||| placeBit 6 n ||| placeBit 5 c) &&& 0xFFE007FF#32 = v) (rA fsl : Field5) :
    putWord n c rA fsl &&& 0xFFE007FF#32 = v := by
  rw [putWord_eq]
  have hm : (0xFFE007FF#32 : Word) = (0xFC0007FF#32 ||| 0x03E00000#32) := by decide
  have h1 : threeFieldWord (putPattern ||| placeBit 6 n ||| placeBit 5 c) 0#5 rA fsl &&& 0xFC0007FF#32 =
      (putPattern ||| placeBit 6 n ||| placeBit 5 c) &&& 0xFC0007FF#32 := threeFieldWord_and _ _ _ (by decide)
  have h2 : ∀ b : Word, b &&& 0x03FFF800#32 = 0#32 → threeFieldWord b 0#5 rA fsl &&& 0x03E00000#32 = 0#32 := by
    intro b hb
    apply BitVec.eq_of_getLsbD_eq
    intro i hi
    by_cases hf : 21 ≤ i ∧ i < 26
    · have hz := base_field_bit hb (i := i) (by omega) (by omega)
      have e2 : rA.getLsbD (i - 16) = false := BitVec.getLsbD_of_ge _ _ (by omega)
      have e3 : fsl.getLsbD (i - 11) = false := BitVec.getLsbD_of_ge _ _ (by omega)
      simp only [threeFieldWord, BitVec.getLsbD_and, BitVec.getLsbD_or, getLsbD_placeField, hz, e2, e3,
        BitVec.getLsbD_zero, Bool.and_false, Bool.or_false, Bool.false_and]
    · have : (0x03E00000#32 : Word).getLsbD i = false := by
        by_contra hne
        exact hf (by
          have : i < 32 := hi
          interval_cases i <;> first | omega | (exact absurd rfl hne))
      simp [this]
  have hb : (putPattern ||| placeBit 6 n ||| placeBit 5 c) &&& 0x03FFF800#32 = 0#32 := by
    cases n <;> cases c <;> decide
  have hv' : (putPattern ||| placeBit 6 n ||| placeBit 5 c) &&& 0xFC0007FF#32 = v := by
    rw [← hv]; cases n <;> cases c <;> decide
  rw [hm, BitVec.and_or_distrib_left, h1, h2 _ hb, BitVec.or_zero, hv']

/-- A get word has primary opcode 4: the mask of `GET_ENC` covers the opcode and no field may share a bit with it. -/
theorem getFields (n c : Bool) (rD fsl : Field5) (e : GetEnc) (h : e.wf = true) :
    getWord e n c rD fsl &&& 0xFC000000#32 = 0x10000000#32 := by
  simp only [GetEnc.wf, Bool.and_eq_true, beq_iff_eq, decide_eq_true_eq] at h
  obtain ⟨⟨⟨⟨⟨⟨⟨⟨⟨⟨⟨⟨⟨⟨⟨⟨⟨⟨hp, hk⟩, _⟩, _⟩, _⟩, _⟩, _⟩, _⟩, _⟩, hr⟩, hf⟩, hn⟩, hc⟩, _⟩, _⟩, _⟩, _⟩, _⟩, _⟩ := h
  apply BitVec.eq_of_getLsbD_eq
  intro i hi
  by_cases ho : 26 ≤ i
  · obtain ⟨j, rfl⟩ := Nat.exists_eq_add_of_le ho
    have hj : j < 6 := by omega
    have hmask : e.mask.getLsbD (26 + j) = true := by
      have := congrArg (fun v => v.getLsbD j) hk
      simp only [BitVec.getLsbD_extractLsb', hj, decide_true, Bool.true_and] at this
      rw [this]; interval_cases j <;> rfl
    have hpat : e.pattern.getLsbD (26 + j) = (4#6).getLsbD j := by
      have := congrArg (fun v => v.getLsbD j) hp
      simpa only [BitVec.getLsbD_extractLsb', hj, decide_true, Bool.true_and] using this
    have zr := and_eq_zero_bit hr (26 + j) hmask
    have zf := and_eq_zero_bit hf (26 + j) hmask
    have zn := and_eq_zero_bit hn (26 + j) hmask
    have zc := and_eq_zero_bit hc (26 + j) hmask
    have hfield : ∀ (lo : Nat) (f : Field5), (placeField lo 31#5).getLsbD (26 + j) = false →
        (placeField lo f).getLsbD (26 + j) = false := by
      intro lo f hz
      rw [getLsbD_field_full] at hz
      rw [getLsbD_placeField]
      by_cases hlo : lo ≤ 26 + j
      · have : ¬ 26 + j < lo + 5 := by
          intro hlt; simp [hi, hlo, hlt] at hz
        simp [BitVec.getLsbD_of_ge f (26 + j - lo) (by omega)]
      · simp [hlo]
    have hbit : ∀ (lo : Nat) (v : Bool), (placeBit lo true).getLsbD (26 + j) = false →
        (placeBit lo v).getLsbD (26 + j) = false := by
      intro lo v hz
      rw [getLsbD_placeBit] at hz ⊢
      cases v <;> simp_all
    simp only [getWord, BitVec.getLsbD_and, BitVec.getLsbD_or, hpat, hfield _ rD zr, hfield _ fsl zf, hbit _ n zn,
      hbit _ c zc, Bool.or_false]
    interval_cases j <;> rfl
  · have h1 : (0xFC000000#32 : Word).getLsbD i = false := by
      have : i < 26 := by omega
      interval_cases i <;> rfl
    have h2 : (0x10000000#32 : Word).getLsbD i = false := by
      have : i < 26 := by omega
      interval_cases i <;> rfl
    rw [BitVec.getLsbD_and, h1, h2, Bool.and_false]

theorem get (rD fsl : Field5) : Statement (.get rD fsl) := fun e h => getFields _ _ rD fsl e h
theorem nget (rD fsl : Field5) : Statement (.nget rD fsl) := fun e h => getFields _ _ rD fsl e h
theorem cget (rD fsl : Field5) : Statement (.cget rD fsl) := fun e h => getFields _ _ rD fsl e h
theorem ncget (rD fsl : Field5) : Statement (.ncget rD fsl) := fun e h => getFields _ _ rD fsl e h
theorem put (rA fsl : Field5) : Statement (.put rA fsl) := fun _ _ => putFields rfl rA fsl
theorem nput (rA fsl : Field5) : Statement (.nput rA fsl) := fun _ _ => putFields rfl rA fsl
theorem cput (rA fsl : Field5) : Statement (.cput rA fsl) := fun _ _ => putFields rfl rA fsl
theorem ncput (rA fsl : Field5) : Statement (.ncput rA fsl) := fun _ _ => putFields rfl rA fsl
theorem udi0fcm (t a b : Field5) : Statement (.udi0fcm t a b) := fun _ _ => udiFields rfl t a b
theorem udi1fcm (t a b : Field5) : Statement (.udi1fcm t a b) := fun _ _ => udiFields rfl t a b
theorem udi2fcm (t a b : Field5) : Statement (.udi2fcm t a b) := fun _ _ => udiFields rfl t a b
theorem udi3fcm (t a b : Field5) : Statement (.udi3fcm t a b) := fun _ _ => udiFields rfl t a b
theorem udi4fcm (t a b : Field5) : Statement (.udi4fcm t a b) := fun _ _ => udiFields rfl t a b
theorem udi5fcm (t a b : Field5) : Statement (.udi5fcm t a b) := fun _ _ => udiFields rfl t a b
theorem udi6fcm (t a b : Field5) : Statement (.udi6fcm t a b) := fun _ _ => udiFields rfl t a b
theorem udi7fcm (t a b : Field5) : Statement (.udi7fcm t a b) := fun _ _ => udiFields rfl t a b
theorem udi0fcmDot (t a b : Field5) : Statement (.udi0fcmDot t a b) := fun _ _ => udiFields rfl t a b
theorem udi1fcmDot (t a b : Field5) : Statement (.udi1fcmDot t a b) := fun _ _ => udiFields rfl t a b
theorem udi2fcmDot (t a b : Field5) : Statement (.udi2fcmDot t a b) := fun _ _ => udiFields rfl t a b
theorem udi3fcmDot (t a b : Field5) : Statement (.udi3fcmDot t a b) := fun _ _ => udiFields rfl t a b
theorem udi4fcmDot (t a b : Field5) : Statement (.udi4fcmDot t a b) := fun _ _ => udiFields rfl t a b
theorem udi5fcmDot (t a b : Field5) : Statement (.udi5fcmDot t a b) := fun _ _ => udiFields rfl t a b
theorem udi6fcmDot (t a b : Field5) : Statement (.udi6fcmDot t a b) := fun _ _ => udiFields rfl t a b
theorem udi7fcmDot (t a b : Field5) : Statement (.udi7fcmDot t a b) := fun _ _ => udiFields rfl t a b
theorem lbfcmux (x y z : Field5) : Statement (.lbfcmux x y z) := fun _ _ => threeFields rfl x y z
theorem lhfcmux (x y z : Field5) : Statement (.lhfcmux x y z) := fun _ _ => threeFields rfl x y z
theorem lwfcmux (x y z : Field5) : Statement (.lwfcmux x y z) := fun _ _ => threeFields rfl x y z
theorem ldfcmux (x y z : Field5) : Statement (.ldfcmux x y z) := fun _ _ => threeFields rfl x y z
theorem lqfcmux (x y z : Field5) : Statement (.lqfcmux x y z) := fun _ _ => threeFields rfl x y z
theorem lbfcmx (x y z : Field5) : Statement (.lbfcmx x y z) := fun _ _ => threeFields rfl x y z
theorem lhfcmx (x y z : Field5) : Statement (.lhfcmx x y z) := fun _ _ => threeFields rfl x y z
theorem lwfcmx (x y z : Field5) : Statement (.lwfcmx x y z) := fun _ _ => threeFields rfl x y z
theorem ldfcmx (x y z : Field5) : Statement (.ldfcmx x y z) := fun _ _ => threeFields rfl x y z
theorem lqfcmx (x y z : Field5) : Statement (.lqfcmx x y z) := fun _ _ => threeFields rfl x y z
theorem stbfcmux (x y z : Field5) : Statement (.stbfcmux x y z) := fun _ _ => threeFields rfl x y z
theorem sthfcmux (x y z : Field5) : Statement (.sthfcmux x y z) := fun _ _ => threeFields rfl x y z
theorem stwfcmux (x y z : Field5) : Statement (.stwfcmux x y z) := fun _ _ => threeFields rfl x y z
theorem stdfcmux (x y z : Field5) : Statement (.stdfcmux x y z) := fun _ _ => threeFields rfl x y z
theorem stqfcmux (x y z : Field5) : Statement (.stqfcmux x y z) := fun _ _ => threeFields rfl x y z
theorem stbfcmx (x y z : Field5) : Statement (.stbfcmx x y z) := fun _ _ => threeFields rfl x y z
theorem sthfcmx (x y z : Field5) : Statement (.sthfcmx x y z) := fun _ _ => threeFields rfl x y z
theorem stwfcmx (x y z : Field5) : Statement (.stwfcmx x y z) := fun _ _ => threeFields rfl x y z
theorem stdfcmx (x y z : Field5) : Statement (.stdfcmx x y z) := fun _ _ => threeFields rfl x y z
theorem stqfcmx (x y z : Field5) : Statement (.stqfcmx x y z) := fun _ _ => threeFields rfl x y z

end Sys2Proof.Laws.TableRow
end

