-- ==== Sys2Proof/Tests/Slice0.lean ====
section
/-! SUPPORT. Tests, each expected value from spec/: well-formedness, decoding (95_test_vectors section 3), one step per vector
(section 4), and a witness for every statement that has hypotheses. -/

namespace Sys2Proof.Tests

open Sys2Proof Sys2Proof.Machine

/-! ## Helpers -/

/-- The `udi_def` of REF (95_test_vectors section 2). -/
def refUdis : Vector (Option UdiMeaning) 16 :=
  (((Vector.replicate 16 none).set 1 (some ⟨.gprDest, .gprSrc, .gprSrc, .refAdd⟩)).set 0
    (some ⟨.gprDest, .gprSrc, .gprSrc, .refAddRecord⟩)).set 3 (some ⟨.fcr, .gprSrc, .imm5, .refShiftToFcr⟩) |>.set 5
    (some ⟨.gprDest, .fcr, .imm5, .refReadFcr⟩)

/-- A launch under REF: pc = 0x100, no program yet. -/
def ref : State :=
  { State.reset with
    pc := 0x100#32, progBase := 0x100#32, cfg := { Config.launch with fcmLogic := .reference, udi := refUdis } }

/-- Every UDI slot holds the same meaning. -/
def allUdis (m : UdiMeaning) : State := { ref with cfg := { ref.cfg with udi := Vector.replicate 16 (some m) } }

/-- The one-word program `w` loaded at pc. -/
def prog (w : Nat) (s : State) : State := s.withFetchWord 32 w

/-- Bytes put into memory from `a` up. -/
def bytes (a : Word) : List Byte → State → State
  | [], s => s
  | v :: rest, s => bytes (a + 1#32) rest { s with mem := s.mem.write a v }

/-- The four words of FCM register `f`. -/
def fcr (f : Field5) (w0 w1 w2 w3 : Word) (s : State) : State :=
  { s with fcm := writeFcr (writeFcr (writeFcr (writeFcr s.fcm f 0 w0) f 1 w1) f 2 w2) f 3 w3 }

/-- Memory of the load vectors. -/
def loadMem (s : State) : State := bytes 0x3000#32 [0x80#8, 0x7F#8, 0xC3#8, 4#8, 5#8, 6#8, 7#8, 8#8] s

/-- F[1] and the memory of the store vectors. -/
def storeStart : State :=
  bytes 0x4000#32 (List.replicate 16 0xEE#8) (fcr 1 0x11AB33C4#32 0x55667788#32 0x99AABBCC#32 0xDDEEFF00#32 ref)

/-- Relocation on, with the given entries. -/
def tlb (l : List TlbEntry) (s : State) : State :=
  { s with dataReloc := true, translation := { tlb := .entries l, realLittle := [] } }

/-- A 4-byte entry that maps `a` to itself. -/
def entry (a : Word) (z : Zone) : TlbEntry := { covers := ⟨a, 4⟩, realBase := a, endian := .big, zone := z, valid := true }

/-- The outcome is a next state of which `p` holds. -/
def nextIs (o : Host.Outcome State Fault Refusal) (p : State → Bool) : Bool :=
  match o with
  | .next t => p t
  | .fault _ => false
  | .refused _ => false

/-- The outcome is a fault of which `p` holds. -/
def faultIs (o : Host.Outcome State Fault Refusal) (p : Fault → Bool) : Bool :=
  match o with
  | .next _ => false
  | .fault x => p x
  | .refused _ => false

/-- The outcome is that refusal. -/
def refusedAs (o : Host.Outcome State Fault Refusal) (r : Refusal) : Bool :=
  match o with
  | .next _ => false
  | .fault _ => false
  | .refused q => q == r

/-! ## WellFormed: the one check, on each of the ten update forms (R95) -/

theorem test_ra0_refused : ∀ i ∈ ([.lbfcmux 1 0 5, .lhfcmux 1 0 5, .lwfcmux 1 0 5, .ldfcmux 1 0 5, .lqfcmux 1 0 5,
    .stbfcmux 1 0 5, .sthfcmux 1 0 5, .stwfcmux 1 0 5, .stdfcmux 1 0 5, .stqfcmux 1 0 5] : List Instr),
    i.wellFormed = false := by decide

theorem test_ra0_allowed_elsewhere : (Instr.lbfcmx 1 0 5).wellFormed = true ∧ (Instr.put 0 31).wellFormed = true ∧
    (Instr.udi0fcm 0 0 0).wellFormed = true ∧ (Instr.lbfcmux 0 31 0).wellFormed = true := by decide

/-! ## Decoding: a word of every constructor -/

theorem test_decode_loads_update : decodeTableWord 32 0x7C242C0E = some (.lbfcmux 1 4 5) ∧
    decodeTableWord 32 0x7C442C4E = some (.lhfcmux 2 4 5) ∧ decodeTableWord 32 0x7FE1148E = some (.lwfcmux 31 1 2) ∧
    decodeTableWord 32 0x7C1FF60E = some (.ldfcmux 0 31 30) ∧ decodeTableWord 32 0x7C242CCE = some (.lqfcmux 1 4 5) := by
  decide

theorem test_decode_loads : decodeTableWord 32 0x7C20280E = some (.lbfcmx 1 0 5) ∧
    decodeTableWord 32 0x7C44284E = some (.lhfcmx 2 4 5) ∧ decodeTableWord 32 0x7C01108E = some (.lwfcmx 0 1 2) ∧
    decodeTableWord 32 0x7CA01A0E = some (.ldfcmx 5 0 3) ∧ decodeTableWord 32 0x7CCA58CE = some (.lqfcmx 6 10 11) := by
  decide

theorem test_decode_stores_update : decodeTableWord 32 0x7C242D0E = some (.stbfcmux 1 4 5) ∧
    decodeTableWord 32 0x7C442D4E = some (.sthfcmux 2 4 5) ∧ decodeTableWord 32 0x7C262D8E = some (.stwfcmux 1 6 5) ∧
    decodeTableWord 32 0x7CE84F0E = some (.stdfcmux 7 8 9) ∧ decodeTableWord 32 0x7C262DCE = some (.stqfcmux 1 6 5) := by
  decide

theorem test_decode_stores : decodeTableWord 32 0x7C20290E = some (.stbfcmx 1 0 5) ∧
    decodeTableWord 32 0x7C44294E = some (.sthfcmx 2 4 5) ∧ decodeTableWord 32 0x7C60018E = some (.stwfcmx 3 0 0) ∧
    decodeTableWord 32 0x7C642B0E = some (.stdfcmx 3 4 5) ∧ decodeTableWord 32 0x7FFFF9CE = some (.stqfcmx 31 31 31) := by
  decide

theorem test_decode_puts : decodeTableWord 32 0x10030298 = some (.put 3 0) ∧
    decodeTableWord 32 0x10071AD8 = some (.nput 7 3) ∧ decodeTableWord 32 0x1000FAB8 = some (.cput 0 31) ∧
    decodeTableWord 32 0x101FFAF8 = some (.ncput 31 31) := by decide

/-- Under the test instance of 92_eei_decisions D11: 0x10000218 | rD << 21 | FSL << 11 | n << 6 | c << 5. -/
theorem test_decode_gets : decodeTableWord 32 0x10600218 = some (.get 3 0) ∧
    decodeTableWord 32 0x10801258 = some (.nget 4 2) ∧ decodeTableWord 32 0x10A00A38 = some (.cget 5 1) ∧
    decodeTableWord 32 0x1000FA78 = some (.ncget 0 31) := by decide

theorem test_decode_udi_undotted : decodeTableWord 32 0x10000407 = some (.udi0fcm 0 0 0) ∧
    decodeTableWord 32 0x13FFFC47 = some (.udi1fcm 31 31 31) ∧ decodeTableWord 32 0x10000487 = some (.udi2fcm 0 0 0) ∧
    decodeTableWord 32 0x10221CC7 = some (.udi3fcm 1 2 3) ∧ decodeTableWord 32 0x13FFFD07 = some (.udi4fcm 31 31 31) ∧
    decodeTableWord 32 0x114B6547 = some (.udi5fcm 10 11 12) ∧ decodeTableWord 32 0x13FFFD87 = some (.udi6fcm 31 31 31) ∧
    decodeTableWord 32 0x100005C7 = some (.udi7fcm 0 0 0) := by decide

theorem test_decode_udi_dotted : decodeTableWord 32 0x10000406 = some (.udi0fcmDot 0 0 0) ∧
    decodeTableWord 32 0x13FFFC46 = some (.udi1fcmDot 31 31 31) ∧ decodeTableWord 32 0x10000486 = some (.udi2fcmDot 0 0 0) ∧
    decodeTableWord 32 0x10221CC6 = some (.udi3fcmDot 1 2 3) ∧ decodeTableWord 32 0x13FFFD06 = some (.udi4fcmDot 31 31 31) ∧
    decodeTableWord 32 0x10000546 = some (.udi5fcmDot 0 0 0) ∧ decodeTableWord 32 0x13FFFD86 = some (.udi6fcmDot 31 31 31) ∧
    decodeTableWord 32 0x13E08DC6 = some (.udi7fcmDot 31 0 17) := by decide

theorem test_must_not_decode : ∀ w ∈ [0x7C01108F, 0x7C60148E, 0x10230298, 0x10030299, 0x10221807, 0x7C011090, 0x60000000,
    0x7C20050E], decodeTableWord 32 w = none := by decide

theorem test_rejections_named : decodeWord Config.launch.getEnc 0x7C01108F#32 = .error .invalidFormReserved ∧
    decodeWord Config.launch.getEnc 0x7C60148E#32 = .error .invalidFormRA0 ∧
    decodeWord Config.launch.getEnc 0x60000000#32 = .error (.notInExtension 0x60000000#32) ∧
    decode Config.launch.getEnc [0x7C#8, 0x24#8, 0x2C#8] = .error .truncated := by decide

/-! ## FSL get (95_test_vectors G1 to G11) -/

/-- `ref` with one input queue. -/
def received (x : Field5) (q : List FslWord) : State := ref.setInQueue x q

theorem test_G1_get : nextIs (step (prog 0x10600218 (received 0 [⟨0x2A#32, false⟩]))) (fun t =>
    t.readGpr 3 == 0x2A#32 && t.xerOv == false && t.xerCa == false && t.inQueue 0 == [] && t.pc == 0x104#32) = true := by
  decide

theorem test_G2_get_mismatch : nextIs (step (prog 0x10600218 (received 0 [⟨0xDEADBEEF#32, true⟩]))) (fun t =>
    t.readGpr 3 == 0xDEADBEEF#32 && t.xerOv && t.inQueue 0 == []) = true := by decide

theorem test_G3_get_stalls : nextIs (step (prog 0x10600218 ref)) (fun t => t.pc == 0x100#32 && t.readGpr 3 == 0#32) = true := by
  decide

theorem test_G4_nget_empty : nextIs (step (prog 0x10801258 ref)) (fun t => t.xerCa && t.pc == 0x104#32 && t.draws == 1) = true := by
  decide

theorem test_G5_nget : nextIs (step (prog 0x10801258 (received 2 [⟨0x11223344#32, true⟩]))) (fun t =>
    t.readGpr 4 == 0x11223344#32 && t.xerCa == false && t.xerOv) = true := by decide

theorem test_G6_cget : nextIs (step (prog 0x10A00A38 (received 1 [⟨5#32, true⟩, ⟨6#32, false⟩]))) (fun t =>
    t.readGpr 5 == 5#32 && t.xerOv == false && t.inQueue 1 == [⟨6#32, false⟩]) = true := by decide

theorem test_G7_cget_mismatch : nextIs (step (prog 0x10A00A38 (received 1 [⟨6#32, false⟩]))) (fun t =>
    t.readGpr 5 == 6#32 && t.xerOv) = true := by decide

theorem test_G8_ncget_r0 : nextIs (step (prog 0x1000FA78 (received 31 [⟨0xFFFFFFFF#32, true⟩]))) (fun t =>
    t.readGpr 0 == 0xFFFFFFFF#32 && t.xerCa == false && t.xerOv == false) = true := by decide

theorem test_G9_user_mode : faultIs (step (prog 0x10600218 { received 0 [⟨1#32, false⟩] with priv := .user })) (fun x =>
    match x with
    | .programPrivileged r => r.pc == 0x100#32 && r.info == 0x10600218#32 && r.frozen.inQueue 0 == [⟨1#32, false⟩]
    | _ => false) = true := by decide

theorem test_G10_no_such_fsl : refusedAs (step (prog 0x10602258 { ref with cfg := { ref.cfg with nFsl := 4 } })) .noSuchFsl =
    true := by decide

theorem test_G11_ov_cleared : nextIs (step (prog 0x10600218 { received 0 [⟨7#32, false⟩] with xerOv := true })) (fun t =>
    t.xerOv == false) = true := by decide

/-! ## FSL put (95_test_vectors P1 to P8) -/

theorem test_P1_put : nextIs (step (prog 0x10030298 ((ref.writeGpr 3 0x12345678#32).setOutQueue 0 [⟨9#32, true⟩]))) (fun t =>
    t.outQueue 0 == [⟨9#32, true⟩, ⟨0x12345678#32, false⟩] && t.pc == 0x104#32) = true := by decide

theorem test_P2_put_stalls : nextIs (step (prog 0x10030298 (ref.setFull 0 true))) (fun t =>
    t.outQueue 0 == [] && t.pc == 0x100#32) = true := by decide

theorem test_P3_nput_full : nextIs (step (prog 0x10071AD8 ((ref.writeGpr 7 1#32).setFull 3 true))) (fun t =>
    t.xerCa && t.outQueue 3 == [] && t.pc == 0x104#32) = true := by decide

theorem test_P4_nput : nextIs (step (prog 0x10071AD8 { ref.writeGpr 7 1#32 with xerCa := true })) (fun t =>
    t.xerCa == false && t.outQueue 3 == [⟨1#32, false⟩]) = true := by decide

theorem test_P5_cput_r0 : nextIs (step (prog 0x1000FAB8 { ref.writeGpr 0 0xAABBCCDD#32 with xerCa := true, xerOv := true }))
    (fun t => t.outQueue 31 == [⟨0xAABBCCDD#32, true⟩] && t.xerCa && t.xerOv) = true := by decide

theorem test_P6_ncput : nextIs (step (prog 0x101FFAF8 { ref.writeGpr 31 9#32 with xerCa := true })) (fun t =>
    t.outQueue 31 == [⟨9#32, true⟩] && t.xerCa == false) = true := by decide

theorem test_P7_user_mode : faultIs (step (prog 0x10071AD8 { ref with priv := .user })) (fun x =>
    match x with
    | .programPrivileged r => r.info == 0x10071AD8#32
    | _ => false) = true := by decide

/-- Program C, step 2: the environment clears full(1) before the stalled cput runs again. -/
theorem test_stalled_cput_goes_on : nextIs (step (prog 0x10030AB8
    { (ref.writeGpr 3 0xCAFE0001#32).setFull 1 true with env := [[.setFull 1 false]] })) (fun t =>
    t.outQueue 1 == [⟨0xCAFE0001#32, true⟩] && t.pc == 0x104#32 && t.env == []) = true := by decide

/-! ## UDI (95_test_vectors U1 to U8) -/

theorem test_U1_udi0fcm : nextIs (step (prog 0x11073C07 { ref.writeGpr 7 0xFFFFFF80#32 with cr := 0x12345678#32 })) (fun t =>
    t.readGpr 8 == 0xFFFFFF00#32 && t.cr == 0x12345678#32 && t.pc == 0x104#32) = true := by decide

theorem test_U2_udi0fcmDot_lt : nextIs (step (prog 0x11073C06 { ref.writeGpr 7 0xFFFFFF80#32 with cr := 0x12345678#32 }))
    (fun t => t.readGpr 8 == 0xFFFFFF00#32 && t.cr == 0x82345678#32) = true := by decide

theorem test_U3_udi0fcmDot_eq : nextIs (step (prog 0x10611406 ((ref.writeGpr 1 1#32).writeGpr 2 0xFFFFFFFF#32))) (fun t =>
    t.readGpr 3 == 0#32 && t.cr == 0x20000000#32) = true := by decide

theorem test_U4_udi1fcm : nextIs (step (prog 0x10A4E447 (ref.writeGpr 4 0xF#32))) (fun t =>
    readFcr t.fcm 5 0 == 0xF0000000#32 && t.readGpr 5 == 0#32) = true := by decide

theorem test_U5_udi2fcm : nextIs (step (prog 0x10E21C87 (fcr 2 1#32 2#32 3#32 4#32 ref))) (fun t => t.readGpr 7 == 4#32) =
    true := by decide

theorem test_U6_udi3fcm_undefined : refusedAs (step (prog 0x10221CC7 ref)) .udiNotDefined = true := by decide

theorem test_U7_udi1fcmDot_undefined : refusedAs (step (prog 0x10221C46 ref)) .udiNotDefined = true := by decide

theorem test_U8_udi_user_mode : nextIs (step (prog 0x11073C07 { ref.writeGpr 7 0xFFFFFF80#32 with priv := .user })) (fun t =>
    t.readGpr 8 == 0xFFFFFF00#32) = true := by decide

/-! ## FCM loads (95_test_vectors L1 to L15) -/

theorem test_L1_lbfcmx : ∃ t, step (prog 0x7C20280E (loadMem (ref.writeGpr 5 0x3000#32))) = .next t ∧
    t.readGpr 5 = 0x3000#32 ∧ readFcr t.fcm 1 0 = 0xFFFFFF80#32 := by
  refine ⟨_, rfl, by decide, ?_⟩
  have h : (extractLane 0 1 (insertLane 0 1 0x80#32 (Config.freeWord 0))).setWidth 8 = 0x80#8 := by
    apply BitVec.eq_of_getLsbD_eq
    intro i hi
    interval_cases i <;> simp [extractLane, insertLane, lowBytes, laneLo]
  change ((extractLane 0 1 (insertLane 0 1 0x80#32 (Config.freeWord 0))).setWidth 8).signExtend 32 = 0xFFFFFF80#32
  rw [h]
  rfl

theorem test_L5_lhfcmx : ∃ t, step (prog 0x7C44284E (loadMem ((ref.writeGpr 4 0x2FFF#32).writeGpr 5 4#32))) = .next t ∧
    t.readGpr 4 = 0x2FFF#32 ∧ readFcr t.fcm 2 0 = 0xFFFFC304#32 := by
  refine ⟨_, rfl, by decide, ?_⟩
  have h : (extractLane 16 2 (insertLane 16 2 0xC304#32 (Config.freeWord 0))).setWidth 16 = 0xC304#16 := by
    apply BitVec.eq_of_getLsbD_eq
    intro i hi
    interval_cases i <;> simp [extractLane, insertLane, lowBytes, laneLo]
  change ((extractLane 16 2 (insertLane 16 2 0xC304#32 (Config.freeWord 0))).setWidth 16).signExtend 32 = 0xFFFFC304#32
  rw [h]
  rfl

theorem test_L6_lhfcmux : ∃ t, step (prog 0x7C442C4E (loadMem ((ref.writeGpr 4 0x3000#32).writeGpr 5 1#32))) = .next t ∧
    t.readGpr 4 = 0x3000#32 ∧ readFcr t.fcm 2 0 = 0xFFFF807F#32 := by
  refine ⟨_, rfl, by decide, ?_⟩
  have h : (extractLane 0 2 (insertLane 0 2 0x807F#32 (Config.freeWord 0))).setWidth 16 = 0x807F#16 := by
    apply BitVec.eq_of_getLsbD_eq
    intro i hi
    interval_cases i <;> simp [extractLane, insertLane, lowBytes, laneLo]
  change ((extractLane 0 2 (insertLane 0 2 0x807F#32 (Config.freeWord 0))).setWidth 16).signExtend 32 = 0xFFFF807F#32
  rw [h]
  rfl

/-- As L3 with update: the byte 0xC3 in [15:8]. -/
theorem test_lbfcmux : ∃ t, step (prog 0x7C242C0E (loadMem ((ref.writeGpr 4 0x3000#32).writeGpr 5 2#32))) = .next t ∧
    t.readGpr 4 = 0x3002#32 ∧ readFcr t.fcm 1 0 = 0xFFFFFFC3#32 := by
  refine ⟨_, rfl, by decide, ?_⟩
  have h : (extractLane 16 1 (insertLane 16 1 0xC3#32 (Config.freeWord 0))).setWidth 8 = 0xC3#8 := by
    apply BitVec.eq_of_getLsbD_eq
    intro i hi
    interval_cases i <;> simp [extractLane, insertLane, lowBytes, laneLo]
  change ((extractLane 16 1 (insertLane 16 1 0xC3#32 (Config.freeWord 0))).setWidth 8).signExtend 32 = 0xFFFFFFC3#32
  rw [h]
  rfl

theorem test_L7_lwfcmx : nextIs (step (prog 0x7C01108E (loadMem ((ref.writeGpr 1 0x3001#32).writeGpr 2 2#32)))) (fun t =>
    readFcr t.fcm 0 0 == 0x807FC304#32 && t.readGpr 1 == 0x3001#32) = true := by decide

theorem test_L8_ldfcmx : nextIs (step (prog 0x7CA01A0E (loadMem ((ref.writeGpr 0 0x99999999#32).writeGpr 3 0x3003#32)))) (fun t =>
    readFcr t.fcm 5 0 == 0x807FC304#32 && readFcr t.fcm 5 1 == 0x05060708#32) = true := by decide

theorem test_L9_lqfcmux : nextIs (step (prog 0x7C242CCE (bytes 0x10#32 [0#8, 1#8, 2#8, 3#8, 4#8, 5#8, 6#8, 7#8, 8#8, 9#8, 10#8,
    11#8, 12#8, 13#8, 14#8, 15#8] ((ref.writeGpr 4 0xFFFFFFF0#32).writeGpr 5 0x20#32)))) (fun t =>
    readFcr t.fcm 1 0 == 0x00010203#32 && readFcr t.fcm 1 1 == 0x04050607#32 && readFcr t.fcm 1 2 == 0x08090A0B#32 &&
    readFcr t.fcm 1 3 == 0x0C0D0E0F#32 && t.readGpr 4 == 0x10#32) = true := by decide

theorem test_L10_lwfcmux_rA_is_rB : nextIs (step (prog 0x7C64248E (loadMem (ref.writeGpr 4 0x1800#32)))) (fun t =>
    readFcr t.fcm 3 0 == 0x807FC304#32 && t.readGpr 4 == 0x3000#32) = true := by decide

theorem test_L11_ldfcmux_wraps : nextIs (step (prog 0x7C1FF60E (bytes 0xFFFFFFFC#32
    [0xAA#8, 0xBB#8, 0xCC#8, 0xDD#8, 1#8, 2#8, 3#8, 4#8] (ref.writeGpr 31 0xFFFFFFFC#32)))) (fun t =>
    readFcr t.fcm 0 0 == 0xAABBCCDD#32 && readFcr t.fcm 0 1 == 0x01020304#32 && t.readGpr 31 == 0xFFFFFFFC#32) = true := by
  decide

/-- Two beats of a quad load at EA 0x3000. -/
theorem test_lqfcmx : nextIs (step (prog 0x7CCA58CE (loadMem (ref.writeGpr 10 0x3000#32)))) (fun t =>
    readFcr t.fcm 6 0 == 0x807FC304#32 && readFcr t.fcm 6 1 == 0x05060708#32 && t.readGpr 10 == 0x3000#32) = true := by decide

theorem test_L12_invalid_form : refusedAs (step (prog 0x7C60148E ref)) .invalidFormRA0 = true := by decide

theorem test_L13_misaligned : faultIs (step (prog 0x7C01108E { (ref.writeGpr 1 0x3001#32).writeGpr 2 2#32 with
    cfg := { ref.cfg with misalign := .fault } })) (fun x =>
    match x with
    | .alignment r => r.pc == 0x100#32 && r.info == 0x3003#32 && readFcr r.frozen.fcm 0 0 == 0#32
    | _ => false) = true := by decide

theorem test_L14_tlb_miss_beat1 : faultIs (step (prog 0x7CA01A0E (tlb [entry 0x3000#32 .unprotected]
    (ref.writeGpr 3 0x3000#32)))) (fun x =>
    match x with
    | .dataTlbMiss r => r.pc == 0x100#32 && r.info == 0x3004#32 && r.frozen.pc == 0x100#32
    | _ => false) = true := by decide

theorem test_L15_no_access : faultIs (step (prog 0x7C20280E { tlb [entry 0x3000#32 .noAccess] (ref.writeGpr 5 0x3000#32) with
    priv := .user })) (fun x =>
    match x with
    | .dataStorage r => r.pc == 0x100#32 && r.info == 0x3000#32
    | _ => false) = true := by decide

/-! ## FCM stores (95_test_vectors S1 to S9) -/

theorem test_S1_stbfcmx : nextIs (step (prog 0x7C20290E (storeStart.writeGpr 5 0x4002#32))) (fun t =>
    t.fcmData == 0xC4C4C4C4#32 && t.mem.readBytes 0x4000#32 4 == 0xEEEEC4EE#32) = true := by decide

theorem test_S2_sthfcmx : nextIs (step (prog 0x7C24294E ((storeStart.writeGpr 4 0x4000#32).writeGpr 5 3#32))) (fun t =>
    t.fcmData == 0x33C433C4#32 && t.mem.readBytes 0x4000#32 4 == 0xEEEE33C4#32 && t.readGpr 4 == 0x4000#32) = true := by decide

theorem test_S3_stwfcmux : nextIs (step (prog 0x7C262D8E ((storeStart.writeGpr 6 0x4000#32).writeGpr 5 6#32))) (fun t =>
    t.mem.readBytes 0x4004#32 4 == 0x11AB33C4#32 && t.mem.readBytes 0x4008#32 4 == 0xEEEEEEEE#32 &&
    t.readGpr 6 == 0x4004#32) = true := by decide

theorem test_S4_stdfcmx : nextIs (step (prog 0x7C242B0E ((storeStart.writeGpr 4 0x4000#32).writeGpr 5 4#32))) (fun t =>
    t.mem.readBytes 0x4004#32 4 == 0x11AB33C4#32 && t.mem.readBytes 0x4008#32 4 == 0x55667788#32) = true := by decide

theorem test_S5_stqfcmux : nextIs (step (prog 0x7C262DCE ((storeStart.writeGpr 6 0x3FF0#32).writeGpr 5 0x13#32))) (fun t =>
    t.mem.readBytes 0x4000#32 4 == 0x11AB33C4#32 && t.mem.readBytes 0x4004#32 4 == 0x55667788#32 &&
    t.mem.readBytes 0x4008#32 4 == 0x99AABBCC#32 && t.mem.readBytes 0x400C#32 4 == 0xDDEEFF00#32 &&
    t.readGpr 6 == 0x4000#32) = true := by decide

theorem test_S6_stbfcmux : nextIs (step (prog 0x7C242D0E (storeStart.writeGpr 4 0x4001#32))) (fun t =>
    t.mem.readBytes 0x4000#32 4 == 0xEEC4EEEE#32 && t.readGpr 4 == 0x4001#32) = true := by decide

theorem test_S7_read_only_beat1 : faultIs (step (prog 0x7C242B0E (tlb [entry 0x4004#32 .unprotected, entry 0x4008#32 .readOnly]
    ((storeStart.writeGpr 4 0x4000#32).writeGpr 5 4#32)))) (fun x =>
    match x with
    | .dataStorage r => r.info == 0x4008#32 && r.frozen.pc == 0x100#32
    | _ => false) = true := by decide

theorem test_S8_store_into_text : refusedAs (step { prog 0x7C262D8E
    { storeStart.writeGpr 6 0x4000#32 with pc := 0x4000#32 } with progBase := 0x4000#32 }) .storeToProgramText = true := by decide

/-- As S3 without update, a word at its place in the double and quad forms with and without update. -/
theorem test_stwfcmx_r0 : nextIs (step (prog 0x7C60018E (fcr 3 0xAABBCCDD#32 0#32 0#32 0#32 (ref.writeGpr 0 0x4006#32))))
    (fun t => t.mem.readBytes 0x4004#32 4 == 0xAABBCCDD#32 && t.readGpr 0 == 0x4006#32) = true := by decide

theorem test_stdfcmux : nextIs (step (prog 0x7CE84F0E (fcr 7 1#32 2#32 3#32 4#32 (ref.writeGpr 8 0x4000#32)))) (fun t =>
    t.mem.readBytes 0x4000#32 4 == 1#32 && t.mem.readBytes 0x4004#32 4 == 2#32 && t.readGpr 8 == 0x4000#32) = true := by decide

theorem test_stqfcmx : nextIs (step (prog 0x7FFFF9CE (fcr 31 1#32 2#32 3#32 4#32 (ref.writeGpr 31 0x2000#32)))) (fun t =>
    t.mem.readBytes 0x4000#32 4 == 1#32 && t.mem.readBytes 0x4004#32 4 == 2#32 && t.mem.readBytes 0x4008#32 4 == 3#32 &&
    t.mem.readBytes 0x400C#32 4 == 4#32) = true := by decide

theorem test_sthfcmux : nextIs (step (prog 0x7C442D4E (fcr 2 0x1234ABCD#32 0#32 0#32 0#32 (ref.writeGpr 4 0x4001#32)))) (fun t =>
    t.mem.readBytes 0x4000#32 4 == 0xABCD0000#32 && t.readGpr 4 == 0x4000#32) = true := by decide

/-! ## Witnesses: for each statement with hypotheses, a concrete case of each of its clauses -/

/-- The state of S3, its program loaded. -/
def storing : State := prog 0x7C262D8E ((storeStart.writeGpr 6 0x4000#32).writeGpr 5 6#32)

theorem inv_of_reset_cfg {s : State} (h : s.mem.wf = true ∧ s.pcAligned = true ∧ s.cfgWf = true) (hn : s.cfg.nFsl = 32) :
    s.Inv := by
  refine ⟨h.1, h.2.1, h.2.2, fun x hx => ?_⟩
  have := x.isLt
  simp only [State.hasFsl, hn, decide_eq_false_iff_not] at hx
  omega

theorem witness_StepKeepsInvariant : storing.Inv ∧ ∃ t, step storing = .next t :=
  ⟨inv_of_reset_cfg (by decide) rfl, _, rfl⟩

theorem witness_StepKeepsProgramText : storing.mem.wf = true ∧ ∃ t, step storing = .next t := ⟨by decide, _, rfl⟩

theorem witness_StepRunsDecodedInstruction : storing.pcAligned = true ∧ storing.fetchPlace = .text ∧ storing.env = [] ∧
    decode storing.cfg.getEnc storing.fetchBytes = .ok (.stwfcmux 1 6 5, []) := by decide

theorem witness_StepOutsideTheText : ({ ref with pc := 0x102#32 } : State).pcAligned = false ∧
    (ref.pcAligned = true ∧ ref.fetchPlace = .programEnd) ∧
    (({ ref with pc := 0x104#32 } : State).pcAligned = true ∧ ({ ref with pc := 0x104#32 } : State).fetchPlace = .outside) ∧
    (prog 0x60000000 ref).pcAligned = true ∧ (prog 0x60000000 ref).fetchPlace = .text ∧
    decode (prog 0x60000000 ref).cfg.getEnc (prog 0x60000000 ref).fetchBytes = .error (.notInExtension 0x60000000#32) := by
  decide

/-- Three words loaded at 0x102: an aligned pc inside that text starts none of them (70_reset R263). -/
def unalignedText : State := { ref with pc := 0x104#32, progBase := 0x102#32, progLen := 3 }

theorem test_no_word_starts_here : unalignedText.inText 0x104#32 = true ∧
    refusedAs (step unalignedText) .fetchOutsideProgram = true := by decide

theorem witness_NoStoreReachesAFetch : storing.mem.wf = true ∧ storing.fetchPlace = .text ∧
    ∃ t, Host.Core.run Sys2Proof.core 2 storing = .next t := ⟨by decide, by decide, _, rfl⟩

theorem witness_DecodeEncodeAgree : Config.suggestedGetEnc.wf = true ∧ (Instr.lqfcmux 31 31 0).wellFormed = true := by decide

theorem witness_EncodeDecodeAgree : decodeWord Config.suggestedGetEnc 0x13E08DC6#32 = .ok (.udi7fcmDot 31 0 17) ∧
    ∀ n c rD fsl, classOf (.udi7fcmDot 31 0 17) ≠ .get n c rD fsl := ⟨by decide, fun _ _ _ _ => by simp [classOf]⟩

theorem witness_DecodePatternsDisjoint : Config.suggestedGetEnc.wf = true ∧
    (fcmRows.lookup (0x7C242C0E#32 &&& fcmMask)).isSome = true ∧ 0x13E08DC6#32 &&& udiMask = udiPattern ∧
    0x10030298#32 &&& putMask = putPattern := by decide

theorem witness_ReservedBitSetIsRejected : Config.suggestedGetEnc.wf = true ∧
    (transferOf (classOf (.lwfcmx 0 1 2))).isSome = true := by decide

/-- A put word with one reserved bit set, in {6:10}, in {31}, and in both, at the ends of the other fields. -/
theorem witness_ReservedPutBitSetIsRejected : ∀ n c : Bool, ∀ r ∈ ([0, 1, 16, 31] : List Field5), ∀ z : Bool,
    ∀ x ∈ ([0, 31] : List Field5),
      Config.suggestedGetEnc.covers (putWord n c x x ||| placeField 21 r ||| placeBit 0 z) = false := by decide

theorem ref_fslReady (s : State) (x : Field5)
    (h : s.priv = .privileged ∧ s.cfg.apu.fsl = true ∧ s.hasFsl x = true) : fslReady s x := h

theorem witness_gets_take_word : fslReady (received 31 [⟨5#32, true⟩, ⟨6#32, false⟩]) 31 ∧
    (received 31 [⟨5#32, true⟩, ⟨6#32, false⟩]).inQueue 31 = [⟨5#32, true⟩, ⟨6#32, false⟩] :=
  ⟨ref_fslReady _ _ (by decide), by decide⟩

theorem witness_NonblockingGetWithoutWord : fslReady ref 2 ∧ ref.inQueue 2 = [] := ⟨ref_fslReady _ _ (by decide), by decide⟩

theorem witness_BlockingTransferStalls : fslReady (ref.setFull 0 true) 0 ∧ (ref.setFull 0 true).inQueue 0 = [] ∧
    (ref.setFull 0 true).isFull 0 = true := ⟨ref_fslReady _ _ (by decide), by decide⟩

theorem witness_stalled_get : (prog 0x10600218 ref).pcAligned = true ∧ (prog 0x10600218 ref).fetchPlace = .text ∧
    (prog 0x10600218 ref).env = [] ∧ decode (prog 0x10600218 ref).cfg.getEnc (prog 0x10600218 ref).fetchBytes =
      .ok (.get 3 0, []) ∧ fslReady (prog 0x10600218 ref) 0 ∧ (prog 0x10600218 ref).inQueue 0 = [] :=
  ⟨by decide, by decide, rfl, by decide, ref_fslReady _ _ (by decide), by decide⟩

/-- `put r3, FSL0` on a full interface. -/
def putStalled : State := prog 0x10030298 (ref.setFull 0 true)

theorem witness_stalled_put : putStalled.pcAligned = true ∧ putStalled.fetchPlace = .text ∧ putStalled.env = [] ∧
    decode putStalled.cfg.getEnc putStalled.fetchBytes = .ok (.put 3 0, []) ∧ fslReady putStalled 0 ∧
    putStalled.isFull 0 = true :=
  ⟨by decide, by decide, rfl, by decide, ref_fslReady _ _ (by decide), by decide⟩

theorem witness_puts : fslReady ref 31 ∧ ref.isFull 31 = false ∧ fslReady (ref.setFull 3 true) 3 ∧
    (ref.setFull 3 true).isFull 3 = true :=
  ⟨ref_fslReady _ _ (by decide), by decide, ref_fslReady _ _ (by decide), by decide⟩

theorem witness_UserModeTransferIsPrivileged : ({ ref with priv := .user } : State).priv = .user := rfl

theorem witness_MissingFslIsRefused : ref.priv = .privileged ∧ ref.cfg.apu.fsl = true ∧
    ({ ref with cfg := { ref.cfg with nFsl := 4 } } : State).cfg.nFsl ≤ (4 : Field5).toNat := by decide

/-- REF's `udi0fcm` and `udi0fcm.` meanings, and one that raises, in every slot. -/
def adds : UdiMeaning := ⟨.gprDest, .gprSrc, .gprSrc, .refAdd⟩
def addsAndRecords : UdiMeaning := ⟨.gprDest, .gprSrc, .gprSrc, .refAddRecord⟩
def raises : UdiMeaning := ⟨.fcr, .fcr, .imm5, .constant none none (some ⟨7, 0x55#32⟩)⟩

theorem witness_UdiResult : ∀ n : BitVec 3, ∀ rcn : BitVec 1, (allUdis adds).cfg.apu.udi = true ∧
    (allUdis adds).udiDef n rcn = some adds ∧ (udiResult adds.op (allUdis adds).fcm 1 2 3 (some 4#32) (some 5#32)).exc = none ∧
    (udiResult adds.op (allUdis adds).fcm 1 2 3 (some 4#32) (some 5#32)).crResult = none ∧
    (allUdis addsAndRecords).udiDef n rcn = some addsAndRecords ∧
    (udiResult addsAndRecords.op ref.fcm 1 2 3 (some 4#32) (some 5#32)).crResult = some (0#3, 4#4) := by decide

theorem witness_UdiExceptionIsRaised : classOf (.udi6fcm 1 2 3) = .udi 6 1 1 2 3 ∧ (allUdis raises).cfg.apu.udi = true ∧
    (allUdis raises).udiDef 6 1 = some raises ∧ (udiAnswer raises 1 2 3 (allUdis raises)).exc = some ⟨7, 0x55#32⟩ := by decide

theorem witness_UndefinedUdiIsRefused : classOf (.udi1fcmDot 1 2 3) = .udi 1 0 1 2 3 ∧ ref.cfg.apu.udi = true ∧
    ref.udiDef 1 0 = none := by decide

theorem witness_UnprivilegedInstructionsIgnoreMode : (∃ t, exec (.udi0fcm 8 7 7) ref = .next t) ∧
    (∃ t, exec (.lwfcmx 0 1 2) ref = .next t) ∧ (transferOf (classOf (.lwfcmx 0 1 2))).isSome = true ∧
    ref.dataReloc = false := ⟨⟨_, rfl⟩, ⟨_, rfl⟩, rfl, rfl⟩

/-- A state with r6 = 0x4001, an odd sum for every form that uses it with rB = r7 = 0. -/
def odd : State := storeStart.writeGpr 6 0x4001#32

theorem odd_fcmReady (k : AccessKind) (u : Bool) : fcmReady k u 6 7 odd := by
  refine ⟨fun _ => by decide, rfl, ?_⟩
  cases k <;> cases u <;> decide

theorem witness_byte_half_transfers : ∀ u, (fcmReady .b u 6 7 odd ∧ fcmReady .h u 6 7 odd) ∧ odd.mem.wf = true ∧
    transferEA .b u 6 7 odd = 0x4001#32 ∧ odd.realAddress .b .load 0x4001#32 1 = .ok 0x4001#32 ∧
    odd.realAddress .b .store 0x4001#32 1 = .ok 0x4001#32 ∧ transferEA .h u 6 7 odd = 0x4000#32 ∧
    odd.realAddress .h .load 0x4000#32 2 = .ok 0x4000#32 ∧ odd.realAddress .h .store 0x4000#32 2 = .ok 0x4000#32 :=
  fun u => ⟨⟨odd_fcmReady _ u, odd_fcmReady _ u⟩, by cases u <;> decide⟩

theorem witness_byte_half_outside_text : (∀ a, inSpan 0x4001#32 1 a → odd.inText a = false) ∧
    ∀ a, inSpan 0x4000#32 2 a → odd.inText a = false := by
  constructor <;> rintro a ⟨k, hk, rfl⟩ <;> interval_cases k <;> decide

theorem witness_word_transfers : ∀ u, (fcmReady .w u 6 7 odd ∧ fcmReady .d u 6 7 odd ∧ fcmReady .q u 6 7 odd) ∧
    odd.mem.wf = true ∧ (∀ k ∈ ([.w, .d, .q] : List AccessKind), transferEA k u 6 7 odd = 0x4000#32 ∧
      ∀ a ∈ ([.load, .store] : List Access), ∀ b ∈ ([0, 1, 2, 3] : List (Fin 4)),
        odd.realAddress k a (0x4000#32 + BitVec.ofNat 32 (4 * b.val)) 4 = .ok (0x4000#32 + BitVec.ofNat 32 (4 * b.val))) :=
  fun u => ⟨⟨odd_fcmReady _ u, odd_fcmReady _ u, odd_fcmReady _ u⟩, by cases u <;> decide⟩

theorem witness_words_outside_text_and_disjoint :
    (∀ b : Fin 4, ∀ a, inSpan (0x4000#32 + BitVec.ofNat 32 (4 * b.val)) 4 a → odd.inText a = false) ∧
    ∀ b c : Fin 4, b ≠ c → ∀ a, inSpan (0x4000#32 + BitVec.ofNat 32 (4 * b.val)) 4 a →
      ¬ inSpan (0x4000#32 + BitVec.ofNat 32 (4 * c.val)) 4 a := by
  constructor
  · rintro b a ⟨k, hk, rfl⟩
    fin_cases b <;> interval_cases k <;> decide
  · rintro b c hbc a ⟨j, hj, rfl⟩ ⟨k, hk, h⟩
    fin_cases b <;> fin_cases c <;> first | exact absurd rfl hbc | (interval_cases j <;> interval_cases k <;> revert h <;> decide)

theorem witness_StoredWordIsLoadedBack : odd.mem.wf = true ∧ ∃ t, exec (.stwfcmx 1 6 7) odd = .next t ∧
    odd.realAddress .w .store (transferEA .w false 6 7 odd) 4 = .ok 0x4000#32 ∧
    t.realAddress .w .load (transferEA .w false 6 7 odd) 4 = .ok 0x4000#32 :=
  ⟨by decide, _, rfl, by decide, by decide⟩

/-- The program text is the word at 0x4008, the third beat of a quad store to 0x4000. -/
def textHit : State := { odd with progBase := 0x4008#32, progLen := 1 }

theorem witness_StoreIntoProgramTextIsRefused : classOf (.stqfcmux 1 6 7) = .store .q true 1 6 7 ∧
    fcmReady .q true 6 7 textHit ∧ transferEA .q true 6 7 textHit = 0x4000#32 ∧
    (∀ b ∈ beatsOf .q, textHit.realAddress .q .store (beatAddress 0x4000#32 b) (unitBytes .q) =
      .ok (0x4000#32 + BitVec.ofNat 32 (4 * b.val))) ∧
    inSpan (0x4000#32 + BitVec.ofNat 32 (4 * (2 : Fin 4).val)) 4 0x4008#32 ∧ textHit.inText 0x4008#32 = true :=
  ⟨rfl, ⟨fun _ => by decide, rfl, by decide⟩, by decide, by decide, ⟨0, by omega, rfl⟩, by decide⟩

theorem witness_EffectiveAddressRule : transferOf (classOf (.lhfcmux 1 6 7)) = some (.h, .load, true, 1, 6, 7) ∧
    ∃ t, exec (.lhfcmux 1 6 7) odd = .next t := ⟨rfl, _, rfl⟩

theorem witness_ByteLaneRule : (0x3002#32).toNat % 2 = 0 := by decide

/-- Canonical memory, a word at pc that decodes and one that does not. -/
theorem witness_BigEndianRule : odd.mem.wf = true ∧
    decodeWord storing.cfg.getEnc (storing.mem.readBytes storing.pc 4) = .ok (.stwfcmux 1 6 5) ∧
    decodeWord ref.cfg.getEnc ((prog 0x60000000 ref).mem.readBytes 0x100#32 4) = .error (.notInExtension 0x60000000#32) := by
  decide

/-- Relocation on: 0x4000 no-access, 0x4004 read-only, 0x4008 open, nothing else mapped; user mode. -/
def guarded : State :=
  { tlb [entry 0x4000#32 .noAccess, entry 0x4004#32 .readOnly, entry 0x4008#32 .unprotected] odd with priv := .user }

theorem witness_TranslateObeysItsConstraints : odd.dataReloc = false ∧ guarded.translate 0x5000#32 .load = .tlbMiss ∧
    guarded.translate 0x4000#32 .load = .noAccess ∧ guarded.translate 0x4004#32 .store = .readOnly := by decide

theorem witness_AccessGoesThrough : (odd.dataReloc = false ∧ realEndian odd.translation 0x4000#32 = .big ∧
      allBytes odd.memoryHas 0x4000#32 4 = true) ∧ guarded.dataReloc = true ∧
    lookupTlb guarded.translation.tlb 0x4008#32 .store guarded.priv = some ⟨0x4008#32, .big, .unprotected⟩ ∧
    allBytes guarded.memoryHas 0x4008#32 4 = true := by decide

/-- `odd` with a launch memory that ends below 0x4008. -/
def short : State := { odd with cfg := { odd.cfg with memMap := [⟨0#32, 0x4008⟩] } }

/-- The refusal clause: the first byte outside at beat 2 of a quad load, at the first beat of a store to 0x4008. -/
theorem witness_AccessOutsideMemoryStops : (transferOf (classOf (.lqfcmux 1 6 7)) = some (.q, .load, true, 1, 6, 7) ∧
      fcmReady .q true 6 7 short ∧ transferEA .q true 6 7 short = 0x4000#32 ∧ (2 : Fin 4) ∈ beatsOf .q ∧
      earlierBeatsPass short .q .load 0x4000#32 2 ∧
      short.translate (beatAddress 0x4000#32 2) .load = .ok 0x4008#32 .big ∧
      inSpan 0x4008#32 (unitBytes .q) 0x4008#32 ∧ short.memoryHas 0x4008#32 = false) ∧
    earlierBeatsPass short .b .store 0x4008#32 0 ∧
    short.translate (beatAddress 0x4008#32 0) .store = .ok 0x4008#32 .big := by
  refine ⟨⟨rfl, ⟨fun _ => by decide, rfl, by decide⟩, by decide, by decide, fun c hc h => ?_, by decide,
    ⟨0, by decide, rfl⟩, by decide⟩, fun c _ h => absurd h (by simp), by decide⟩
  have : c = 0 ∨ c = 1 := by revert h hc; revert c; decide
  obtain rfl | rfl := this
  · exact ⟨0x4000#32, by decide, fun h => by cases h⟩
  · exact ⟨0x4004#32, by decide, fun h => by cases h⟩

/-- `guarded` with r6 at an address of the test's choice. -/
def guardedAt (a : Word) (p : Priv) : State := { guarded.writeGpr 6 a with priv := p }

theorem guardedAt_fcmReady (k : AccessKind) (u : Bool) (a : Word) (p : Priv) : fcmReady k u 6 7 (guardedAt a p) := by
  refine ⟨fun _ => by decide, rfl, ?_⟩
  cases k <;> cases u <;> rfl

/-- The miss at beat 0 (0x5000) and, beat 0 going through at 0x4008, at beat 1 (0x400C). -/
theorem witness_TlbMissFaults : (fcmReady .b true 6 7 (guardedAt 0x5000#32 .user) ∧ (0 : Fin 4) ∈ beatsOf .b ∧
      earlierBeatsPass (guardedAt 0x5000#32 .user) .b .load 0x5000#32 0 ∧
      lookupTlb guarded.translation.tlb (beatAddress 0x5000#32 0) .load .user = none) ∧
    fcmReady .d false 6 7 (guardedAt 0x4008#32 .user) ∧ (1 : Fin 4) ∈ beatsOf .d ∧
      transferEA .d false 6 7 (guardedAt 0x4008#32 .user) = 0x4008#32 ∧
      earlierBeatsPass (guardedAt 0x4008#32 .user) .d .store 0x4008#32 1 ∧
      lookupTlb guarded.translation.tlb (beatAddress 0x4008#32 1) .store .user = none := by
  refine ⟨⟨guardedAt_fcmReady _ _ _ _, by decide, fun c hc h => ?_, by decide⟩, guardedAt_fcmReady _ _ _ _, by decide,
    by decide, fun c hc h => ?_, by decide⟩
  · exact absurd h (by simp)
  · have : c = 0 := by revert h hc; revert c; decide
    subst this
    exact ⟨0x4008#32, by decide, fun _ => by decide⟩

theorem witness_DataStorageOnLoads : (fcmReady .w false 6 7 (guardedAt 0x4000#32 .user) ∧
      earlierBeatsPass (guardedAt 0x4000#32 .user) .w .load 0x4000#32 0 ∧
      lookupTlb guarded.translation.tlb (beatAddress 0x4000#32 0) .load .user = some ⟨0x4000#32, .big, .noAccess⟩) ∧
    lookupTlb guarded.translation.tlb 0x4004#32 .load .user = some ⟨0x4004#32, .big, .readOnly⟩ ∧
    lookupTlb guarded.translation.tlb 0x4000#32 .load .privileged = some ⟨0x4000#32, .big, .noAccess⟩ := by
  refine ⟨⟨guardedAt_fcmReady _ _ _ _, fun c hc h => absurd h (by simp), by decide⟩, by decide, by decide⟩

theorem witness_DataStorageOnStores : (fcmReady .w true 6 7 (guardedAt 0x4004#32 .privileged) ∧
      earlierBeatsPass (guardedAt 0x4004#32 .privileged) .w .store 0x4004#32 0 ∧
      lookupTlb guarded.translation.tlb (beatAddress 0x4004#32 0) .store .privileged = some ⟨0x4004#32, .big, .readOnly⟩) ∧
    lookupTlb guarded.translation.tlb (beatAddress 0x4000#32 0) .store .user = some ⟨0x4000#32, .big, .noAccess⟩ ∧
    lookupTlb guarded.translation.tlb 0x4000#32 .store .privileged = some ⟨0x4000#32, .big, .noAccess⟩ := by
  refine ⟨⟨guardedAt_fcmReady _ _ _ _, fun c hc h => absurd h (by simp), by decide⟩, by decide, by decide⟩

/-- `odd` under MISALIGN_POLICY = fault. -/
def oddFault : State := { odd with cfg := { odd.cfg with misalign := .fault } }

/-- `odd` with storage around 0x4000 little-endian, relocation off. -/
def little : State := { odd with translation := { tlb := .entries [], realLittle := [⟨0x4000#32, 16⟩] } }

/-- r6 = 0x4004 under MISALIGN_POLICY = faultNatural: a multiple of 4, not of 8. -/
def naturalFault : State := { odd.writeGpr 6 0x4004#32 with cfg := { odd.cfg with misalign := .faultNatural } }

/-- `little` under an ENDIAN_POLICY that refuses every little-endian load. -/
def littleRefused : State :=
  { little with cfg := { little.cfg with endian := { loads := ⟨.refuse, .refuse, .refuse, .refuse, .refuse⟩,
                                                     stores := Config.alignmentForAll } } }

/-- One case under each policy; under mask, a sum that is not EA and an alignment fault all the same. -/
theorem witness_MisalignedSumFaults : (transferOf (classOf (.sthfcmx 1 6 7)) = some (.h, .store, false, 1, 6, 7) ∧
      oddFault.cfg.apu.fcmTransfer = true ∧ oddFault.cfg.misalign = .fault ∧
      addressSum false 6 7 oddFault ≠ transferEA .h false 6 7 oddFault) ∧
    (naturalFault.cfg.apu.fcmTransfer = true ∧ naturalFault.cfg.misalign = .faultNatural ∧
      (addressSum false 6 7 naturalFault).toNat % transferBytes .d ≠ 0) ∧
    (little.cfg.apu.fcmTransfer = true ∧ little.cfg.misalign = .mask) ∧
    ∃ r, exec (.sthfcmx 1 6 7) little = .fault (.alignment r) := ⟨by decide, by decide, by decide, _, rfl⟩

/-- The sum under fault and under faultNatural, and the Endian attribute. -/
theorem witness_AlignmentHasTwoCauses : (∃ r, exec (.sthfcmx 1 6 7) oddFault = .fault (.alignment r)) ∧
    (∃ r, exec (.ldfcmx 1 6 7) naturalFault = .fault (.alignment r)) ∧
    ∃ r, exec (.sthfcmx 1 6 7) little = .fault (.alignment r) := ⟨⟨_, rfl⟩, ⟨_, rfl⟩, _, rfl⟩

/-- The first beat of a store, and the second beat of a load whose first word lies before the region. -/
theorem witness_LittleEndianBeatIsNotAccessed : (transferOf (classOf (.sthfcmx 1 6 7)) = some (.h, .store, false, 1, 6, 7) ∧
      fcmReady .h false 6 7 little ∧ transferEA .h false 6 7 little = 0x4000#32 ∧ (0 : Fin 4) ∈ beatsOf .h ∧
      earlierBeatsPass little .h .store 0x4000#32 0 ∧
      little.translate (beatAddress 0x4000#32 0) .store = .ok 0x4000#32 .little ∧
      endianAnswer little.cfg.endian .h .store .little = .unsupported .alignmentException) ∧
    fcmReady .d true 6 7 (littleRefused.writeGpr 6 0x3FFC#32) ∧ (1 : Fin 4) ∈ beatsOf .d ∧
      transferEA .d true 6 7 (littleRefused.writeGpr 6 0x3FFC#32) = 0x3FFC#32 ∧
      earlierBeatsPass (littleRefused.writeGpr 6 0x3FFC#32) .d .load 0x3FFC#32 1 ∧
      (littleRefused.writeGpr 6 0x3FFC#32).translate (beatAddress 0x3FFC#32 1) .load = .ok 0x4000#32 .little ∧
      endianAnswer littleRefused.cfg.endian .d .load .little = .unsupported .refuse := by
  refine ⟨⟨rfl, ⟨fun h => (by cases h), rfl, by decide⟩, by decide, by decide, fun c _ h => absurd h (by simp), by decide,
    by decide⟩, ⟨fun _ => by decide, rfl, by decide⟩, by decide, by decide, fun c hc h => ?_, by decide, by decide⟩
  have : c = 0 := by revert h hc; revert c; decide
  subst this
  exact ⟨0x3FFC#32, by decide, fun h => by cases h⟩

/-- `odd` with no class forwarded. -/
def unforwarded : State := { odd with cfg := { odd.cfg with apu := ⟨false, false, false⟩ } }

theorem witness_UnforwardedClassIsRefused : (isFslTransfer (classOf (.cput 1 31)) = true ∧ unforwarded.priv = .privileged ∧
      unforwarded.cfg.apu.fsl = false) ∧ (classOf (.udi7fcmDot 1 2 3) = .udi 7 0 1 2 3 ∧ unforwarded.cfg.apu.udi = false) ∧
    transferOf (classOf (.stqfcmux 1 6 7)) = some (.q, .store, true, 1, 6, 7) ∧ unforwarded.cfg.apu.fcmTransfer = false := by
  decide

theorem witness_ExceptionsByInstructionGroup : (∃ r, exec (.get 3 0) { ref with priv := .user } = .fault (.programPrivileged r)) ∧
    (∃ r, exec (.udi6fcm 1 2 3) (allUdis raises) = .fault (.userDefined 7 r)) ∧
    ∃ r, exec (.lbfcmx 1 6 7) (guardedAt 0x5000#32 .user) = .fault (.dataTlbMiss r) := ⟨⟨_, rfl⟩, ⟨_, rfl⟩, _, rfl⟩

/-- A double load and a double store stopped at their second beat. -/
theorem witness_FaultFreezesTheState : (∃ r, exec (.ldfcmx 1 6 7) (guardedAt 0x4008#32 .user) = .fault (.dataTlbMiss r)) ∧
    ∃ r, exec (.stdfcmx 1 6 7) (guardedAt 0x4008#32 .user) = .fault (.dataTlbMiss r) := ⟨⟨_, rfl⟩, _, rfl⟩

theorem witness_LaterBeatStoreFaultLeavesOldOrNewWords :
    classOf (.stdfcmux 1 6 7) = .store .d true 1 6 7 ∧ fcmReady .d true 6 7 (guardedAt 0x4008#32 .user) ∧
    transferEA .d true 6 7 (guardedAt 0x4008#32 .user) = 0x4008#32 ∧ (guardedAt 0x4008#32 .user).mem.wf = true ∧
    (∀ c ∈ beatsOf .d, c < 1 → (guardedAt 0x4008#32 .user).realAddress .d .store (beatAddress 0x4008#32 c) 4 = .ok 0x4008#32 ∧
      allBytes (fun a => !(guardedAt 0x4008#32 .user).inText a) 0x4008#32 4 = true) ∧
    (guardedAt 0x4008#32 .user).realAddress .d .store (beatAddress 0x4008#32 1) 4 = .error (.raised .dataTlbMiss 0x400C#32) :=
  ⟨rfl, guardedAt_fcmReady _ _ _ _, by decide, by decide, by decide, by decide⟩

/-- nget on an empty queue, ncput on a full interface, a get that finds a word. -/
theorem witness_flag_rules : (∃ t, exec (.nget 4 2) ref = .next t) ∧
    (∃ t, exec (.ncput 4 3) (ref.setFull 3 true) = .next t ∧ t.xerCa = true) ∧
    (∃ t, exec (.get 3 0) (received 0 [⟨1#32, true⟩]) = .next t ∧ t.xerOv = true) ∧
    (received 0 [⟨1#32, true⟩]).inQueue 0 = [⟨1#32, true⟩] :=
  ⟨⟨_, rfl⟩, ⟨_, rfl, rfl⟩, ⟨_, rfl, rfl⟩, by decide⟩

theorem witness_OtherXerFieldsUnchanged : (∃ t, step storing = .next t) ∧ ∃ t, exec (.nget 4 2) ref = .next t :=
  ⟨⟨_, rfl⟩, _, rfl⟩

theorem witness_ConditionRegisterWriters : ∃ t, exec (.udi0fcmDot 8 7 7) (ref.writeGpr 7 1#32) = .next t ∧ t.cr ≠ 0#32 :=
  ⟨_, rfl, by decide⟩

/-- One writer of each kind: rD of a get, rA of an update form, T of a UDI. -/
theorem witness_GeneralRegisterWriters : (∃ t, exec (.get 3 0) (received 0 [⟨1#32, true⟩]) = .next t ∧ t.readGpr 3 ≠ 0#32) ∧
    (∃ t, exec (.stwfcmux 1 6 7) odd = .next t ∧ t.readGpr 6 ≠ odd.readGpr 6) ∧
    ∃ t, exec (.udi0fcm 8 7 7) (ref.writeGpr 7 1#32) = .next t ∧ t.readGpr 8 ≠ 0#32 :=
  ⟨⟨_, rfl, by decide⟩, ⟨_, rfl, by decide⟩, _, rfl, by decide⟩

/-- An advance and a stall. -/
theorem witness_ProgramCounterRule : (∃ t, exec (.nget 4 2) ref = .next t ∧ t.pc = 0x104#32) ∧ exec (.get 4 2) ref = .next ref :=
  ⟨⟨_, rfl, rfl⟩, rfl⟩

theorem witness_MemoryAndFcmWriters : (∃ t, exec (.stwfcmux 1 6 7) odd = .next t ∧ t.mem.read 0x4000#32 ≠ odd.mem.read 0x4000#32) ∧
    (∃ t, exec (.lwfcmx 1 6 7) (odd.writeGpr 6 0x4001#32) = .next t ∧
      readFcr t.fcm 1 0 ≠ readFcr odd.fcm 1 0) ∧
    ∃ t, exec (.put 4 2) ref = .next t ∧ t.outQueue 2 ≠ ref.outQueue 2 :=
  ⟨⟨_, rfl, by decide⟩, ⟨_, rfl, by decide⟩, _, rfl, by decide⟩

theorem witness_EnvironmentMoves : ref.hasFsl 31 = true ∧
    ({ ref with env := [[.supply 31 ⟨1#32, true⟩]] } : State).env = [[.supply 31 ⟨1#32, true⟩]] ∧
    ({ ref with env := [[.drain 31], []] } : State).env = [[.drain 31], []] ∧
    ({ ref with env := [[.setFull 31 true]] } : State).env = [[.setFull 31 true]] := by decide

theorem witness_ModeAndParametersConstantOverARun : ∃ t, Host.Core.run Sys2Proof.core 3 storing = .next t := ⟨_, rfl⟩

end Sys2Proof.Tests
end

section
/-! SUPPORT. Why an instruction is refused: for each shared operation the reasons it can give, then for `exec` by class.
The refusal `notModelled` is in none of these lists (00_scope R2). -/

namespace Sys2Proof.Machine

/-! ## FSL transfers -/

/-- A get or put form is refused before its transfer for one of two reasons, or the transfer itself is refused. -/
theorem fslChecked_refused {fsl : Field5} {s : State} {q : Host.Outcome State Fault Refusal} {r : Refusal}
    (h : fslChecked fsl s q = .refused r) :
    (s.cfg.apu.fsl = false ∧ r = .apuNotForwarding) ∨ (s.hasFsl fsl = false ∧ r = .noSuchFsl) ∨ q = .refused r := by
  unfold fslChecked at h
  split at h
  · cases h
  · split at h
    · next ha => cases h; exact .inl ⟨by simpa using ha, rfl⟩
    · split at h
      · next hf => cases h; exact .inr (.inl ⟨by simpa using hf, rfl⟩)
      · exact .inr (.inr h)

/-- Past its checks a get form completes or stalls. -/
theorem getForm_refused {n c : Bool} {rD fsl : Field5} {s : State} {r : Refusal} (h : getForm n c rD fsl s = .refused r) :
    (s.cfg.apu.fsl = false ∧ r = .apuNotForwarding) ∨ (s.hasFsl fsl = false ∧ r = .noSuchFsl) := by
  obtain h | h | h := fslChecked_refused h
  · exact .inl h
  · exact .inr h
  · split at h
    · cases h
    · split at h <;> cases h

/-- Past its checks a put form completes or stalls. -/
theorem putForm_refused {n c : Bool} {rA fsl : Field5} {s : State} {r : Refusal} (h : putForm n c rA fsl s = .refused r) :
    (s.cfg.apu.fsl = false ∧ r = .apuNotForwarding) ∨ (s.hasFsl fsl = false ∧ r = .noSuchFsl) := by
  obtain h | h | h := fslChecked_refused h
  · exact .inl h
  · exact .inr h
  · split at h
    · split at h <;> cases h
    · cases h

/-! ## UDIs -/

theorem udiForm_refused {n : BitVec 3} {rcn : BitVec 1} {t a b : Field5} {s : State} {r : Refusal}
    (h : udiForm n rcn t a b s = .refused r) :
    (s.cfg.apu.udi = false ∧ r = .apuNotForwarding) ∨ (s.udiDef n rcn = none ∧ r = .udiNotDefined) := by
  unfold udiForm at h
  split at h
  · next ha => cases h; exact .inl ⟨by simpa using ha, rfl⟩
  · split at h
    · next hm => cases h; exact .inr ⟨hm, rfl⟩
    · dsimp only at h
      split at h <;> cases h

/-! ## FCM loads and stores -/

/-- An access that is refused: the policy's answer for a little-endian address, or a byte the launch memory lacks. -/
theorem realAddress_refused {s : State} {k : AccessKind} {d : Access} {ea : Word} {n : Nat} {r : Refusal}
    (h : s.realAddress k d ea n = .error (.refused r)) :
    ∃ ra endian, s.translate ea d = .ok ra endian ∧
      ((endianAnswer s.cfg.endian k d endian = .unsupported .refuse ∧ r = .endianNotGiven) ∨
        (allBytes s.memoryHas ra n = false ∧ r = .noSuchAddress)) := by
  unfold State.realAddress at h
  split at h
  · cases h
  · cases h
  · cases h
  · next ra endian ht =>
    refine ⟨ra, endian, ht, ?_⟩
    split at h
    · cases h
    · next he => cases h; exact .inl ⟨he, rfl⟩
    · split at h
      · cases h
      · next hm => cases h; exact .inr ⟨by simpa using hm, rfl⟩

/-- A transfer is refused before its beats for one of two reasons, or the beats are refused. -/
theorem fcmChecked_refused {k : AccessKind} {u : Bool} {rA rB : Field5} {s : State} {r : Refusal}
    {f : Word → Host.Outcome State Fault Refusal} (h : fcmChecked k u rA rB s f = .refused r) :
    (u = true ∧ rA = 0#5 ∧ r = .invalidFormRA0) ∨ (s.cfg.apu.fcmTransfer = false ∧ r = .apuNotForwarding) ∨
      f (transferEA k u rA rB s) = .refused r := by
  unfold fcmChecked at h
  split at h
  · next h0 =>
    obtain ⟨hu, hr⟩ : u = true ∧ rA = 0#5 := by simpa using h0
    cases h; exact .inl ⟨hu, hr, rfl⟩
  · split at h
    · next h1 => cases h; exact .inr (.inl ⟨by simpa using h1, rfl⟩)
    · split at h
      · cases h
      · exact .inr (.inr h)

/-- The end of a transfer gives no reason of its own: it passes on the one of the beat that stopped. -/
theorem finishTransfer_refused {u : Bool} {rA : Field5} {ea : Word} {s : State} {fz : Fin 4 → State} {e : TransferEnd}
    {r : Refusal} (h : finishTransfer u rA ea s fz e = .refused r) : ∃ b, e = .stopped (.refused r) b := by
  unfold finishTransfer at h
  split at h
  · cases h
  · cases h
  · cases h; exact ⟨_, rfl⟩

theorem loadForm_refused {k : AccessKind} {u : Bool} {f rA rB : Field5} {s : State} {r : Refusal}
    (h : loadForm k u f rA rB s = .refused r) :
    (u = true ∧ rA = 0#5 ∧ r = .invalidFormRA0) ∨ (s.cfg.apu.fcmTransfer = false ∧ r = .apuNotForwarding) ∨
      ∃ b ∈ beatsOf k,
        s.realAddress k .load (beatAddress (transferEA k u rA rB s) b) (unitBytes k) = .error (.refused r) := by
  obtain h | h | h := fcmChecked_refused h
  · exact .inl h
  · exact .inr (.inl h)
  · obtain ⟨b, hb⟩ := finishTransfer_refused h
    exact .inr (.inr ⟨b, loadBeats_stopped hb⟩)

/-- A store has one reason more than a load: the program text (20_memory R67). -/
theorem storeForm_refused {k : AccessKind} {u : Bool} {f rA rB : Field5} {s : State} {r : Refusal}
    (h : storeForm k u f rA rB s = .refused r) :
    (u = true ∧ rA = 0#5 ∧ r = .invalidFormRA0) ∨ (s.cfg.apu.fcmTransfer = false ∧ r = .apuNotForwarding) ∨
      (∃ b ∈ beatsOf k,
        s.realAddress k .store (beatAddress (transferEA k u rA rB s) b) (unitBytes k) = .error (.refused r)) ∨
      r = .storeToProgramText := by
  obtain h | h | h := fcmChecked_refused h
  · exact .inl h
  · exact .inr (.inl h)
  · obtain ⟨b, hb⟩ := finishTransfer_refused h
    obtain ⟨hmem, ha | ht⟩ := storeBeats_stopped hb
    · exact .inr (.inr (.inl ⟨b, hmem, ha⟩))
    · cases ht; exact .inr (.inr (.inr rfl))

/-! ## Every instruction -/

/-- Every reason for which an instruction is refused, by class: its class is not forwarded, the link does not exist, the
UDI is not defined, rA = 0 in an update form, a beat's access is refused, or a store reaches the program text. -/
theorem exec_refused_cases {i : Instr} {s : State} {r : Refusal} (h : exec i s = .refused r) :
    r = .apuNotForwarding ∨
    (isFslTransfer (classOf i) = true ∧ r = .noSuchFsl) ∨
    (∃ n rcn t a b, classOf i = .udi n rcn t a b ∧ s.udiDef n rcn = none ∧ r = .udiNotDefined) ∨
    ∃ k d u f rA rB, transferOf (classOf i) = some (k, d, u, f, rA, rB) ∧
      ((u = true ∧ rA = 0#5 ∧ r = .invalidFormRA0) ∨
        (∃ b ∈ beatsOf k,
          s.realAddress k d (beatAddress (transferEA k u rA rB s) b) (unitBytes k) = .error (.refused r)) ∨
        (d = .store ∧ r = .storeToProgramText)) := by
  rw [exec_eq_execClass] at h
  cases hc : classOf i with
  | get n c rD fsl =>
    rw [hc] at h
    obtain ⟨_, hr⟩ | ⟨_, hr⟩ := getForm_refused h
    · exact .inl hr
    · exact .inr (.inl ⟨rfl, hr⟩)
  | put n c rA fsl =>
    rw [hc] at h
    obtain ⟨_, hr⟩ | ⟨_, hr⟩ := putForm_refused h
    · exact .inl hr
    · exact .inr (.inl ⟨rfl, hr⟩)
  | udi n rcn t a b =>
    rw [hc] at h
    obtain ⟨_, hr⟩ | ⟨hm, hr⟩ := udiForm_refused h
    · exact .inl hr
    · exact .inr (.inr (.inl ⟨n, rcn, t, a, b, rfl, hm, hr⟩))
  | load k u f rA rB =>
    rw [hc] at h
    obtain hr | ⟨_, hr⟩ | hr := loadForm_refused h
    · exact .inr (.inr (.inr ⟨k, .load, u, f, rA, rB, rfl, .inl hr⟩))
    · exact .inl hr
    · exact .inr (.inr (.inr ⟨k, .load, u, f, rA, rB, rfl, .inr (.inl hr)⟩))
  | store k u f rA rB =>
    rw [hc] at h
    obtain hr | ⟨_, hr⟩ | hr | hr := storeForm_refused h
    · exact .inr (.inr (.inr ⟨k, .store, u, f, rA, rB, rfl, .inl hr⟩))
    · exact .inl hr
    · exact .inr (.inr (.inr ⟨k, .store, u, f, rA, rB, rfl, .inr (.inl hr)⟩))
    · exact .inr (.inr (.inr ⟨k, .store, u, f, rA, rB, rfl, .inr (.inr ⟨rfl, hr⟩)⟩))

end Sys2Proof.Machine
end

section
/-! The statements of 00_scope. -/

namespace Sys2Proof.Machine

/-- Settles O55: none of the reasons `exec_refused_cases` lists is the one for a missing meaning. -/
theorem noInstructionIsUnmodelled : Obligations.NoInstructionIsUnmodelled := by
  intro i s m h
  obtain hr | ⟨_, hr⟩ | ⟨_, _, _, _, _, _, _, hr⟩ | ⟨_, _, _, _, _, _, _, ⟨_, _, hr⟩ | ⟨_, _, ha⟩ | ⟨_, hr⟩⟩ :=
    exec_refused_cases h
  · cases hr
  · cases hr
  · cases hr
  · cases hr
  · obtain ⟨_, _, _, ⟨_, hr⟩ | ⟨_, hr⟩⟩ := realAddress_refused ha
    · cases hr
    · cases hr
  · cases hr

end Sys2Proof.Machine
end

section
/-! SUPPORT. What a completed instruction of each class did: the results of the forms field by field, then for each class
the fields it may have changed, its registers, its flags, its queues and its pc (10_state R20 to R37). -/

namespace Sys2Proof.Machine

/-! ## The results of the forms, field by field -/

@[simp] theorem getPresent_pc (n c : Bool) (rD fsl : Field5) (w : FslWord) (rest : List FslWord) (s : State) :
    (getPresent n c rD fsl w rest s).pc = s.pc + 4#32 := by cases n <;> rfl

@[simp] theorem getPresent_xerCa (n c : Bool) (rD fsl : Field5) (w : FslWord) (rest : List FslWord) (s : State) :
    (getPresent n c rD fsl w rest s).xerCa = if n then false else s.xerCa := by cases n <;> rfl

@[simp] theorem getPresent_xerOv (n c : Bool) (rD fsl : Field5) (w : FslWord) (rest : List FslWord) (s : State) :
    (getPresent n c rD fsl w rest s).xerOv = ovOfGet w.control c := by cases n <;> rfl

theorem getPresent_readGpr (n c : Bool) (rD fsl : Field5) (w : FslWord) (rest : List FslWord) (s : State) (r : Field5) :
    (getPresent n c rD fsl w rest s).readGpr r = if r = rD then w.data else s.readGpr r := by
  rw [← State.readGpr_writeGpr]
  cases n <;> rfl

theorem getPresent_inQueue (n c : Bool) (rD fsl : Field5) (w : FslWord) (rest : List FslWord) (s : State) (y : Field5) :
    (getPresent n c rD fsl w rest s).inQueue y = if y = fsl then rest else s.inQueue y := by
  rw [← State.inQueue_setInQueue]
  cases n <;> rfl

/-- A get that found a word writes rD, the flags, its input queue and pc. -/
theorem getPresent_frame (n c : Bool) (rD fsl : Field5) (w : FslWord) (rest : List FslWord) (s : State) :
    getPresent n c rD fsl w rest s =
      { s with gpr := (getPresent n c rD fsl w rest s).gpr, pc := s.pc + 4#32,
               xerCa := (getPresent n c rD fsl w rest s).xerCa, xerOv := (getPresent n c rD fsl w rest s).xerOv,
               fslIn := (getPresent n c rD fsl w rest s).fslIn } := by cases n <;> rfl

theorem getAbsent_readGpr (rD : Field5) (s : State) (r : Field5) :
    (getAbsent rD s).readGpr r = if r = rD then Config.freeWord s.draws else s.readGpr r :=
  State.readGpr_writeGpr s rD r (Config.freeWord s.draws)

@[simp] theorem putAccepted_pc (n c : Bool) (rA fsl : Field5) (s : State) :
    (putAccepted n c rA fsl s).pc = s.pc + 4#32 := by cases n <;> rfl

@[simp] theorem putAccepted_xerCa (n c : Bool) (rA fsl : Field5) (s : State) :
    (putAccepted n c rA fsl s).xerCa = if n then false else s.xerCa := by cases n <;> rfl

theorem putAccepted_outQueue (n c : Bool) (rA fsl : Field5) (s : State) (y : Field5) :
    (putAccepted n c rA fsl s).outQueue y =
      if y = fsl then s.outQueue fsl ++ [{ data := s.readGpr rA, control := c }] else s.outQueue y := by
  rw [← State.outQueue_setOutQueue]
  cases n <;> rfl

/-- A put that found space writes XER[CA], its output queue and pc. -/
theorem putAccepted_frame (n c : Bool) (rA fsl : Field5) (s : State) :
    putAccepted n c rA fsl s =
      { s with pc := s.pc + 4#32, xerCa := (putAccepted n c rA fsl s).xerCa,
               fslOut := (putAccepted n c rA fsl s).fslOut } := by cases n <;> rfl

@[simp] theorem udiCompleted_pc (m : UdiMeaning) (rcn : BitVec 1) (t : Field5) (r : UdiResult) (s : State) :
    (udiCompleted m rcn t r s).pc = s.pc + 4#32 := by
  obtain ⟨c, hc, _⟩ := udiCompleted_frame m rcn t r s
  rw [hc]

theorem udiCompleted_readGpr (m : UdiMeaning) (rcn : BitVec 1) (t : Field5) (r : UdiResult) (s : State) (q : Field5) :
    (udiCompleted m rcn t r s).readGpr q =
      if m.tKind = .gprDest ∧ q = t then r.tResult.getD (s.readGpr q) else s.readGpr q := by
  obtain ⟨c, hc, _⟩ := udiCompleted_frame m rcn t r s
  rw [hc, ← readGpr_writeUdiTarget]
  rfl

@[simp] theorem afterTransfer_pc (u : Bool) (rA : Field5) (ea : Word) (s : State) :
    (afterTransfer u rA ea s).pc = s.pc + 4#32 := by cases u <;> rfl

/-- The end of a transfer writes rA and pc. -/
theorem afterTransfer_frame (u : Bool) (rA : Field5) (ea : Word) (s : State) :
    afterTransfer u rA ea s = { s with gpr := (afterTransfer u rA ea s).gpr, pc := s.pc + 4#32 } := by
  cases u <;> rfl

/-! ## When the forms complete -/

theorem getForm_of_word {n c : Bool} {rD fsl : Field5} {w : FslWord} {rest : List FslWord} {s : State}
    (hr : fslReady s fsl) (hq : s.inQueue fsl = w :: rest) :
    getForm n c rD fsl s = .next (getPresent n c rD fsl w rest s) := by
  obtain ⟨hp, ha, hf⟩ := hr
  simp only [getForm, fslChecked_pass hp ha hf, hq]

theorem getForm_of_empty {n c : Bool} {rD fsl : Field5} {s : State} (hr : fslReady s fsl) (hq : s.inQueue fsl = []) :
    getForm n c rD fsl s = .next (if n then getAbsent rD s else s) := by
  obtain ⟨hp, ha, hf⟩ := hr
  simp only [getForm, fslChecked_pass hp ha hf, hq]
  cases n <;> rfl

theorem putForm_of_space {n c : Bool} {rA fsl : Field5} {s : State} (hr : fslReady s fsl)
    (hf : s.isFull fsl = false) : putForm n c rA fsl s = .next (putAccepted n c rA fsl s) := by
  obtain ⟨hp, ha, hx⟩ := hr
  simp [putForm, fslChecked_pass hp ha hx, hf]

theorem putForm_of_full {n c : Bool} {rA fsl : Field5} {s : State} (hr : fslReady s fsl) (hf : s.isFull fsl = true) :
    putForm n c rA fsl s = .next (if n then (s.setCa (caOfPut true)).advance else s) := by
  obtain ⟨hp, ha, hx⟩ := hr
  simp only [putForm, fslChecked_pass hp ha hx, hf]
  cases n <;> rfl

theorem udiForm_completes {n : BitVec 3} {rcn : BitVec 1} {t a b : Field5} {m : UdiMeaning} {s : State}
    (hu : s.cfg.apu.udi = true) (hm : s.udiDef n rcn = some m) (he : (udiAnswer m t a b s).exc = none) :
    udiForm n rcn t a b s = .next (udiCompleted m rcn t (udiAnswer m t a b s) s) := by
  simp [udiForm, hu, hm, he]

theorem loadForm_completes {k : AccessKind} {u : Bool} {f rA rB : Field5} {s m : State} (hr : fcmReady k u rA rB s)
    (hm : loadBeats k u f (transferEA k u rA rB s) (beatsOf k) s = .done m) :
    loadForm k u f rA rB s = .next (afterTransfer u rA (transferEA k u rA rB s) m) := by
  obtain ⟨h0, h1, h2⟩ := hr
  unfold transferEA at hm
  rw [loadForm, fcmChecked_pass h0 h1 h2, hm]
  rfl

theorem storeForm_completes {k : AccessKind} {u : Bool} {f rA rB : Field5} {s m : State} (hr : fcmReady k u rA rB s)
    (hm : storeBeats k u f (transferEA k u rA rB s) (fun _ => true) (beatsOf k) s = .done m) :
    storeForm k u f rA rB s = .next (afterTransfer u rA (transferEA k u rA rB s) m) := by
  obtain ⟨h0, h1, h2⟩ := hr
  unfold transferEA at hm
  rw [storeForm, fcmChecked_pass h0 h1 h2, hm]
  rfl

/-! ## A completed instruction, by class -/

section
variable {i : Instr} {s t : State}

theorem exec_get_next {n c : Bool} {rD fsl : Field5} (hc : classOf i = .get n c rD fsl) (h : exec i s = .next t) :
    fslReady s fsl ∧
      ((∃ w rest, s.inQueue fsl = w :: rest ∧ t = getPresent n c rD fsl w rest s) ∨
        (s.inQueue fsl = [] ∧ n = true ∧ t = getAbsent rD s) ∨ (s.inQueue fsl = [] ∧ n = false ∧ t = s)) := by
  rw [exec_eq_execClass, hc] at h
  obtain ⟨hp, ha, hf, ht⟩ := getForm_next h
  exact ⟨⟨hp, ha, hf⟩, ht⟩

theorem exec_put_next {n c : Bool} {rA fsl : Field5} (hc : classOf i = .put n c rA fsl) (h : exec i s = .next t) :
    fslReady s fsl ∧
      ((s.isFull fsl = false ∧ t = putAccepted n c rA fsl s) ∨
        (s.isFull fsl = true ∧ n = true ∧ t = (s.setCa (caOfPut true)).advance) ∨
        (s.isFull fsl = true ∧ n = false ∧ t = s)) := by
  rw [exec_eq_execClass, hc] at h
  obtain ⟨hp, ha, hf, ht⟩ := putForm_next h
  exact ⟨⟨hp, ha, hf⟩, ht⟩

theorem exec_udi_next {n : BitVec 3} {rcn : BitVec 1} {x a b : Field5} (hc : classOf i = .udi n rcn x a b)
    (h : exec i s = .next t) :
    s.cfg.apu.udi = true ∧ ∃ m, s.udiDef n rcn = some m ∧ (udiAnswer m x a b s).exc = none ∧
      t = udiCompleted m rcn x (udiAnswer m x a b s) s := by
  rw [exec_eq_execClass, hc] at h
  exact udiForm_next h

theorem exec_load_next {k : AccessKind} {u : Bool} {f rA rB : Field5} (hc : classOf i = .load k u f rA rB)
    (h : exec i s = .next t) :
    fcmReady k u rA rB s ∧ ∃ m, loadBeats k u f (transferEA k u rA rB s) (beatsOf k) s = .done m ∧
      t = afterTransfer u rA (transferEA k u rA rB s) m := by
  rw [exec_eq_execClass, hc] at h
  obtain ⟨h0, h1, h2, m, hm, _, ht⟩ := loadForm_next h
  exact ⟨⟨h0, h1, h2⟩, m, hm, ht⟩

theorem exec_store_next {k : AccessKind} {u : Bool} {f rA rB : Field5} (hc : classOf i = .store k u f rA rB)
    (h : exec i s = .next t) :
    fcmReady k u rA rB s ∧
      ∃ m, storeBeats k u f (transferEA k u rA rB s) (fun _ => true) (beatsOf k) s = .done m ∧
        t = afterTransfer u rA (transferEA k u rA rB s) m := by
  rw [exec_eq_execClass, hc] at h
  obtain ⟨h0, h1, h2, m, hm, _, ht⟩ := storeForm_next h
  exact ⟨⟨h0, h1, h2⟩, m, hm, ht⟩

/-! ## The fields each class may change -/

theorem exec_get_frame {n c : Bool} {rD fsl : Field5} (hc : classOf i = .get n c rD fsl) (h : exec i s = .next t) :
    t = { s with gpr := t.gpr, pc := t.pc, xerCa := t.xerCa, xerOv := t.xerOv, fslIn := t.fslIn, draws := t.draws } := by
  obtain ⟨_, ⟨w, rest, _, rfl⟩ | ⟨_, _, rfl⟩ | ⟨_, _, rfl⟩⟩ := exec_get_next hc h
  · rw [getPresent_frame]
  · rfl
  · rfl

theorem exec_put_frame {n c : Bool} {rA fsl : Field5} (hc : classOf i = .put n c rA fsl) (h : exec i s = .next t) :
    t = { s with pc := t.pc, xerCa := t.xerCa, fslOut := t.fslOut } := by
  obtain ⟨_, ⟨_, rfl⟩ | ⟨_, _, rfl⟩ | ⟨_, _, rfl⟩⟩ := exec_put_next hc h
  · rw [putAccepted_frame]
  · rfl
  · rfl

/-- CR is among the fields a UDI may change only with Rcn = 0 (41_udi R132). -/
theorem exec_udi_frame {n : BitVec 3} {rcn : BitVec 1} {x a b : Field5} (hc : classOf i = .udi n rcn x a b)
    (h : exec i s = .next t) :
    t = { s with gpr := t.gpr, pc := t.pc, cr := t.cr, fcm := t.fcm } ∧ (rcn ≠ 0#1 → t.cr = s.cr) := by
  obtain ⟨_, m, _, _, rfl⟩ := exec_udi_next hc h
  obtain ⟨c, hr, hcr⟩ := udiCompleted_frame m rcn x (udiAnswer m x a b s) s
  rw [hr]
  exact ⟨rfl, hcr⟩

theorem exec_load_frame {k : AccessKind} {u : Bool} {f rA rB : Field5} (hc : classOf i = .load k u f rA rB)
    (h : exec i s = .next t) :
    t = { s with gpr := t.gpr, pc := t.pc, fcm := t.fcm, fcmData := t.fcmData, draws := t.draws } := by
  obtain ⟨_, m, hm, rfl⟩ := exec_load_next hc h
  rw [afterTransfer_frame, loadBeats_frame hm]

theorem exec_store_frame {k : AccessKind} {u : Bool} {f rA rB : Field5} (hc : classOf i = .store k u f rA rB)
    (h : exec i s = .next t) :
    t = { s with gpr := t.gpr, pc := t.pc, mem := t.mem, fcmData := t.fcmData } := by
  obtain ⟨_, m, hm, rfl⟩ := exec_store_next hc h
  rw [afterTransfer_frame, storeBeats_frame hm]

theorem exec_cfg (h : exec i s = .next t) : t.cfg = s.cfg := by rw [exec_frame h]

theorem exec_xerRest (h : exec i s = .next t) : t.xerRest = s.xerRest := by rw [exec_frame h]

theorem exec_hasFsl (h : exec i s = .next t) (x : Field5) : t.hasFsl x = s.hasFsl x := by
  simp only [State.hasFsl, exec_cfg h]

/-! ## XER[CA] and XER[OV] (10_state R26, R27) -/

theorem ovOfGet_eq_false_iff (k c : Bool) : ovOfGet k c = false ↔ k = c := by simp [ovOfGet]

theorem exec_get_xerCa {n c : Bool} {rD fsl : Field5} (hc : classOf i = .get n c rD fsl) (h : exec i s = .next t) :
    t.xerCa = if n then (s.inQueue fsl).isEmpty else s.xerCa := by
  obtain ⟨_, ⟨w, rest, hq, rfl⟩ | ⟨hq, rfl, rfl⟩ | ⟨_, rfl, rfl⟩⟩ := exec_get_next hc h
  · simp [hq]
  · rw [hq]; rfl
  · rfl

theorem exec_put_xerCa {n c : Bool} {rA fsl : Field5} (hc : classOf i = .put n c rA fsl) (h : exec i s = .next t) :
    t.xerCa = if n then s.isFull fsl else s.xerCa := by
  obtain ⟨_, ⟨hf, rfl⟩ | ⟨hf, rfl, rfl⟩ | ⟨_, rfl, rfl⟩⟩ := exec_put_next hc h
  · simp [hf]
  · rw [hf]; rfl
  · rfl

theorem exec_get_xerOv_of_word {n c : Bool} {rD fsl : Field5} {w : FslWord} {rest : List FslWord}
    (hc : classOf i = .get n c rD fsl) (hq : s.inQueue fsl = w :: rest) (h : exec i s = .next t) :
    t.xerOv = ovOfGet w.control c := by
  obtain ⟨_, ⟨w', rest', hq', rfl⟩ | ⟨hq', _⟩ | ⟨hq', _⟩⟩ := exec_get_next hc h
  · obtain ⟨rfl, _⟩ := List.cons.inj (hq.symm.trans hq')
    exact getPresent_xerOv n c rD fsl w rest' s
  · rw [hq] at hq'; cases hq'
  · rw [hq] at hq'; cases hq'

/-! ## General registers (10_state R21) -/

theorem exec_get_readGpr_other {n c : Bool} {rD fsl r : Field5} (hc : classOf i = .get n c rD fsl)
    (h : exec i s = .next t) (hr : r ≠ rD) : t.readGpr r = s.readGpr r := by
  obtain ⟨_, ⟨w, rest, _, rfl⟩ | ⟨_, _, rfl⟩ | ⟨_, _, rfl⟩⟩ := exec_get_next hc h
  · rw [getPresent_readGpr, if_neg hr]
  · rw [getAbsent_readGpr, if_neg hr]
  · rfl

theorem exec_load_readGpr {k : AccessKind} {u : Bool} {f rA rB : Field5} (hc : classOf i = .load k u f rA rB)
    (h : exec i s = .next t) (r : Field5) :
    t.readGpr r = if u = true ∧ r = rA then transferEA k u rA rB s else s.readGpr r := by
  obtain ⟨_, m, hm, rfl⟩ := exec_load_next hc h
  have hg : m.gpr = s.gpr := by rw [loadBeats_frame hm]
  rw [readGpr_afterTransfer, State.readGpr_congr hg]

theorem exec_store_readGpr {k : AccessKind} {u : Bool} {f rA rB : Field5} (hc : classOf i = .store k u f rA rB)
    (h : exec i s = .next t) (r : Field5) :
    t.readGpr r = if u = true ∧ r = rA then transferEA k u rA rB s else s.readGpr r := by
  obtain ⟨_, m, hm, rfl⟩ := exec_store_next hc h
  have hg : m.gpr = s.gpr := by rw [storeBeats_frame hm]
  rw [readGpr_afterTransfer, State.readGpr_congr hg]

/-- Loads and stores alike: an update form leaves EA in rA, and no other register changes. -/
theorem exec_transfer_readGpr {k : AccessKind} {d : Access} {u : Bool} {f rA rB : Field5}
    (hc : transferOf (classOf i) = some (k, d, u, f, rA, rB)) (h : exec i s = .next t) (r : Field5) :
    t.readGpr r = if u = true ∧ r = rA then transferEA k u rA rB s else s.readGpr r := by
  cases hi : classOf i with
  | get n c x y => rw [hi] at hc; cases hc
  | put n c x y => rw [hi] at hc; cases hc
  | udi n rcn x y z => rw [hi] at hc; cases hc
  | load k' u' f' x y => rw [hi] at hc; cases hc; exact exec_load_readGpr hi h r
  | store k' u' f' x y => rw [hi] at hc; cases hc; exact exec_store_readGpr hi h r

/-- A load or store changes no register but rA in an update form. -/
theorem exec_transfer_writes_rA {k : AccessKind} {d : Access} {u : Bool} {f rA rB r : Field5}
    (hc : transferOf (classOf i) = some (k, d, u, f, rA, rB)) (h : exec i s = .next t)
    (hne : t.readGpr r ≠ s.readGpr r) : u = true ∧ r = rA ∧ t.readGpr r = transferEA k true r rB s := by
  have hr := exec_transfer_readGpr hc h r
  split at hr
  · next hu =>
    obtain ⟨rfl, rfl⟩ := hu
    exact ⟨rfl, rfl, hr⟩
  · exact absurd hr hne

/-! ## FSL queues (10_state R36, R38) -/

/-- An instruction changes an input queue only of a link that exists. -/
theorem exec_inQueue (h : exec i s = .next t) (y : Field5) : t.inQueue y = s.inQueue y ∨ s.hasFsl y = true := by
  cases hc : classOf i with
  | get n c rD fsl =>
    obtain ⟨⟨_, _, hf⟩, ⟨w, rest, _, rfl⟩ | ⟨_, _, rfl⟩ | ⟨_, _, rfl⟩⟩ := exec_get_next hc h
    · by_cases hy : y = fsl
      · exact .inr (hy ▸ hf)
      · exact .inl (by rw [getPresent_inQueue, if_neg hy])
    · exact .inl rfl
    · exact .inl rfl
  | put n c rA fsl => exact .inl (State.inQueue_congr (by rw [exec_put_frame hc h]) y)
  | udi n rcn x a b => exact .inl (State.inQueue_congr (by rw [(exec_udi_frame hc h).1]) y)
  | load k u f rA rB => exact .inl (State.inQueue_congr (by rw [exec_load_frame hc h]) y)
  | store k u f rA rB => exact .inl (State.inQueue_congr (by rw [exec_store_frame hc h]) y)

/-- An instruction changes an output queue only of a link that exists. -/
theorem exec_outQueue (h : exec i s = .next t) (y : Field5) : t.outQueue y = s.outQueue y ∨ s.hasFsl y = true := by
  cases hc : classOf i with
  | get n c rD fsl => exact .inl (State.outQueue_congr (by rw [exec_get_frame hc h]) y)
  | put n c rA fsl =>
    obtain ⟨⟨_, _, hf⟩, ⟨_, rfl⟩ | ⟨_, _, rfl⟩ | ⟨_, _, rfl⟩⟩ := exec_put_next hc h
    · by_cases hy : y = fsl
      · exact .inr (hy ▸ hf)
      · exact .inl (by rw [putAccepted_outQueue, if_neg hy])
    · exact .inl rfl
    · exact .inl rfl
  | udi n rcn x a b => exact .inl (State.outQueue_congr (by rw [(exec_udi_frame hc h).1]) y)
  | load k u f rA rB => exact .inl (State.outQueue_congr (by rw [exec_load_frame hc h]) y)
  | store k u f rA rB => exact .inl (State.outQueue_congr (by rw [exec_store_frame hc h]) y)

/-! ## pc (10_state R24) -/

/-- A completed instruction advances pc, or is a blocking transfer that stalled. -/
theorem exec_pc (h : exec i s = .next t) : t.pc = s.pc + 4#32 ∨ (isBlocking (classOf i) = true ∧ t = s) := by
  cases hc : classOf i with
  | get n c rD fsl =>
    obtain ⟨_, ⟨w, rest, _, rfl⟩ | ⟨_, _, rfl⟩ | ⟨_, rfl, rfl⟩⟩ := exec_get_next hc h
    · exact .inl (getPresent_pc n c rD fsl w rest s)
    · exact .inl rfl
    · exact .inr ⟨rfl, rfl⟩
  | put n c rA fsl =>
    obtain ⟨_, ⟨_, rfl⟩ | ⟨_, _, rfl⟩ | ⟨_, rfl, rfl⟩⟩ := exec_put_next hc h
    · exact .inl (putAccepted_pc n c rA fsl s)
    · exact .inl rfl
    · exact .inr ⟨rfl, rfl⟩
  | udi n rcn x a b =>
    obtain ⟨_, m, _, _, rfl⟩ := exec_udi_next hc h
    exact .inl (udiCompleted_pc m rcn x (udiAnswer m x a b s) s)
  | load k u f rA rB =>
    obtain ⟨_, m, hm, rfl⟩ := exec_load_next hc h
    exact .inl (by rw [afterTransfer_pc, loadBeats_frame hm])
  | store k u f rA rB =>
    obtain ⟨_, m, hm, rfl⟩ := exec_store_next hc h
    exact .inl (by rw [afterTransfer_pc, storeBeats_frame hm])

end

end Sys2Proof.Machine
end

section
/-! SUPPORT. XER[CA] and XER[OV] are read by no instruction: exec on a state with other flags completes when it did
before, in a state that differs in the flags at most (10_state R26, R27). -/

namespace Sys2Proof.Machine

/-- The state with XER[CA] and XER[OV] replaced. -/
def State.withXer (s : State) (ca ov : Bool) : State := { s with xerCa := ca, xerOv := ov }

section
variable (ca ov : Bool)

theorem getPresent_withXer (n c : Bool) (rD fsl : Field5) (w : FslWord) (rest : List FslWord) (s : State) :
    sameButXer (getPresent n c rD fsl w rest (s.withXer ca ov)) (getPresent n c rD fsl w rest s) := by
  cases n <;> rfl

theorem putAccepted_withXer (n c : Bool) (rA fsl : Field5) (s : State) :
    sameButXer (putAccepted n c rA fsl (s.withXer ca ov)) (putAccepted n c rA fsl s) := by
  cases n <;> rfl

theorem writeUdiTarget_withXer (k : UdiTarget) (t : Field5) (r : Option Word) (s : State) :
    writeUdiTarget k t r (s.withXer ca ov) = (writeUdiTarget k t r s).withXer ca ov := by
  cases k <;> cases r <;> rfl

theorem writeUdiCr_withXer (rcn : BitVec 1) (r : Option (BitVec 3 × BitVec 4)) (s : State) :
    writeUdiCr rcn r (s.withXer ca ov) = (writeUdiCr rcn r s).withXer ca ov := by
  unfold writeUdiCr
  split
  · rfl
  · split <;> rfl

theorem udiCompleted_withXer (m : UdiMeaning) (rcn : BitVec 1) (t : Field5) (r : UdiResult) (s : State) :
    udiCompleted m rcn t r (s.withXer ca ov) = (udiCompleted m rcn t r s).withXer ca ov := by
  have hfcm : (s.withXer ca ov).setFcm r.fcm = (s.setFcm r.fcm).withXer ca ov := rfl
  unfold udiCompleted
  rw [hfcm, writeUdiTarget_withXer, writeUdiCr_withXer]
  rfl

theorem afterTransfer_withXer (u : Bool) (rA : Field5) (ea : Word) (s : State) :
    afterTransfer u rA ea (s.withXer ca ov) = (afterTransfer u rA ea s).withXer ca ov := by
  cases u <;> rfl

/-- An access reads no flag, and the FCM's logic sees none. -/
theorem loadBeat_withXer {k : AccessKind} {u : Bool} {f : Field5} {ea : Word} {b : Fin 4} {s t : State}
    (h : loadBeat k u f ea b s = .ok t) : loadBeat k u f ea b (s.withXer ca ov) = .ok (t.withXer ca ov) := by
  have same : (s.withXer ca ov).memRead k (beatAddress ea b) (unitBytes k) =
      s.memRead k (beatAddress ea b) (unitBytes k) := rfl
  unfold loadBeat at h ⊢
  rw [same]
  split at h
  · cases h
  · cases h; rfl

theorem loadBeats_withXer {k : AccessKind} {u : Bool} {f : Field5} {ea : Word} : ∀ {l : List (Fin 4)} {s t : State},
    loadBeats k u f ea l s = .done t → loadBeats k u f ea l (s.withXer ca ov) = .done (t.withXer ca ov)
  | [], s, t, h => by cases h; rfl
  | b :: rest, s, t, h => by
    unfold loadBeats at h ⊢
    split at h
    · cases h
    · next m hm =>
      rw [loadBeat_withXer ca ov hm]
      exact loadBeats_withXer h

theorem storeBeat_withXer {k : AccessKind} {u : Bool} {f : Field5} {ea : Word} {b : Fin 4} {l : Bool} {s t : State}
    (h : storeBeat k u f ea b l s = .ok t) : storeBeat k u f ea b l (s.withXer ca ov) = .ok (t.withXer ca ov) := by
  have same : ∀ v, (s.withXer ca ov).memWrite k (beatAddress ea b) (unitBytes k) v =
      s.memWrite k (beatAddress ea b) (unitBytes k) v := fun _ => rfl
  have data : storeData k u f ea b (s.withXer ca ov) = storeData k u f ea b s := rfl
  unfold storeBeat at h ⊢
  rw [same, data]
  split at h
  · cases h
  · cases h; rfl

theorem storeBeats_withXer {k : AccessKind} {u : Bool} {f : Field5} {ea : Word} {p : Fin 4 → Bool} :
    ∀ {l : List (Fin 4)} {s t : State}, storeBeats k u f ea p l s = .done t →
      storeBeats k u f ea p l (s.withXer ca ov) = .done (t.withXer ca ov)
  | [], s, t, h => by cases h; rfl
  | b :: rest, s, t, h => by
    unfold storeBeats at h ⊢
    split at h
    · cases h
    · next m hm =>
      rw [storeBeat_withXer ca ov hm]
      exact storeBeats_withXer h

/-- Each form, run on other flags, takes the same branch. -/
theorem execClass_withXer {x : InstrClass} {s t : State} (h : execClass x s = .next t) :
    ∃ w, execClass x (s.withXer ca ov) = .next w ∧ sameButXer w t := by
  cases x with
  | get n c rD fsl =>
    obtain ⟨hp, ha, hf, ⟨w, rest, hq, rfl⟩ | ⟨hq, rfl, rfl⟩ | ⟨hq, rfl, rfl⟩⟩ := getForm_next h
    · exact ⟨_, getForm_of_word (s := s.withXer ca ov) ⟨hp, ha, hf⟩ hq, getPresent_withXer ca ov n c rD fsl w rest s⟩
    · exact ⟨_, getForm_of_empty (s := s.withXer ca ov) ⟨hp, ha, hf⟩ hq, rfl⟩
    · exact ⟨_, getForm_of_empty (s := t.withXer ca ov) ⟨hp, ha, hf⟩ hq, rfl⟩
  | put n c rA fsl =>
    obtain ⟨hp, ha, hx, ⟨hf, rfl⟩ | ⟨hf, rfl, rfl⟩ | ⟨hf, rfl, rfl⟩⟩ := putForm_next h
    · exact ⟨_, putForm_of_space (s := s.withXer ca ov) ⟨hp, ha, hx⟩ hf, putAccepted_withXer ca ov n c rA fsl s⟩
    · exact ⟨_, putForm_of_full (s := s.withXer ca ov) ⟨hp, ha, hx⟩ hf, rfl⟩
    · exact ⟨_, putForm_of_full (s := t.withXer ca ov) ⟨hp, ha, hx⟩ hf, rfl⟩
  | udi n rcn y a b =>
    obtain ⟨hu, m, hm, he, rfl⟩ := udiForm_next h
    refine ⟨_, udiForm_completes (s := s.withXer ca ov) hu hm he, ?_⟩
    rw [udiCompleted_withXer]
    rfl
  | load k u f rA rB =>
    obtain ⟨h0, h1, h2, m, hm, _, rfl⟩ := loadForm_next h
    refine ⟨_, loadForm_completes (s := s.withXer ca ov) ⟨h0, h1, h2⟩ (loadBeats_withXer ca ov hm), ?_⟩
    rw [afterTransfer_withXer]
    rfl
  | store k u f rA rB =>
    obtain ⟨h0, h1, h2, m, hm, _, rfl⟩ := storeForm_next h
    refine ⟨_, storeForm_completes (s := s.withXer ca ov) ⟨h0, h1, h2⟩ (storeBeats_withXer ca ov hm), ?_⟩
    rw [afterTransfer_withXer]
    rfl

theorem exec_withXer {i : Instr} {s t : State} (h : exec i s = .next t) :
    ∃ w, exec i (s.withXer ca ov) = .next w ∧ sameButXer w t := by
  rw [exec_eq_execClass] at h ⊢
  exact execClass_withXer ca ov h

end

end Sys2Proof.Machine
end

section
/-! SUPPORT. What the environment's turn does to each queue, and what a step without an instruction answers
(10_state R24, R37; 70_reset R263). -/

namespace Sys2Proof.Machine

/-! ## One move -/

theorem envMove_supply {s : State} {x : Field5} (hx : s.hasFsl x = true) (w : FslWord) :
    s.envMove (.supply x w) = s.setInQueue x (s.inQueue x ++ [w]) := if_pos hx

theorem envMove_drain {s : State} {x : Field5} (hx : s.hasFsl x = true) :
    s.envMove (.drain x) = s.setOutQueue x (s.outQueue x).tail := if_pos hx

theorem envMove_setFull {s : State} {x : Field5} (hx : s.hasFsl x = true) (v : Bool) :
    s.envMove (.setFull x v) = s.setFull x v := if_pos hx

/-- The input queues after a supply: only that of `x` has grown. -/
theorem envMove_supply_inQueue {s : State} {x : Field5} (hx : s.hasFsl x = true) (w : FslWord) (y : Field5) :
    (s.envMove (.supply x w)).inQueue y = if y = x then s.inQueue y ++ [w] else s.inQueue y := by
  rw [envMove_supply hx, State.inQueue_setInQueue]
  split
  · next h => rw [h]
  · rfl

/-- The output queues after a drain: only that of `x` has lost its head. -/
theorem envMove_drain_outQueue {s : State} {x : Field5} (hx : s.hasFsl x = true) (y : Field5) :
    (s.envMove (.drain x)).outQueue y = if y = x then (s.outQueue y).tail else s.outQueue y := by
  rw [envMove_drain hx, State.outQueue_setOutQueue]
  split
  · next h => rw [h]
  · rfl

theorem State.isFull_setFull (s : State) (x y : Field5) (v : Bool) :
    (s.setFull x v).isFull y = if y = x then v else s.isFull y := by
  split
  · next h => subst h; exact State.isFull_setFull_same s y v
  · next h => exact State.isFull_setFull_other s h v

/-- A move leaves an input queue alone, or appends a word to that of an existing link. -/
theorem envMove_inQueue (s : State) (m : EnvMove) (y : Field5) :
    (s.envMove m).inQueue y = s.inQueue y ∨ (s.hasFsl y = true ∧ ∃ w, (s.envMove m).inQueue y = s.inQueue y ++ [w]) := by
  cases m with
  | supply x w =>
    by_cases hx : s.hasFsl x = true
    · rw [envMove_supply_inQueue hx]
      split
      · next h => subst h; exact .inr ⟨hx, w, rfl⟩
      · exact .inl rfl
    · exact .inl (by rw [State.envMove, if_neg hx])
  | drain x => rw [State.envMove]; split <;> exact .inl rfl
  | setFull x v => rw [State.envMove]; split <;> exact .inl rfl

/-- A move leaves an output queue alone, or removes the head of that of an existing link. -/
theorem envMove_outQueue (s : State) (m : EnvMove) (y : Field5) :
    (s.envMove m).outQueue y = s.outQueue y ∨
      (s.hasFsl y = true ∧ (s.envMove m).outQueue y = (s.outQueue y).tail) := by
  cases m with
  | supply x w => rw [State.envMove]; split <;> exact .inl rfl
  | drain x =>
    by_cases hx : s.hasFsl x = true
    · rw [envMove_drain_outQueue hx]
      split
      · next h => subst h; exact .inr ⟨hx, rfl⟩
      · exact .inl rfl
    · exact .inl (by rw [State.envMove, if_neg hx])
  | setFull x v => rw [State.envMove]; split <;> exact .inl rfl

theorem envMove_hasFsl (s : State) (m : EnvMove) (x : Field5) : (s.envMove m).hasFsl x = s.hasFsl x := by
  rw [envMove_frame]
  rfl

/-! ## The turn -/

theorem envMoves_induction {P : State → Prop} (hm : ∀ t m, P t → P (t.envMove m)) :
    ∀ (l : List EnvMove) (s : State), P s → P (s.envMoves l)
  | [], _, h => h
  | m :: rest, s, h => envMoves_induction hm rest (s.envMove m) (hm s m h)

/-- What the schedule does not decide and every move keeps holds after the turn. -/
theorem envTurn_induction {P : State → Prop} (s : State) (h0 : ∀ e, P { s with env := e })
    (hm : ∀ t m, P t → P (t.envMove m)) : P s.envTurn := by
  unfold State.envTurn
  split
  · exact h0 s.env
  · next batch rest _ => exact envMoves_induction hm batch _ (h0 rest)

theorem envTurn_single {s : State} {m : EnvMove} {rest : List (List EnvMove)} (h : s.env = [m] :: rest) :
    s.envTurn = ({ s with env := rest } : State).envMove m := by
  rw [State.envTurn, h]
  rfl

theorem envTurn_inQueue (s : State) (x : Field5) : ∃ q, s.envTurn.inQueue x = s.inQueue x ++ q :=
  envTurn_induction (P := fun t => ∃ q, t.inQueue x = s.inQueue x ++ q) s
    (fun _ => ⟨[], (List.append_nil _).symm⟩) fun t m ⟨q, hq⟩ => by
      obtain h | ⟨_, w, h⟩ := envMove_inQueue t m x
      · exact ⟨q, h.trans hq⟩
      · exact ⟨q ++ [w], by rw [h, hq, List.append_assoc]⟩

theorem envTurn_outQueue (s : State) (x : Field5) : ∃ n, s.envTurn.outQueue x = (s.outQueue x).drop n :=
  envTurn_induction (P := fun t => ∃ n, t.outQueue x = (s.outQueue x).drop n) s (fun _ => ⟨0, rfl⟩)
    fun t m ⟨n, hn⟩ => by
      obtain h | ⟨_, h⟩ := envMove_outQueue t m x
      · exact ⟨n, h.trans hn⟩
      · exact ⟨n + 1, by rw [h, hn, List.tail_drop]⟩

theorem envTurn_env (s : State) : s.envTurn.env = s.env.tail := by rw [envTurn_frame]

theorem envTurn_xerRest (s : State) : s.envTurn.xerRest = s.xerRest := by rw [envTurn_frame]

/-! ## A step without an instruction -/

theorem step_of_misaligned {s : State} (ha : s.pcAligned = false) : step s = .refused .pcMisaligned := by
  simp [step, ha]

theorem step_at_programEnd {s : State} (ha : s.pcAligned = true) (hp : s.fetchPlace = .programEnd) :
    step s = .next s := by
  simp [step, ha, hp]

theorem step_outside {s : State} (ha : s.pcAligned = true) (hp : s.fetchPlace = .outside) :
    step s = .refused .fetchOutsideProgram := by
  simp [step, ha, hp]

theorem step_of_undecodable {s : State} {e : DecodeError} (ha : s.pcAligned = true) (hp : s.fetchPlace = .text)
    (hd : decode s.cfg.getEnc s.fetchBytes = .error e) : step s = .refused (refusalOf e) := by
  simp [step, ha, hp, hd]

end Sys2Proof.Machine
end

section
/-! SUPPORT. The invariant (10_state R24, R36; 30_encoding R86): each of its four parts is kept by every instruction that
completes and by every move of the environment. -/

namespace Sys2Proof.Machine

theorem State.cfgWf_congr {s t : State} (h : t.cfg = s.cfg) : t.cfgWf = s.cfgWf := by simp only [State.cfgWf, h]

theorem State.pcAligned_iff (s : State) : s.pcAligned = true ↔ s.pc.toNat % 4 = 0 := by
  rw [State.pcAligned, beq_iff_eq, ← BitVec.toNat_inj, BitVec.toNat_and]
  exact iff_of_eq (congrArg (· = 0) (Nat.and_two_pow_sub_one_eq_mod s.pc.toNat 2))

/-- 4 divides 2^32, so pc + 4 is a multiple of 4 also where it wraps. -/
theorem pcAligned_add_four {s t : State} (h : t.pc = s.pc + 4#32) (ha : s.pcAligned = true) : t.pcAligned = true := by
  rw [State.pcAligned_iff] at ha ⊢
  rw [h, BitVec.toNat_add, BitVec.toNat_ofNat]
  omega

/-! ## Instructions -/

theorem exec_keeps_memWf {i : Instr} {s t : State} (h : exec i s = .next t) (hw : s.mem.wf = true) : t.mem.wf = true := by
  cases hc : classOf i with
  | get n c rD fsl => rw [exec_get_frame hc h]; exact hw
  | put n c rA fsl => rw [exec_put_frame hc h]; exact hw
  | udi n rcn x a b => rw [(exec_udi_frame hc h).1]; exact hw
  | load k u f rA rB => rw [exec_load_frame hc h]; exact hw
  | store k u f rA rB =>
    obtain ⟨_, m, hm, rfl⟩ := exec_store_next hc h
    rw [afterTransfer_frame]
    exact (storeBeats_memory hm hw).1

theorem exec_keeps_pcAligned {i : Instr} {s t : State} (h : exec i s = .next t) (ha : s.pcAligned = true) :
    t.pcAligned = true := by
  obtain hp | ⟨_, rfl⟩ := exec_pc h
  · exact pcAligned_add_four hp ha
  · exact ha

/-- A queue that changed belongs to an existing link, so an absent one holds what it held: nothing. -/
theorem exec_keeps_absentFslsEmpty {i : Instr} {s t : State} (h : exec i s = .next t) (hs : s.absentFslsEmpty) :
    t.absentFslsEmpty := by
  intro x hx
  rw [exec_hasFsl h] at hx
  obtain ⟨hin, hout⟩ := hs x hx
  have absent : ¬ s.hasFsl x = true := by simp [hx]
  exact ⟨((exec_inQueue h x).resolve_right absent).trans hin, ((exec_outQueue h x).resolve_right absent).trans hout⟩

theorem exec_keeps_inv {i : Instr} {s t : State} (h : exec i s = .next t) (hs : s.Inv) : t.Inv := by
  obtain ⟨hmem, hpc, hcfg, habs⟩ := hs
  exact ⟨exec_keeps_memWf h hmem, exec_keeps_pcAligned h hpc, (State.cfgWf_congr (exec_cfg h)).trans hcfg,
    exec_keeps_absentFslsEmpty h habs⟩

/-! ## The environment -/

theorem envMove_keeps_absentFslsEmpty {s : State} (m : EnvMove) (hs : s.absentFslsEmpty) :
    (s.envMove m).absentFslsEmpty := by
  intro x hx
  rw [envMove_hasFsl] at hx
  obtain ⟨hin, hout⟩ := hs x hx
  constructor
  · obtain h | ⟨hf, _⟩ := envMove_inQueue s m x
    · exact h.trans hin
    · rw [hx] at hf; cases hf
  · obtain h | ⟨hf, _⟩ := envMove_outQueue s m x
    · exact h.trans hout
    · rw [hx] at hf; cases hf

theorem envTurn_keeps_inv {s : State} (hs : s.Inv) : s.envTurn.Inv := by
  obtain ⟨hmem, hpc, hcfg, habs⟩ := hs
  refine ⟨?_, ?_, ?_, envTurn_induction s (fun _ => habs) fun t m => envMove_keeps_absentFslsEmpty m⟩
  · rw [envTurn_mem]; exact hmem
  · rw [State.pcAligned, envTurn_pc]; exact hpc
  · exact (State.cfgWf_congr (envTurn_cfg s)).trans hcfg

end Sys2Proof.Machine
end

section
/-! SUPPORT. The eight get and put forms on a link that does not exist (10_state R38). -/

namespace Sys2Proof.Machine

/-- The eight forms, in terms of their classes. -/
theorem classOf_fslForms {r fsl : Field5} {i : Instr}
    (hi : i ∈ ([.get r fsl, .nget r fsl, .cget r fsl, .ncget r fsl, .put r fsl, .nput r fsl, .cput r fsl, .ncput r fsl] :
      List Instr)) :
    ∃ n c, classOf i = .get n c r fsl ∨ classOf i = .put n c r fsl := by
  simp only [List.mem_cons, List.not_mem_nil, or_false] at hi
  obtain rfl | rfl | rfl | rfl | rfl | rfl | rfl | rfl := hi
  · exact ⟨false, false, .inl rfl⟩
  · exact ⟨true, false, .inl rfl⟩
  · exact ⟨false, true, .inl rfl⟩
  · exact ⟨true, true, .inl rfl⟩
  · exact ⟨false, false, .inr rfl⟩
  · exact ⟨true, false, .inr rfl⟩
  · exact ⟨false, true, .inr rfl⟩
  · exact ⟨true, true, .inr rfl⟩

theorem fslChecked_of_absent {fsl : Field5} {s : State} (hp : s.priv = .privileged) (ha : s.cfg.apu.fsl = true)
    (hf : s.hasFsl fsl = false) (r : Host.Outcome State Fault Refusal) :
    fslChecked fsl s r = .refused .noSuchFsl := by
  simp [fslChecked, hp, ha, hf]

end Sys2Proof.Machine
end

section
/-! The statements of 10_state. -/

namespace Sys2Proof.Machine

/-- Settles O3: the turn of the environment keeps the invariant, then the instruction does. -/
theorem stepKeepsInvariant : Obligations.StepKeepsInvariant := by
  intro s t hs h
  obtain ⟨_, ⟨_, rfl⟩ | ⟨_, i, _, _, hx⟩⟩ := step_next h
  · exact hs
  · exact exec_keeps_inv hx (envTurn_keeps_inv hs)

/-- Settles O21: the third check of R122 refuses all eight forms, before any queue is looked at. -/
theorem missingFslIsRefused : Obligations.MissingFslIsRefused := by
  intro r fsl s hp ha hn i hi
  have hf : s.hasFsl fsl = false := by simpa [State.hasFsl] using hn
  rw [exec_eq_execClass]
  obtain ⟨n, c, hc | hc⟩ := classOf_fslForms hi
  · rw [hc]; exact fslChecked_of_absent hp ha hf _
  · rw [hc]; exact fslChecked_of_absent hp ha hf _

/-- Settles O46: the frames of the classes leave XER[CA] to the get and put forms, whose value of it is known. -/
theorem carryFlagRule : Obligations.CarryFlagRule := by
  intro i s t h
  refine ⟨fun hne => ?_, fun c rD fsl hc => exec_get_xerCa hc h, fun c rA fsl hc => exec_put_xerCa hc h,
    fun v => exec_withXer v s.xerOv h⟩
  cases hc : classOf i with
  | get n c rD fsl =>
    cases n with
    | true => exact ⟨c, rD, fsl, .inl rfl⟩
    | false => exact absurd (exec_get_xerCa hc h) hne
  | put n c rA fsl =>
    cases n with
    | true => exact ⟨c, rA, fsl, .inr rfl⟩
    | false => exact absurd (exec_put_xerCa hc h) hne
  | udi n rcn x a b => exact absurd (by rw [(exec_udi_frame hc h).1]) hne
  | load k u f rA rB => exact absurd (by rw [exec_load_frame hc h]) hne
  | store k u f rA rB => exact absurd (by rw [exec_store_frame hc h]) hne

/-- Settles O47: the frames of the classes leave XER[OV] to the get forms, which write it whatever it was. -/
theorem overflowFlagRule : Obligations.OverflowFlagRule := by
  intro i s t h
  refine ⟨fun hne => ?_, fun n c rD fsl w rest hc hq => ?_, fun v => exec_withXer s.xerCa v h⟩
  · cases hc : classOf i with
    | get n c rD fsl => exact ⟨n, c, rD, fsl, rfl⟩
    | put n c rA fsl => exact absurd (by rw [exec_put_frame hc h]) hne
    | udi n rcn x a b => exact absurd (by rw [(exec_udi_frame hc h).1]) hne
    | load k u f rA rB => exact absurd (by rw [exec_load_frame hc h]) hne
    | store k u f rA rB => exact absurd (by rw [exec_store_frame hc h]) hne
  · rw [exec_get_xerOv_of_word hc hq h, ovOfGet_eq_false_iff]

/-- Settles O48: neither the environment's turn nor an instruction has the field among those it changes. -/
theorem otherXerFieldsUnchanged : Obligations.OtherXerFieldsUnchanged := by
  refine fun s t => ⟨fun h => ?_, fun i h => exec_xerRest h⟩
  obtain ⟨_, ⟨_, rfl⟩ | ⟨_, i, _, _, hx⟩⟩ := step_next h
  · rfl
  · exact (exec_xerRest hx).trans (envTurn_xerRest s)

/-- Settles O49: only the frame of the UDIs has CR in it, and that with Rcn = 0 alone. -/
theorem conditionRegisterWriters : Obligations.ConditionRegisterWriters := by
  intro i s t h hne
  cases hc : classOf i with
  | get n c rD fsl => exact absurd (by rw [exec_get_frame hc h]) hne
  | put n c rA fsl => exact absurd (by rw [exec_put_frame hc h]) hne
  | udi n rcn x a b =>
    have hrcn : rcn = 0#1 := by
      by_contra hr
      exact hne ((exec_udi_frame hc h).2 hr)
    exact ⟨n, x, a, b, by rw [hrcn]⟩
  | load k u f rA rB => exact absurd (by rw [exec_load_frame hc h]) hne
  | store k u f rA rB => exact absurd (by rw [exec_store_frame hc h]) hne

/-- Settles O50: by class, from what each leaves in the registers. -/
theorem generalRegisterWriters : Obligations.GeneralRegisterWriters := by
  intro i s t r h hne
  cases hc : classOf i with
  | get n c rD fsl =>
    have hr : r = rD := by
      by_contra hr
      exact hne (exec_get_readGpr_other hc h hr)
    exact .inl ⟨n, c, fsl, by rw [hr]⟩
  | put n c rA fsl => exact absurd (State.readGpr_congr (by rw [exec_put_frame hc h]) r) hne
  | udi n rcn x a b =>
    obtain ⟨_, m, hm, _, rfl⟩ := exec_udi_next hc h
    rw [udiCompleted_readGpr] at hne
    split at hne
    · next hk =>
      obtain ⟨hk, rfl⟩ := hk
      exact .inr (.inr ⟨n, rcn, a, b, m, rfl, hm, hk⟩)
    · exact absurd rfl hne
  | load k u f rA rB =>
    have ht : transferOf (classOf i) = some (k, .load, u, f, rA, rB) := by rw [hc]; rfl
    obtain ⟨rfl, rfl, hr⟩ := exec_transfer_writes_rA ht h hne
    exact .inr (.inl ⟨k, .load, f, rB, rfl, hr⟩)
  | store k u f rA rB =>
    have ht : transferOf (classOf i) = some (k, .store, u, f, rA, rB) := by rw [hc]; rfl
    obtain ⟨rfl, rfl, hr⟩ := exec_transfer_writes_rA ht h hne
    exact .inr (.inl ⟨k, .store, f, rB, rfl, hr⟩)

/-- Settles O51: the rule for pc, class by class, is `exec_pc`. -/
theorem programCounterRule : Obligations.ProgramCounterRule := fun _ _ _ h => exec_pc h

/-- Settles O52: by class, from the fields in its frame. -/
theorem memoryAndFcmWriters : Obligations.MemoryAndFcmWriters := by
  intro i s t h
  refine ⟨fun hne => ?_, fun hne => ?_, fun hne => ?_, by rw [exec_frame h]⟩
  · cases hc : classOf i with
    | get n c rD fsl => exact absurd (by rw [exec_get_frame hc h]) hne
    | put n c rA fsl => exact absurd (by rw [exec_put_frame hc h]) hne
    | udi n rcn x a b => exact absurd (by rw [(exec_udi_frame hc h).1]) hne
    | load k u f rA rB => exact absurd (by rw [exec_load_frame hc h]) hne
    | store k u f rA rB => exact ⟨k, u, f, rA, rB, rfl⟩
  · cases hc : classOf i with
    | get n c rD fsl => exact absurd (by rw [exec_get_frame hc h]) hne
    | put n c rA fsl => exact absurd (by rw [exec_put_frame hc h]) hne
    | udi n rcn x a b => exact .inr ⟨n, rcn, x, a, b, rfl⟩
    | load k u f rA rB => exact .inl ⟨k, u, f, rA, rB, rfl⟩
    | store k u f rA rB => exact absurd (by rw [exec_store_frame hc h]) hne
  · cases hc : classOf i with
    | get n c rD fsl => rfl
    | put n c rA fsl => rfl
    | udi n rcn x a b => rw [(exec_udi_frame hc h).1] at hne; simp at hne
    | load k u f rA rB => rw [exec_load_frame hc h] at hne; simp at hne
    | store k u f rA rB => rw [exec_store_frame hc h] at hne; simp at hne

/-- Settles O53: the turn by induction over its moves, and each kind of move on an existing link by its equation. -/
theorem environmentMoves : Obligations.EnvironmentMoves := by
  refine ⟨fun s => ⟨envTurn_inQueue s, envTurn_outQueue s, ?_⟩,
    fun s x w v rest hx => ⟨fun h => ?_, fun h => ?_, fun h => ?_⟩⟩
  · rw [envTurn_env]
    exact envTurn_frame s
  · have hx' : ({ s with env := rest } : State).hasFsl x = true := hx
    rw [envTurn_single h]
    exact ⟨by rw [envMove_supply hx']; rfl, envMove_supply_inQueue hx' w⟩
  · have hx' : ({ s with env := rest } : State).hasFsl x = true := hx
    rw [envTurn_single h]
    exact ⟨by rw [envMove_drain hx']; rfl, envMove_drain_outQueue hx'⟩
  · have hx' : ({ s with env := rest } : State).hasFsl x = true := hx
    rw [envTurn_single h, envMove_setFull hx']
    exact ⟨rfl, fun y => State.isFull_setFull _ x y v⟩

/-- Settles O2: with N_FSL = 32 every 5-bit FSL number names a link that exists. -/
theorem resetMeetsInvariant : Obligations.ResetMeetsInvariant := by
  refine ⟨rfl, by decide, by decide, fun x hx => ?_⟩
  have present : State.reset.hasFsl x = true := decide_eq_true x.isLt
  rw [present] at hx
  cases hx

/-- Settles O6: the branches of `step` that run no instruction. -/
theorem stepOutsideTheText : Obligations.StepOutsideTheText := fun _ =>
  ⟨step_of_misaligned, step_at_programEnd, step_outside, fun _ => step_of_undecodable⟩

end Sys2Proof.Machine
end

section
/-! SUPPORT. The program text (20_memory R67; 70_reset R263): what keeps it, one instruction, one step, and a run. -/

namespace Sys2Proof.Machine

/-! ## The relation -/

theorem sameText_refl (s : State) : sameText s s := ⟨rfl, rfl, fun _ _ => rfl⟩

theorem inText_congr {s t : State} (hb : t.progBase = s.progBase) (hl : t.progLen = s.progLen) (a : Word) :
    t.inText a = s.inText a := by simp only [State.inText, hb, hl]

theorem sameText_trans {s t u : State} (h₁ : sameText s t) (h₂ : sameText t u) : sameText s u := by
  obtain ⟨hb, hl, hm⟩ := h₁
  obtain ⟨hb', hl', hm'⟩ := h₂
  refine ⟨hb'.trans hb, hl'.trans hl, fun a ha => ?_⟩
  have ha' : t.inText a = true := (inText_congr hb hl a).trans ha
  exact (hm' a ha').trans (hm a ha)

theorem envTurn_sameText (s : State) : sameText s s.envTurn :=
  ⟨envTurn_progBase s, envTurn_progLen s, fun _ _ => by rw [envTurn_mem]⟩

/-! ## One instruction, one step -/

/-- An instruction that completes leaves memory alone or is a store, and no store beat goes through into the text. -/
theorem exec_sameText {i : Instr} {s t : State} (h : exec i s = .next t) (hw : s.mem.wf = true) : sameText s t := by
  refine ⟨by rw [exec_frame h], by rw [exec_frame h], fun a ha => ?_⟩
  cases hc : classOf i with
  | get n c rD fsl => rw [exec_get_frame hc h]
  | put n c rA fsl => rw [exec_put_frame hc h]
  | udi n rcn x a b => rw [(exec_udi_frame hc h).1]
  | load k u f rA rB => rw [exec_load_frame hc h]
  | store k u f rA rB =>
    obtain ⟨_, m, hm, rfl⟩ := exec_store_next hc h
    obtain ⟨_, htext, _⟩ := storeBeats_memory hm hw
    rw [afterTransfer_frame]
    exact htext a ha

theorem step_sameText {s t : State} (h : step s = .next t) (hw : s.mem.wf = true) : sameText s t := by
  obtain ⟨_, ⟨_, rfl⟩ | ⟨_, i, _, _, hx⟩⟩ := step_next h
  · exact sameText_refl t
  · exact sameText_trans (envTurn_sameText s) (exec_sameText hx (by rw [envTurn_mem]; exact hw))

theorem step_keeps_memWf {s t : State} (h : step s = .next t) (hw : s.mem.wf = true) : t.mem.wf = true := by
  obtain ⟨_, ⟨_, rfl⟩ | ⟨_, i, _, _, hx⟩⟩ := step_next h
  · exact hw
  · exact exec_keeps_memWf hx (by rw [envTurn_mem]; exact hw)

/-! ## A run -/

/-- A run of `n + 1` steps that answers a state: one step, then a run of `n`. -/
theorem run_succ_next {M : Host.Core} {n : Nat} {s t : M.State} (h : M.run (n + 1) s = .next t) :
    ∃ m, M.step s = .next m ∧ M.run n m = .next t := by
  unfold Host.Core.run at h
  split at h
  · next m hm => exact ⟨m, hm, h⟩
  · cases h
  · cases h

/-- What every step keeps holds after any run that answers a state. -/
theorem run_induction {P : State → Prop} (hstep : ∀ {s t : State}, P s → step s = .next t → P t) :
    ∀ {n : Nat} {s t : State}, P s → Host.Core.run Sys2Proof.core n s = .next t → P t
  | 0, _, _, hs, h => by cases h; exact hs
  | _ + 1, _, _, hs, h => by
    obtain ⟨_, hm, ht⟩ := run_succ_next h
    exact run_induction hstep (hstep hs hm) ht

/-- Over a run: canonical memory is part of what is carried along, because the text's safety at each step rests on it. -/
theorem run_sameText {n : Nat} {s t : State} (hw : s.mem.wf = true)
    (h : Host.Core.run Sys2Proof.core n s = .next t) : sameText s t := by
  have hkeep : ∀ {m u : State}, m.mem.wf = true ∧ sameText s m → step m = .next u → u.mem.wf = true ∧ sameText s u :=
    fun ⟨hm, hs⟩ hu => ⟨step_keeps_memWf hu hm, sameText_trans hs (step_sameText hu hm)⟩
  exact (run_induction (P := fun m => m.mem.wf = true ∧ sameText s m) hkeep ⟨hw, sameText_refl s⟩ h).2

/-! ## Fetching from the same text -/

theorem fetchPlace_of_sameText {s t : State} (h : sameText s t) (p : Word) :
    ({ t with pc := p } : State).fetchPlace = ({ s with pc := p } : State).fetchPlace := by
  cases t
  obtain ⟨rfl, rfl, _⟩ := h
  rfl

/-- The four bytes of a fetch are bytes of the text (`fetchPlace_text`), which reads the same. -/
theorem fetchBytes_of_sameText {s t : State} (h : sameText s t) {p : Word}
    (hp : ({ s with pc := p } : State).fetchPlace = .text) :
    ({ t with pc := p } : State).fetchBytes = ({ s with pc := p } : State).fetchBytes := by
  obtain ⟨_, _, hm⟩ := h
  have hread : ∀ i < 4, t.mem.read (p + BitVec.ofNat 32 i) = s.mem.read (p + BitVec.ofNat 32 i) :=
    fun i hi => hm _ (fetchPlace_text hp hi)
  have h0 : t.mem.read p = s.mem.read p := by simpa using hread 0 (by omega)
  have h1 : t.mem.read (p + 1#32) = s.mem.read (p + 1#32) := hread 1 (by omega)
  have h2 : t.mem.read (p + 2#32) = s.mem.read (p + 2#32) := hread 2 (by omega)
  have h3 : t.mem.read (p + 3#32) = s.mem.read (p + 3#32) := hread 3 (by omega)
  simp only [State.fetchBytes, h0, h1, h2, h3]

end Sys2Proof.Machine
end

section
/-! SUPPORT. Addresses, misalignment and byte lanes as arithmetic (20_memory R55, R56, R57): the model's masks as remainders
and bit fields. -/

namespace Sys2Proof.Machine

/-! ## Low bits of a word -/

theorem toNat_and_lowOnes (v : Word) {k : Nat} (hk : k ≤ 32) :
    (v &&& BitVec.ofNat 32 (2 ^ k - 1)).toNat = v.toNat % 2 ^ k := by
  have hlt : 2 ^ k - 1 < 2 ^ 32 := by
    have hle : 2 ^ k ≤ 2 ^ 32 := Nat.pow_le_pow_right (by omega) hk
    have hpos : 0 < 2 ^ k := Nat.two_pow_pos k
    omega
  rw [BitVec.toNat_and, BitVec.toNat_ofNat, Nat.mod_eq_of_lt hlt, Nat.and_two_pow_sub_one_eq_mod]

theorem and_lowOnes_eq_zero_iff (v : Word) {k : Nat} (hk : k ≤ 32) :
    v &&& BitVec.ofNat 32 (2 ^ k - 1) = 0#32 ↔ v.toNat % 2 ^ k = 0 := by
  rw [← BitVec.toNat_inj, toNat_and_lowOnes v hk]
  exact Iff.rfl

/-- Clearing bits subtracts them: a word is the disjoint sum of the bits a mask keeps and those it clears. -/
theorem toNat_and_not (v m : Word) : (v &&& ~~~m).toNat = v.toNat - (v &&& m).toNat := by
  have hdisj : (v &&& ~~~m) &&& (v &&& m) = 0#32 := by
    rw [show (v &&& ~~~m) &&& (v &&& m) = (v &&& v) &&& (m &&& ~~~m) by ac_rfl, BitVec.and_not_self]
    exact BitVec.and_zero
  have hsum : (v &&& ~~~m) + (v &&& m) = v := by
    rw [BitVec.add_eq_or_of_and_eq_zero _ _ hdisj, ← BitVec.and_or_distrib_left, BitVec.or_comm, BitVec.or_not_self,
      BitVec.and_allOnes]
  have hnat := BitVec.toNat_add_of_and_eq_zero hdisj
  rw [hsum] at hnat
  omega

/-! ## The effective address (R55) -/

theorem toNat_baseOperand (u : Bool) (rA : Field5) (s : State) :
    (baseOperand u rA s).toNat = if u = false ∧ rA = 0#5 then 0 else (s.readGpr rA).toNat := by
  unfold baseOperand
  cases u <;> by_cases h : rA = 0#5 <;> simp [h]

theorem toNat_alignBits (k : AccessKind) (v : Word) : (v &&& alignMask k).toNat = v.toNat % unitBytes k := by
  cases k with
  | b => exact toNat_and_lowOnes v (k := 0) (by omega)
  | h => exact toNat_and_lowOnes v (k := 1) (by omega)
  | w => exact toNat_and_lowOnes v (k := 2) (by omega)
  | d => exact toNat_and_lowOnes v (k := 2) (by omega)
  | q => exact toNat_and_lowOnes v (k := 2) (by omega)

/-- EA is the sum rounded down to a multiple of the size of one access. -/
theorem toNat_effectiveAddress (k : AccessKind) (v : Word) :
    (effectiveAddress k v).toNat = v.toNat - v.toNat % unitBytes k := by
  rw [effectiveAddress, toNat_and_not, toNat_alignBits]

theorem ne_effectiveAddress_iff (k : AccessKind) (v : Word) :
    v ≠ effectiveAddress k v ↔ v.toNat % unitBytes k ≠ 0 := by
  have hle : v.toNat % unitBytes k ≤ v.toNat := Nat.mod_le _ _
  rw [ne_eq, ← BitVec.toNat_inj, toNat_effectiveAddress]
  omega

/-! ## The misalignment test (R56) -/

@[simp] theorem misalignRaises_mask (k : AccessKind) (v : Word) : misalignRaises .mask k v = false := rfl

theorem misalignRaises_fault_iff (k : AccessKind) (v : Word) :
    misalignRaises .fault k v = true ↔ v.toNat % unitBytes k ≠ 0 := by
  rw [← ne_effectiveAddress_iff, ← bne_iff_ne]
  exact Iff.rfl

/-- The two policies differ for the kinds of more than one beat only. -/
theorem misalignRaises_faultNatural_iff (k : AccessKind) (v : Word) :
    misalignRaises .faultNatural k v = true ↔ v.toNat % transferBytes k ≠ 0 := by
  cases k with
  | b => exact misalignRaises_fault_iff .b v
  | h => exact misalignRaises_fault_iff .h v
  | w => exact misalignRaises_fault_iff .w v
  | d => exact bne_iff_ne.trans (and_lowOnes_eq_zero_iff v (k := 3) (by omega)).not
  | q => exact bne_iff_ne.trans (and_lowOnes_eq_zero_iff v (k := 4) (by omega)).not

/-! ## Byte lanes (R57) -/

theorem laneOffset_eq (ea : Word) : laneOffset ea = 8 * (ea.toNat % 4) :=
  congrArg (8 * ·) (toNat_and_lowOnes ea (k := 2) (by omega))

@[simp] theorem getElem_lowBytes (n : Nat) {i : Nat} (hi : i < 32) : (lowBytes n)[i] = decide (i < 8 * n) := by
  rw [← BitVec.getLsbD_eq_getElem hi, lowBytes, BitVec.getLsbD_ofNat, Nat.testBit_two_pow_sub_one, decide_eq_true hi,
    Bool.true_and]

/-- The low bytes of a word, as a mask and as a truncation. -/
theorem and_lowBytes (v : Word) (n : Nat) : v &&& lowBytes n = (v.setWidth (8 * n)).setWidth 32 := by
  apply BitVec.eq_of_getElem_eq
  intro i hi
  simp [BitVec.getLsbD_setWidth, BitVec.getLsbD_eq_getElem hi, Bool.and_comm]

theorem extractLane_eq (eb n : Nat) (d : Word) :
    extractLane eb n d = (d.extractLsb' (laneLo eb n) (8 * n)).setWidth 32 := by
  apply BitVec.eq_of_getElem_eq
  intro i hi
  simp [extractLane, Bool.and_comm]

/-- A datum put into a lane is read back from it, whatever the other bits were: the lane lies inside the word, so no bit of
the datum's low bytes is shifted out. -/
theorem extractLane_insertLane (eb n : Nat) (v bg : Word) :
    extractLane eb n (insertLane eb n v bg) = (v.setWidth (8 * n)).setWidth 32 := by
  rw [← and_lowBytes]
  apply BitVec.eq_of_getElem_eq
  intro i hi
  by_cases hb : i < 8 * n
  · have hin : laneLo eb n + i < 32 := by unfold laneLo; omega
    simp [extractLane, insertLane, hb, hin]
  · simp [extractLane, hb]

end Sys2Proof.Machine
end

section
/-! SUPPORT. The byte order of memory (20_memory R51, R69): what an access of several bytes is, byte for byte, and what the
decoder is given. -/

namespace Sys2Proof.Machine

/-! ## Reading -/

/-- A byte below the bytes read so far: nothing is shifted out while there are fewer than four. -/
theorem toNat_shiftLeft_or_byte {w : Word} {b : Byte} (hw : w.toNat < 16777216) :
    (w <<< 8 ||| b.setWidth 32).toNat = w.toNat * 256 + b.toNat := by
  have hb : b.toNat < 2 ^ 8 := b.isLt
  have hshift : (w <<< 8).toNat = w.toNat <<< 8 := by
    rw [BitVec.toNat_shiftLeft, Nat.mod_eq_of_lt (by rw [Nat.shiftLeft_eq]; omega)]
  have hbyte : (b.setWidth 32).toNat = b.toNat := by
    rw [BitVec.toNat_setWidth, Nat.mod_eq_of_lt (by omega)]
  rw [BitVec.toNat_or, hshift, hbyte, ← Nat.shiftLeft_add_eq_or_of_lt hb, Nat.shiftLeft_eq]

/-- One byte more is one digit more to the base 256. -/
theorem Memory.toNat_readBytes_succ (m : Memory) (ra : Word) {n : Nat} (h : (m.readBytes ra n).toNat < 16777216) :
    (m.readBytes ra (n + 1)).toNat = (m.readBytes ra n).toNat * 256 + (m.read (ra + BitVec.ofNat 32 n)).toNat :=
  toNat_shiftLeft_or_byte h

theorem Memory.toNat_readBytes_one (m : Memory) (a : Word) : (m.readBytes a 1).toNat = (m.read a).toNat := by
  have h := m.toNat_readBytes_succ a (n := 0) (Nat.zero_lt_succ _)
  simpa [Memory.readBytes] using h

theorem Memory.toNat_readBytes_two (m : Memory) (a : Word) :
    (m.readBytes a 2).toNat = (m.read a).toNat * 256 + (m.read (a + 1#32)).toNat := by
  have h1 := m.toNat_readBytes_one a
  have b0 := (m.read a).isLt
  rw [m.toNat_readBytes_succ a (n := 1) (by omega), h1]

theorem Memory.toNat_readBytes_four (m : Memory) (a : Word) :
    (m.readBytes a 4).toNat = (m.read a).toNat * 16777216 + (m.read (a + 1#32)).toNat * 65536 +
      (m.read (a + 2#32)).toNat * 256 + (m.read (a + 3#32)).toNat := by
  have h2 := m.toNat_readBytes_two a
  have b0 := (m.read a).isLt
  have b1 := (m.read (a + 1#32)).isLt
  have b2 := (m.read (a + 2#32)).isLt
  have h3 : (m.readBytes a 3).toNat = (m.readBytes a 2).toNat * 256 + (m.read (a + 2#32)).toNat :=
    m.toNat_readBytes_succ a (by omega)
  rw [m.toNat_readBytes_succ a (n := 3) (by omega), h3, h2]
  ring

/-! ## Writing -/

theorem extractLsb'_ushiftRight (v : Word) (lo len n : Nat) :
    (v >>> n).extractLsb' lo len = v.extractLsb' (lo + n) len := by
  apply BitVec.eq_of_getElem_eq
  intro i hi
  simp [Nat.add_left_comm, Nat.add_comm]

/-- Byte `k` of `n` written bytes is the `k`-th from the most significant end. -/
theorem Memory.read_writeBytes (m : Memory) (hw : m.wf = true) (ra : Word) : ∀ {n k : Nat} (v : Word), n ≤ 4 → k < n →
    (m.writeBytes ra v n).read (ra + BitVec.ofNat 32 k) = v.extractLsb' (8 * (n - 1 - k)) 8
  | n + 1, k, v, hn, hk => by
    have hw' := Memory.wf_writeBytes m hw ra n (v >>> 8)
    rw [Memory.writeBytes, Memory.read_write _ hw']
    by_cases hkn : k = n
    · rw [if_pos (by rw [hkn]), hkn, Nat.add_sub_cancel, Nat.sub_self]
      rfl
    · rw [if_neg fun e => hkn (offset_inj ra (by omega) (by omega) e),
        Memory.read_writeBytes m hw ra (v >>> 8) (by omega) (by omega), extractLsb'_ushiftRight,
        show 8 * (n - 1 - k) + 8 = 8 * (n + 1 - 1 - k) by omega]

/-- A whole word written is read back (R64). -/
theorem Memory.readBytes_writeBytes_word (m : Memory) (hw : m.wf = true) (ra v : Word) :
    (m.writeBytes ra v 4).readBytes ra 4 = v :=
  (m.readBytes_writeBytes hw ra 4 v (by omega)).trans BitVec.and_allOnes

/-! ## Fetching (R69) -/

theorem toNat_wordOfBytes (b0 b1 b2 b3 : Byte) :
    (wordOfBytes b0 b1 b2 b3).toNat = b0.toNat * 16777216 + b1.toNat * 65536 + b2.toNat * 256 + b3.toNat := by
  have h1 : b1.toNat < 2 ^ 8 := b1.isLt
  have h2 : b2.toNat < 2 ^ 8 := b2.isLt
  have h3 : b3.toNat < 2 ^ 8 := b3.isLt
  rw [wordOfBytes, BitVec.toNat_append, BitVec.toNat_append, BitVec.toNat_append, ← Nat.shiftLeft_add_eq_or_of_lt h1,
    ← Nat.shiftLeft_add_eq_or_of_lt h2, ← Nat.shiftLeft_add_eq_or_of_lt h3, Nat.shiftLeft_eq, Nat.shiftLeft_eq,
    Nat.shiftLeft_eq]
  ring

/-- The instruction word is what a word access at pc would read. -/
theorem State.instrWord_eq_readBytes (s : State) : s.instrWord = s.mem.readBytes s.pc 4 := by
  apply BitVec.eq_of_toNat_eq
  rw [State.instrWord, toNat_wordOfBytes, Memory.toNat_readBytes_four]

/-- The fetched bytes decode as the instruction word does, with no byte left over. -/
theorem decode_fetchBytes (e : GetEnc) (s : State) :
    decode e s.fetchBytes = (decodeWord e s.instrWord).map (fun i => (i, [])) := by
  rw [State.fetchBytes, decode, ← State.instrWord]
  cases decodeWord e s.instrWord <;> rfl

end Sys2Proof.Machine
end

section
/-! SUPPORT. Translate and the accesses of a transfer (20_memory R52, R60, R62, R67): when each answer comes, and where the
first beat that does not go through ends the instruction. -/

namespace Sys2Proof.Machine

/-! ## Translate (R60) -/

section
variable (s : State) (ea : Word) (a : Access)

theorem translate_of_real (h : s.dataReloc = false) : s.translate ea a = .ok ea (realEndian s.translation ea) := by
  simp [State.translate, h]

theorem translate_of_unprotected {e : TlbAnswer} (h : s.dataReloc = true)
    (he : lookupTlb s.translation.tlb ea a s.priv = some e) (hz : e.zone = .unprotected) :
    s.translate ea a = .ok e.ra e.endian := by
  simp [State.translate, h, he, hz]

/-- A miss is the lack of a valid entry. -/
theorem translate_eq_tlbMiss_iff :
    s.translate ea a = .tlbMiss ↔ s.dataReloc = true ∧ lookupTlb s.translation.tlb ea a s.priv = none := by
  cases hr : s.dataReloc with
  | false => simp [translate_of_real s ea a hr]
  | true =>
    cases he : lookupTlb s.translation.tlb ea a s.priv with
    | none => simp [State.translate, hr, he]
    | some e =>
      simp only [State.translate, hr, he, if_true]
      split <;> simp

/-- No-access protection speaks in user mode only. -/
theorem translate_eq_noAccess_iff :
    s.translate ea a = .noAccess ↔ s.dataReloc = true ∧ s.priv = .user ∧
      ∃ e, lookupTlb s.translation.tlb ea a s.priv = some e ∧ e.zone = .noAccess := by
  cases hr : s.dataReloc with
  | false => simp [translate_of_real s ea a hr]
  | true =>
    cases he : lookupTlb s.translation.tlb ea a s.priv with
    | none => simp [State.translate, hr, he]
    | some e =>
      simp only [State.translate, hr, he, if_true]
      split <;> simp_all

/-- Read-only protection speaks of stores only, in both modes. -/
theorem translate_eq_readOnly_iff :
    s.translate ea a = .readOnly ↔ s.dataReloc = true ∧ a = .store ∧
      ∃ e, lookupTlb s.translation.tlb ea a s.priv = some e ∧ e.zone = .readOnly := by
  cases hr : s.dataReloc with
  | false => simp [translate_of_real s ea a hr]
  | true =>
    cases he : lookupTlb s.translation.tlb ea a s.priv with
    | none => simp [State.translate, hr, he]
    | some e =>
      simp only [State.translate, hr, he, if_true]
      split <;> simp_all

end

/-! ## One access (R52, R62) -/

theorem allBytes_eq_false {p : Word → Bool} {ra a : Word} {n : Nat} (ha : inSpan ra n a) (hp : p a = false) :
    allBytes p ra n = false := by
  obtain ⟨k, hk, rfl⟩ := ha
  cases hall : allBytes p ra n with
  | false => rfl
  | true => rw [allBytes_true hall k hk] at hp; cases hp

/-- An access to big-endian storage goes through exactly where the launch memory has its bytes. -/
theorem realAddress_of_big {s : State} {a : Access} {ea ra : Word} (h : s.translate ea a = .ok ra .big)
    (k : AccessKind) (n : Nat) :
    s.realAddress k a ea n = if allBytes s.memoryHas ra n then .ok ra else .error (.refused .noSuchAddress) := by
  simp [State.realAddress, h]

/-! ## Transfers -/

/-- The base and the sum are read from the registers only. -/
theorem addressSum_congr {s t : State} (h : t.gpr = s.gpr) (u : Bool) (rA rB : Field5) :
    addressSum u rA rB t = addressSum u rA rB s := by
  simp only [addressSum, baseOperand, State.readGpr_congr h]

/-- The checks before the first beat read the registers and the launch parameters only. -/
theorem fcmReady_congr {s t : State} (hg : t.gpr = s.gpr) (hc : t.cfg = s.cfg) {k : AccessKind} {u : Bool}
    {rA rB : Field5} (h : fcmReady k u rA rB s) : fcmReady k u rA rB t := by
  unfold fcmReady
  rw [addressSum_congr hg, hc]
  exact h

theorem fcmChecked_of_misaligned {k : AccessKind} {u : Bool} {rA rB : Field5} {s : State} (h0 : u = true → rA ≠ 0#5)
    (h1 : s.cfg.apu.fcmTransfer = true) (h2 : misalignRaises s.cfg.misalign k (addressSum u rA rB s) = true)
    (beats : Word → Host.Outcome State Fault Refusal) :
    fcmChecked k u rA rB s beats = .fault (.alignment { pc := s.pc, info := addressSum u rA rB s, frozen := s }) := by
  have hform : (u && rA == 0#5) = false := by simpa using h0
  simp only [fcmChecked, hform, h1, h2, Bool.not_true, Bool.false_eq_true, if_false, if_true]
  rfl

/-- A sum for which the policy raises ends the instruction before its first beat, the state untouched (R56). -/
theorem exec_of_misaligned {i : Instr} {k : AccessKind} {d : Access} {u : Bool} {f rA rB : Field5} {s : State}
    (hc : transferOf (classOf i) = some (k, d, u, f, rA, rB)) (h0 : u = true → rA ≠ 0#5)
    (h1 : s.cfg.apu.fcmTransfer = true) (h2 : misalignRaises s.cfg.misalign k (addressSum u rA rB s) = true) :
    exec i s = .fault (.alignment { pc := s.pc, info := addressSum u rA rB s, frozen := s }) := by
  rw [exec_eq_execClass]
  cases hi : classOf i with
  | get n c x y => rw [hi] at hc; cases hc
  | put n c x y => rw [hi] at hc; cases hc
  | udi n r x y w => rw [hi] at hc; cases hc
  | load k' u' f' x y =>
    rw [hi] at hc; cases hc
    rw [execClass, loadForm, fcmChecked_of_misaligned h0 h1 h2]
  | store k' u' f' x y =>
    rw [hi] at hc; cases hc
    rw [execClass, storeForm, fcmChecked_of_misaligned h0 h1 h2]

/-- A store whose beats all translate is stopped by the program text if one of them reaches it: beats before the first such
one go through, and they do not change where the text is. -/
theorem storeBeats_stopped_by_text {k : AccessKind} {u : Bool} {f : Field5} {ea : Word} {p : Fin 4 → Bool}
    (ra : Fin 4 → Word) : ∀ (l : List (Fin 4)) (s : State),
    (∀ b ∈ l, s.realAddress k .store (beatAddress ea b) (unitBytes k) = .ok (ra b)) →
    (∃ b ∈ l, allBytes (fun a => !s.inText a) (ra b) (unitBytes k) = false) →
    ∃ b, storeBeats k u f ea p l s = .stopped (.refused .storeToProgramText) b
  | [], _, _, h => by
    obtain ⟨b, hb, _⟩ := h
    cases hb
  | c :: rest, s, hreal, htext => by
    have hc := hreal c List.mem_cons_self
    cases hall : allBytes (fun a => !s.inText a) (ra c) (unitBytes k) with
    | false => exact ⟨c, by simp [storeBeats, storeBeat, State.memWrite, hc, hall]⟩
    | true =>
      obtain ⟨m, hm⟩ : ∃ m, storeBeat k u f ea c (p c) s = .ok m := by simp [storeBeat, State.memWrite, hc, hall]
      simp only [storeBeats, hm]
      have hframe := (storeBeat_frame hm).1
      refine storeBeats_stopped_by_text ra rest m (fun b hb => ?_) ?_
      · rw [hframe]
        exact hreal b (List.mem_cons_of_mem _ hb)
      · obtain ⟨b, hb, hfalse⟩ := htext
        obtain rfl | hb := List.mem_cons.mp hb
        · rw [hall] at hfalse; cases hfalse
        · exact ⟨b, hb, by rw [hframe]; exact hfalse⟩

/-- A refused store beat is the refusal of the store. -/
theorem storeForm_of_refused {k : AccessKind} {u : Bool} {f rA rB : Field5} {s : State} {r : Refusal} {b : Fin 4}
    (hr : fcmReady k u rA rB s)
    (hb : storeBeats k u f (transferEA k u rA rB s) (fun _ => true) (beatsOf k) s = .stopped (.refused r) b) :
    storeForm k u f rA rB s = .refused r := by
  obtain ⟨h0, h1, h2⟩ := hr
  unfold transferEA at hb
  rw [storeForm, fcmChecked_pass h0 h1 h2, hb]
  rfl

/-! ## Word accesses at one address -/

theorem beatAddress_zero (ea : Word) : beatAddress ea 0 = ea := BitVec.add_zero ea

theorem storeBeats_single {k : AccessKind} {u : Bool} {f : Field5} {ea : Word} {p : Fin 4 → Bool} {b : Fin 4} {s m : State}
    (h : storeBeats k u f ea p [b] s = .done m) : storeBeat k u f ea b (p b) s = .ok m := by
  unfold storeBeats at h
  split at h
  · cases h
  · next n hn => cases h; exact hn

/-- What a completed word store did: its beat stands at the real address of EA, and besides memory only pc and the latch
changed. -/
theorem exec_stwfcmx_next {f rA rB : Field5} {s t : State} {ra : Word} (h : exec (.stwfcmx f rA rB) s = .next t)
    (hra : s.realAddress .w .store (transferEA .w false rA rB s) 4 = .ok ra) :
    fcmReady .w false rA rB s ∧
      t.mem = s.mem.writeBytes ra (fcmStoreBeat s.cfg.fcmLogic s.fcm f .w false 0 0) 4 ∧
      t = { s with pc := t.pc, mem := t.mem, fcmData := t.fcmData } := by
  obtain ⟨hready, m, hm, rfl⟩ := exec_store_next (k := .w) rfl h
  obtain ⟨hframe, ra', hra', _, hmem⟩ := storeBeat_frame (storeBeats_single hm)
  rw [beatAddress_zero] at hra'
  obtain rfl : ra = ra' := Except.ok.inj (hra.symm.trans hra')
  have hlane : laneOffset (transferEA .w false rA rB s) = 0 := laneOffset_effectiveAddress rfl _
  refine ⟨hready, ?_, by rw [hframe]; rfl⟩
  rw [← hlane]
  exact hmem

/-- A word load whose access goes through completes, and the FCM is given the word read. -/
theorem exec_lwfcmx_completes {g rA rB : Field5} {s : State} {ra : Word} (hr : fcmReady .w false rA rB s)
    (hra : s.realAddress .w .load (transferEA .w false rA rB s) 4 = .ok ra) :
    ∃ u, exec (.lwfcmx g rA rB) s = .next u ∧
      u.fcm = fcmLoadBeat s.cfg.fcmLogic s.fcm g .w false 0 0 (s.mem.readBytes ra 4) := by
  have hlane : laneOffset (transferEA .w false rA rB s) = 0 := laneOffset_effectiveAddress rfl _
  have hread : s.memRead .w (beatAddress (transferEA .w false rA rB s) 0) (unitBytes .w) = .ok (s.mem.readBytes ra 4) := by
    rw [beatAddress_zero, State.memRead, show unitBytes .w = 4 from rfl, hra]
  have hbeats : loadBeats .w false g (transferEA .w false rA rB s) (beatsOf .w) s =
      .done (deliverBeat .w false g 0 0 (s.mem.readBytes ra 4) s) := by
    simp only [beatsOf, loadBeats, loadBeat, hread, hlane]
    rfl
  exact ⟨_, loadForm_completes hr hbeats, rfl⟩

end Sys2Proof.Machine
end

section
/-! SUPPORT. The decoder answers well-formed instructions only (30_encoding R90, R95), and what a step runs. -/

namespace Sys2Proof

theorem udiInstr_wellFormed (n : BitVec 3) (rcn : Bool) (t a b : Field5) :
    (udiInstr n rcn t a b).wellFormed = true := by
  unfold udiInstr
  split <;> rfl

theorem putInstr_wellFormed (n c : Bool) (rA fsl : Field5) : (putInstr n c rA fsl).wellFormed = true := by
  cases n <;> cases c <;> rfl

theorem getInstr_wellFormed (n c : Bool) (rD fsl : Field5) : (getInstr n c rD fsl).wellFormed = true := by
  cases n <;> cases c <;> rfl

theorem checkForm_ok {i j : Instr} (h : checkForm i = .ok j) : j.wellFormed = true := by
  unfold checkForm at h
  split at h
  · next hw => cases h; exact hw
  · cases h

/-- Step by step of R90: the loads and stores pass through R95's check, the other patterns have no invalid form. -/
theorem decodeWord_wellFormed {e : GetEnc} {w : Word} {i : Instr} (h : decodeWord e w = .ok i) :
    i.wellFormed = true := by
  unfold decodeWord at h
  split at h
  · exact checkForm_ok h
  · split at h
    · cases h; exact udiInstr_wellFormed ..
    · split at h
      · cases h; exact putInstr_wellFormed ..
      · split at h
        · cases h; exact getInstr_wellFormed ..
        · split at h <;> cases h

namespace Machine

theorem decode_fetchBytes_wellFormed {e : GetEnc} {s : State} {i : Instr} {rest : List Byte}
    (h : decode e s.fetchBytes = .ok (i, rest)) : i.wellFormed = true := by
  rw [decode_fetchBytes] at h
  cases hd : decodeWord e s.instrWord with
  | error r => rw [hd] at h; cases h
  | ok j => rw [hd] at h; cases h; exact decodeWord_wellFormed hd

theorem step_of_decoded {s : State} {i : Instr} {rest : List Byte} (ha : s.pcAligned = true) (hp : s.fetchPlace = .text)
    (hd : decode s.cfg.getEnc s.fetchBytes = .ok (i, rest)) : step s = exec i s.envTurn := by
  simp [step, ha, hp, hd]

theorem envTurn_of_idle {s : State} (h : s.env = []) : s.envTurn = s := by simp [State.envTurn, h]

end Machine

end Sys2Proof
end

section
/-! The statements of 20_memory. -/

namespace Sys2Proof.Machine

/-- Settles O4: the environment touches neither the text nor memory, and no instruction writes a byte of the text. -/
theorem stepKeepsProgramText : Obligations.StepKeepsProgramText := fun _ _ hw h => step_sameText h hw

/-- Settles O31: the load finds the bytes the store wrote, and reads them in the same order. -/
theorem storedWordIsLoadedBack : Obligations.StoredWordIsLoadedBack := by
  intro f g rA rB s t ra hw hstore hs ht
  obtain ⟨hready, hmem, hframe⟩ := exec_stwfcmx_next hstore hs
  have hgpr : t.gpr = s.gpr := by rw [hframe]
  have hcfg : t.cfg = s.cfg := by rw [hframe]
  have hfcm : t.fcm = s.fcm := by rw [hframe]
  have hea : transferEA .w false rA rB t = transferEA .w false rA rB s := by rw [transferEA, addressSum_congr hgpr]; rfl
  obtain ⟨u, hload, hu⟩ := exec_lwfcmx_completes (g := g) (fcmReady_congr hgpr hcfg hready) (hea ▸ ht)
  exact ⟨u, hload, by rw [hu, hcfg, hfcm, hmem, Memory.readBytes_writeBytes_word _ hw]⟩

/-- Settles O32: the first beat that reaches the text stops the store. -/
theorem storeIntoProgramTextIsRefused : Obligations.StoreIntoProgramTextIsRefused := by
  intro i k u f rA rB s ra ea hc hr hea hreal ⟨b, hb, a, ha, htext⟩
  subst hea
  have hfalse : allBytes (fun a => !s.inText a) (ra b) (unitBytes k) = false := allBytes_eq_false ha (by simp [htext])
  obtain ⟨c, hstop⟩ := storeBeats_stopped_by_text (u := u) (f := f) (p := fun _ => true) ra (beatsOf k) s hreal
    ⟨b, hb, hfalse⟩
  rw [exec_eq_execClass, hc]
  exact storeForm_of_refused hr hstop

/-- Settles O33: the masks of R55 are roundings, and a completed update form leaves EA in rA. -/
theorem effectiveAddressRule : Obligations.EffectiveAddressRule := by
  refine ⟨fun u rA rB s => ?_, fun v => ⟨?_, toNat_effectiveAddress .h v, toNat_effectiveAddress .w v,
    toNat_effectiveAddress .d v, toNat_effectiveAddress .q v⟩, fun i k d f rA rB s t hc h => ?_⟩
  · rw [addressSum, BitVec.toNat_add, toNat_baseOperand]
  · apply BitVec.eq_of_toNat_eq
    rw [toNat_effectiveAddress, unitBytes, Nat.mod_one, Nat.sub_zero]
  · exact (exec_transfer_readGpr hc h rA).trans (if_pos ⟨rfl, rfl⟩)

/-- Settles O34: the lane of `n` bytes is a bit field of the latch, for any offset. -/
theorem byteLaneRule : Obligations.ByteLaneRule := fun ea d v bg =>
  ⟨laneOffset_eq ea, extractLane_eq (laneOffset ea) 1 d, extractLane_insertLane (laneOffset ea) 1 v bg,
    fun _ => ⟨extractLane_eq (laneOffset ea) 2 d, extractLane_insertLane (laneOffset ea) 2 v bg⟩⟩

/-- Settles O35: digit by digit for reads, byte by byte for writes, and the fetch through the instruction word. -/
theorem bigEndianRule : Obligations.BigEndianRule := by
  refine ⟨fun m a => ⟨m.toNat_readBytes_one a, m.toNat_readBytes_two a, m.toNat_readBytes_four a⟩,
    fun m a v hw => ?_, fun e s => ⟨fun i h => ?_, fun r h => ?_⟩, State.instrWord_eq_readBytes⟩
  · have hbyte {n : Nat} (hn : n ≤ 4) (k : Nat) (hk : k < n) := m.read_writeBytes hw a v hn hk
    have hfirst {n : Nat} (hn : n ≤ 4) (hpos : 0 < n) : (m.writeBytes a v n).read a = v.extractLsb' (8 * (n - 1)) 8 := by
      simpa using hbyte hn 0 hpos
    exact ⟨hfirst (n := 1) (by omega) (by omega), hfirst (n := 2) (by omega) (by omega),
      hbyte (n := 2) (by omega) 1 (by omega), hfirst (n := 4) (by omega) (by omega),
      hbyte (n := 4) (by omega) 1 (by omega), hbyte (n := 4) (by omega) 2 (by omega),
      hbyte (n := 4) (by omega) 3 (by omega)⟩
  · rw [decode_fetchBytes, s.instrWord_eq_readBytes, h]; rfl
  · rw [decode_fetchBytes, s.instrWord_eq_readBytes, h]; rfl

/-- Settles O36: from when each answer of Translate comes. -/
theorem translateObeysItsConstraints : Obligations.TranslateObeysItsConstraints := by
  refine fun s ea a => ⟨fun h => ⟨_, translate_of_real s ea a h⟩, fun h => ?_, fun h => ?_, fun h => ?_⟩
  · exact ((translate_eq_tlbMiss_iff s ea a).mp h).1
  · obtain ⟨hreloc, hpriv, _⟩ := (translate_eq_noAccess_iff s ea a).mp h
    exact ⟨hreloc, hpriv⟩
  · obtain ⟨hreloc, hstore, _⟩ := (translate_eq_readOnly_iff s ea a).mp h
    exact ⟨hreloc, hstore⟩

/-- Settles O37: big-endian storage is accessed where the launch memory has the bytes, and refused where it lacks one. -/
theorem accessGoesThrough : Obligations.AccessGoesThrough := by
  refine ⟨fun s k a ea n => ⟨fun hreloc hbig hmem => ?_, fun e hreloc he hz hbig hmem => ?_, fun ra h => ?_⟩,
    fun i k d u f rA rB s ea ra b hc hr hea hb hpass ht ⟨a, ha, hlacks⟩ => ?_⟩
  · have ht : s.translate ea a = .ok ea .big := hbig ▸ translate_of_real s ea a hreloc
    rw [realAddress_of_big ht, if_pos hmem]
  · have ht : s.translate ea a = .ok e.ra .big := hbig ▸ translate_of_unprotected s ea a hreloc he hz
    rw [realAddress_of_big ht, if_pos hmem]
  · obtain ⟨ht, hmem⟩ := realAddress_ok h
    exact ⟨ht, allBytes_true hmem⟩
  · subst hea
    have hstop : s.realAddress k d (beatAddress (transferEA k u rA rB s) b) (unitBytes k) =
        .error (.refused .noSuchAddress) := by
      rw [realAddress_of_big ht, allBytes_eq_false ha hlacks]; rfl
    obtain ⟨_, hexec, _⟩ := exec_transfer_stops hc hr hb hpass hstop
    exact hexec

/-- Settles O41: under the two fault policies the test on the sum ends the instruction; under mask it never does, so an
alignment fault comes from a beat. -/
theorem misalignedSumFaults : Obligations.MisalignedSumFaults := by
  refine ⟨fun i k d u f rA rB s hc h0 hf => ⟨fun hpol hne => ?_, fun hpol hne => ?_, fun hpol => ⟨?_, fun r h => ?_⟩⟩,
    fun k v => ⟨misalignRaises_mask k v, misalignRaises_fault_iff k v, misalignRaises_faultNatural_iff k v⟩⟩
  · have hraises : misalignRaises .fault k (addressSum u rA rB s) = true :=
      (misalignRaises_fault_iff k _).mpr ((ne_effectiveAddress_iff k _).mp hne)
    exact exec_of_misaligned hc h0 hf (hpol ▸ hraises)
  · exact exec_of_misaligned hc h0 hf (hpol ▸ (misalignRaises_faultNatural_iff k _).mpr hne)
  · exact ⟨h0, hf, by rw [hpol]; rfl⟩
  · obtain ⟨_, _, hx⟩ | ⟨_, _, _, _, _, _, _, _, _, _, hx⟩ | ⟨k', d', u', f', rA', rB', hc', hcause⟩ := exec_fault_cases h
    · cases hx
    · cases hx
    · rw [hc] at hc'
      cases hc'
      obtain ⟨hraises, _⟩ | ⟨_, b, hb, kind, hreal, hx⟩ := hcause
      · rw [hpol] at hraises; cases hraises
      · obtain ⟨_, ⟨rfl, _⟩ | ⟨rfl, _⟩ | ⟨_, ra, ht, _⟩⟩ := realAddress_raised hreal
        · cases hx
        · cases hx
        · exact ⟨b, hb, ra, ht⟩

/-- Settles O58: the text is the same over the run, and a fetch looks at nothing else. -/
theorem noStoreReachesAFetch : Obligations.NoStoreReachesAFetch := by
  intro n s t hw h p
  have hst : sameText s t := run_sameText hw h
  exact ⟨fetchPlace_of_sameText hst p, fetchBytes_of_sameText hst⟩

/-- Settles O5: the branch of `step` for the text. -/
theorem stepRunsDecodedInstruction : Obligations.StepRunsDecodedInstruction := fun _ _ _ ha hp hd =>
  ⟨step_of_decoded ha hp hd, envTurn_of_idle, decode_fetchBytes_wellFormed hd⟩

end Sys2Proof.Machine
end

section
/-! SUPPORT. Words seen through masks: what a masked word says of its parts, and a word put together again from them
(30_encoding R81 to R83). -/

namespace Sys2Proof

/-! ## Masked words -/

/-- A masked word gives what a coarser mask shows. -/
theorem and_of_and {w m v k : Word} (h : w &&& m = v) (hk : m &&& k = k) : w &&& k = v &&& k := by
  rw [← h, BitVec.and_assoc, hk]

/-- A masked word gives the fields that the mask covers. -/
theorem extractLsb'_of_and {w m v : Word} {lo n : Nat} (h : w &&& m = v)
    (hm : m.extractLsb' lo n = BitVec.allOnes n) : w.extractLsb' lo n = v.extractLsb' lo n := by
  rw [← h, BitVec.extractLsb'_and, hm, BitVec.and_allOnes]

/-- A masked word gives the bits that the mask covers. -/
theorem getLsbD_of_and {w m v : Word} {i : Nat} (h : w &&& m = v) (hm : m.getLsbD i = true) :
    w.getLsbD i = v.getLsbD i := by
  rw [← h, BitVec.getLsbD_and, hm, Bool.and_true]

theorem and_zero_symm {x y : Word} (h : x &&& y = 0#32) : y &&& x = 0#32 := (BitVec.and_comm y x).trans h

/-- Two patterns of one word agree wherever both masks look. -/
theorem patterns_agree {w m₁ m₂ p₁ p₂ : Word} (h₁ : w &&& m₁ = p₁) (h₂ : w &&& m₂ = p₂) :
    m₁ &&& m₂ &&& (p₁ ^^^ p₂) = 0#32 := by
  subst h₁ h₂
  apply BitVec.eq_of_getLsbD_eq
  intro i _
  simp only [BitVec.getLsbD_and, BitVec.getLsbD_xor, BitVec.getLsbD_zero]
  cases w.getLsbD i <;> cases m₁.getLsbD i <;> cases m₂.getLsbD i <;> rfl

/-! ## Fields and bits, taken out and put back -/

theorem placeField_fieldAt (lo : Nat) (w : Word) : placeField lo (fieldAt lo w) = w &&& placeField lo 31#5 := by
  apply BitVec.eq_of_getLsbD_eq
  intro i hi
  rw [getLsbD_placeField, getLsbD_fieldAt, BitVec.getLsbD_and, getLsbD_field_full]
  by_cases hlo : lo ≤ i
  · have hin : decide (i - lo < 5) = decide (i < lo + 5) := by simp only [decide_eq_decide]; omega
    have hat : lo + (i - lo) = i := by omega
    simp [hi, hlo, hin, hat, Bool.and_comm]
  · simp [hlo]

theorem fieldAt_placeField {lo : Nat} (h : lo ≤ 27) (f : Field5) : fieldAt lo (placeField lo f) = f := by
  apply BitVec.eq_of_getLsbD_eq
  intro i hi
  have hin : lo + i < 32 := by omega
  rw [getLsbD_fieldAt, getLsbD_placeField]
  simp [hi, hin]

theorem placeBit_getLsbD (lo : Nat) (w : Word) : placeBit lo (w.getLsbD lo) = w &&& placeBit lo true := by
  apply BitVec.eq_of_getLsbD_eq
  intro i _
  rw [BitVec.getLsbD_and, getLsbD_placeBit, getLsbD_placeBit]
  by_cases hlo : i = lo
  · simp [hlo, Bool.and_comm]
  · simp [hlo]

theorem getLsbD_placeBit_self {lo : Nat} (h : lo ≤ 31) (v : Bool) : (placeBit lo v).getLsbD lo = v := by
  have hin : lo < 32 := by omega
  rw [getLsbD_placeBit]
  simp [hin]

/-- A placed field has no bit outside its place. -/
theorem placeField_and_full (lo : Nat) (f : Field5) : placeField lo f &&& placeField lo 31#5 = placeField lo f := by
  apply BitVec.eq_of_getLsbD_eq
  intro i hi
  rw [BitVec.getLsbD_and, getLsbD_field_full, getLsbD_placeField]
  by_cases hin : i < lo + 5
  · simp +contextual [hi, hin]
  · simp [BitVec.getLsbD_of_ge f (i - lo) (by omega)]

/-- A placed bit has no bit outside its place. -/
theorem placeBit_and_true (lo : Nat) (v : Bool) : placeBit lo v &&& placeBit lo true = placeBit lo v := by
  cases v with
  | false => simp [placeBit]
  | true => exact BitVec.and_self

/-- A word of format X-FCM or X-UDI is its three fields and the bits outside them. -/
theorem threeFieldWord_fieldAt (w : Word) :
    threeFieldWord (w &&& 0xFC0007FF#32) (fieldAt 21 w) (fieldAt 16 w) (fieldAt 11 w) = w := by
  rw [threeFieldWord, placeField_fieldAt, placeField_fieldAt, placeField_fieldAt, ← BitVec.and_or_distrib_left,
    ← BitVec.and_or_distrib_left, ← BitVec.and_or_distrib_left]
  exact BitVec.and_allOnes

/-- The UDI number put back in its place (R87). -/
theorem shiftLeft_extractLsb'_six (w : Word) : (w.extractLsb' 6 3).setWidth 32 <<< 6 = w &&& 0x1C0#32 := by
  apply BitVec.eq_of_getLsbD_eq
  intro i hi
  interval_cases i <;> simp

end Sys2Proof
end

section
/-! SUPPORT. The table of FCM loads and stores (30_encoding R85): what all its rows have in common, and the row of each
instruction. -/

namespace Sys2Proof

open Sys2Proof.Machine

/-! ## Rows -/

theorem mem_fcmRows_of_lookup {v : Word} {mk : Field5 → Field5 → Field5 → Instr}
    (h : fcmRows.lookup v = some mk) : (v, mk) ∈ fcmRows := by
  obtain ⟨l₁, l₂, hl, _⟩ := List.lookup_eq_some_iff.mp h
  rw [hl]
  exact List.mem_append_right _ List.mem_cons_self

/-- Every base word has primary opcode 31 and no bit outside the opcode and the extended opcode. -/
theorem fcmRows_base : ∀ row ∈ fcmRows,
    row.1.extractLsb' 26 6 = 31#6 ∧ row.1 &&& fcmMask = row.1 ∧ row.1 &&& 0x03FFF800#32 = 0#32 := by decide

/-- With bit {31} set a base word is no row of the table, and it is one again where that bit is not looked at (R93). -/
theorem fcmRows_reserved : ∀ row ∈ fcmRows, (row.1 ||| 1#32).extractLsb' 26 6 = 31#6 ∧
    (row.1 ||| 1#32) &&& fcmMask = row.1 ||| 1#32 ∧ (fcmRows.lookup (row.1 ||| 1#32)).isSome = false ∧
    (fcmRows.lookup ((row.1 ||| 1#32) &&& fcmUnreservedMask)).isSome = true := by decide

/-- The encoder agrees with the table. -/
theorem encodeWord_of_mem_fcmRows (e : GetEnc) (f rA rB : Field5) :
    ∀ row ∈ fcmRows, encodeWord e (row.2 f rA rB) = threeFieldWord row.1 f rA rB := by
  simp [fcmRows, encodeWord]

theorem fcmRows_opcode {w : Word} (h : (fcmRows.lookup (w &&& fcmMask)).isSome = true) :
    w.extractLsb' 26 6 = 31#6 := by
  obtain ⟨mk, hmk⟩ := Option.isSome_iff_exists.mp h
  obtain ⟨hop, _, _⟩ := fcmRows_base _ (mem_fcmRows_of_lookup hmk)
  exact (extractLsb'_of_and rfl (by decide)).trans hop

theorem fcmRows_lookup_eq_none {w : Word} (h : w.extractLsb' 26 6 = 4#6) : fcmRows.lookup (w &&& fcmMask) = none := by
  rw [← Option.not_isSome_iff_eq_none]
  intro hrow
  rw [fcmRows_opcode hrow] at h
  exact absurd h (by decide)

/-! ## The row of an instruction -/

section transfers
variable {i : Instr} {k : AccessKind} {d : Access} {u : Bool} {f rA rB : Field5}

/-- Every FCM load and store has its row, under the base word that spec/opcode_table.json prints. -/
theorem fcmRows_lookup_row (h : transferOf (classOf i) = some (k, d, u, f, rA, rB)) :
    ∃ mk, fcmRows.lookup (Laws.TableRow.row i).1 = some mk ∧ i = mk f rA rB := by
  cases i <;> cases h <;> exact ⟨_, rfl, rfl⟩

/-- The only invalid form of a load or store is an update form with rA = 0 (R95). -/
theorem wellFormed_of_transfer (h : transferOf (classOf i) = some (k, d, u, f, rA, rB)) :
    i.wellFormed = !(u && rA == 0#5) := by
  cases i <;> cases h <;> rfl

end transfers

end Sys2Proof
end

section
/-! SUPPORT. GET_ENC as 30_encoding R86 constrains it: the conditions by name, the primary opcode of its words, and the
patterns that it stays apart from. -/

namespace Sys2Proof

/-- The conditions of `GetEnc.wf`, one by one. -/
structure GetEnc.Apart (e : GetEnc) : Prop where
  patternOpcode : e.pattern.extractLsb' 26 6 = 4#6
  maskOpcode : e.mask.extractLsb' 26 6 = 63#6
  pattern_compl : e.pattern &&& ~~~e.mask = 0#32
  put : e.mask &&& putMask &&& (e.pattern ^^^ putPattern) ≠ 0#32
  udi : e.mask &&& udiMask &&& (e.pattern ^^^ udiPattern) ≠ 0#32
  rDLo : e.rDLo ≤ 27
  fslLo : e.fslLo ≤ 27
  nBit : e.nBit ≤ 31
  cBit : e.cBit ≤ 31
  mask_rD : e.mask &&& e.rDMask = 0#32
  mask_fsl : e.mask &&& e.fslMask = 0#32
  mask_n : e.mask &&& e.nMask = 0#32
  mask_c : e.mask &&& e.cMask = 0#32
  rD_fsl : e.rDMask &&& e.fslMask = 0#32
  rD_n : e.rDMask &&& e.nMask = 0#32
  rD_c : e.rDMask &&& e.cMask = 0#32
  fsl_n : e.fslMask &&& e.nMask = 0#32
  fsl_c : e.fslMask &&& e.cMask = 0#32
  n_c : e.nMask &&& e.cMask = 0#32

theorem GetEnc.apart_of_wf {e : GetEnc} (h : e.wf = true) : e.Apart := by
  simp only [GetEnc.wf, Bool.and_eq_true, beq_iff_eq, bne_iff_ne, decide_eq_true_eq, and_assoc] at h
  obtain ⟨patternOpcode, maskOpcode, pattern_compl, put, udi, rDLo, fslLo, nBit, cBit, mask_rD, mask_fsl, mask_n,
    mask_c, rD_fsl, rD_n, rD_c, fsl_n, fsl_c, n_c⟩ := h
  exact
    { patternOpcode, maskOpcode, pattern_compl, put, udi, rDLo, fslLo, nBit, cBit, mask_rD, mask_fsl, mask_n,
      mask_c, rD_fsl, rD_n, rD_c, fsl_n, fsl_c, n_c }

theorem GetEnc.covers_iff {e : GetEnc} {w : Word} : e.covers w = true ↔ w &&& e.mask = e.pattern := beq_iff_eq

theorem GetEnc.Apart.opcode_of_covers {e : GetEnc} (h : e.Apart) {w : Word} (hw : e.covers w = true) :
    w.extractLsb' 26 6 = 4#6 :=
  (extractLsb'_of_and (GetEnc.covers_iff.mp hw) h.maskOpcode).trans h.patternOpcode

/-! ## The four groups of patterns -/

theorem udi_opcode {w : Word} (h : w &&& udiMask = udiPattern) : w.extractLsb' 26 6 = 4#6 :=
  extractLsb'_of_and h (by decide)

theorem put_opcode {w : Word} (h : w &&& putMask = putPattern) : w.extractLsb' 26 6 = 4#6 :=
  extractLsb'_of_and h (by decide)

theorem not_put_of_udi {w : Word} (h : w &&& udiMask = udiPattern) : w &&& putMask ≠ putPattern := fun hp =>
  absurd (patterns_agree h hp) (by decide)

theorem GetEnc.Apart.not_covers_of_udi {e : GetEnc} (h : e.Apart) {w : Word} (hw : w &&& udiMask = udiPattern) :
    e.covers w = false :=
  Bool.eq_false_iff.mpr fun hc => h.udi (patterns_agree (GetEnc.covers_iff.mp hc) hw)

theorem GetEnc.Apart.not_covers_of_put {e : GetEnc} (h : e.Apart) {w : Word} (hw : w &&& putMask = putPattern) :
    e.covers w = false :=
  Bool.eq_false_iff.mpr fun hc => h.put (patterns_agree (GetEnc.covers_iff.mp hc) hw)

/-- A word with another primary opcode than 4 is no UDI, no put and no get. -/
theorem GetEnc.Apart.no_pattern_of_opcode {e : GetEnc} (h : e.Apart) {w : Word} (hw : w.extractLsb' 26 6 ≠ 4#6) :
    w &&& udiMask ≠ udiPattern ∧ w &&& putMask ≠ putPattern ∧ e.covers w = false :=
  ⟨fun hu => hw (udi_opcode hu), fun hp => hw (put_opcode hp),
    Bool.eq_false_iff.mpr fun hc => hw (h.opcode_of_covers hc)⟩

end Sys2Proof
end

section
/-! SUPPORT. The decoder step by step (30_encoding R90): what each step answers, and where an instruction it answers comes
from. -/

namespace Sys2Proof

open Sys2Proof.Machine

/-! ## The steps of R90 -/

section steps
variable {e : GetEnc} {w : Word}

theorem decodeWord_of_row {mk : Field5 → Field5 → Field5 → Instr} (h : fcmRows.lookup (w &&& fcmMask) = some mk) :
    decodeWord e w = checkForm (mk (fieldAt 21 w) (fieldAt 16 w) (fieldAt 11 w)) := by
  simp only [decodeWord, h]

theorem decodeWord_of_udi (h : w &&& udiMask = udiPattern) :
    decodeWord e w =
      .ok (udiInstr (w.extractLsb' 6 3) (w.getLsbD 0) (fieldAt 21 w) (fieldAt 16 w) (fieldAt 11 w)) := by
  simp [decodeWord, fcmRows_lookup_eq_none (udi_opcode h), h]

theorem decodeWord_of_put (h : w &&& putMask = putPattern) :
    decodeWord e w = .ok (putInstr (w.getLsbD 6) (w.getLsbD 5) (fieldAt 16 w) (fieldAt 11 w)) := by
  have hu : w &&& udiMask ≠ udiPattern := fun hu => not_put_of_udi hu h
  simp [decodeWord, fcmRows_lookup_eq_none (put_opcode h), hu, h]

theorem decodeWord_of_get (he : e.Apart) (h : e.covers w = true) :
    decodeWord e w =
      .ok (getInstr (w.getLsbD e.nBit) (w.getLsbD e.cBit) (fieldAt e.rDLo w) (fieldAt e.fslLo w)) := by
  have hu : w &&& udiMask ≠ udiPattern := fun hu => by rw [he.not_covers_of_udi hu] at h; cases h
  have hp : w &&& putMask ≠ putPattern := fun hp => by rw [he.not_covers_of_put hp] at h; cases h
  simp [decodeWord, fcmRows_lookup_eq_none (he.opcode_of_covers h), hu, hp, h]

theorem decodeWord_of_reserved (hf : fcmRows.lookup (w &&& fcmMask) = none) (hu : w &&& udiMask ≠ udiPattern)
    (hp : w &&& putMask ≠ putPattern) (hg : e.covers w = false) (hr : reservedBitsSet w = true) :
    decodeWord e w = .error .invalidFormReserved := by
  simp [decodeWord, hf, hu, hp, hg, hr]

theorem eq_of_checkForm_ok {i j : Instr} (h : checkForm i = .ok j) : i = j := by
  unfold checkForm at h
  split at h
  · cases h; rfl
  · cases h

/-- An instruction comes from one of the first four steps. -/
theorem decodeWord_ok_cases {i : Instr} (h : decodeWord e w = .ok i) :
    (∃ mk, fcmRows.lookup (w &&& fcmMask) = some mk ∧ i = mk (fieldAt 21 w) (fieldAt 16 w) (fieldAt 11 w)) ∨
    (w &&& udiMask = udiPattern ∧
      i = udiInstr (w.extractLsb' 6 3) (w.getLsbD 0) (fieldAt 21 w) (fieldAt 16 w) (fieldAt 11 w)) ∨
    (w &&& putMask = putPattern ∧ i = putInstr (w.getLsbD 6) (w.getLsbD 5) (fieldAt 16 w) (fieldAt 11 w)) ∨
    ∃ n c rD fsl, i = getInstr n c rD fsl := by
  unfold decodeWord at h
  split at h
  · next mk hmk => exact .inl ⟨mk, hmk, (eq_of_checkForm_ok h).symm⟩
  · split at h
    · next hu => cases h; exact .inr (.inl ⟨beq_iff_eq.mp hu, rfl⟩)
    · split at h
      · next hp => cases h; exact .inr (.inr (.inl ⟨beq_iff_eq.mp hp, rfl⟩))
      · split at h
        · cases h; exact .inr (.inr (.inr ⟨_, _, _, _, rfl⟩))
        · split at h <;> cases h

end steps

/-! ## The instructions of each group, by their selectors -/

theorem eq_getInstr {i : Instr} {n c : Bool} {rD fsl : Field5} (h : classOf i = .get n c rD fsl) :
    i = getInstr n c rD fsl := by
  cases i <;> cases h <;> rfl

theorem eq_putInstr {i : Instr} {n c : Bool} {rA fsl : Field5} (h : classOf i = .put n c rA fsl) :
    i = putInstr n c rA fsl := by
  cases i <;> cases h <;> rfl

theorem eq_udiInstr {i : Instr} {n : BitVec 3} {rcn : BitVec 1} {t a b : Field5} (h : classOf i = .udi n rcn t a b) :
    i = udiInstr n (rcn.getLsbD 0) t a b := by
  cases i <;> cases h <;> rfl

theorem classOf_getInstr (n c : Bool) (rD fsl : Field5) : classOf (getInstr n c rD fsl) = .get n c rD fsl := by
  cases n <;> cases c <;> rfl

theorem encodeWord_getInstr (e : GetEnc) (n c : Bool) (rD fsl : Field5) :
    encodeWord e (getInstr n c rD fsl) = getWord e n c rD fsl := by
  cases n <;> cases c <;> rfl

theorem encodeWord_putInstr (e : GetEnc) (n c : Bool) (rA fsl : Field5) :
    encodeWord e (putInstr n c rA fsl) = putWord n c rA fsl := by
  cases n <;> cases c <;> rfl

theorem encodeWord_udiInstr (e : GetEnc) (n : BitVec 3) (rcn : Bool) (t a b : Field5) :
    encodeWord e (udiInstr n rcn t a b) = udiWord n rcn t a b := by
  unfold udiInstr
  split <;> rfl

end Sys2Proof
end

section
/-! SUPPORT. From an instruction to its word and back, for each group (30_encoding R85 to R88). -/

namespace Sys2Proof

open Sys2Proof.Machine

/-! ## FCM loads and stores -/

theorem decodeWord_threeFieldWord (e : GetEnc) {base : Word} {mk : Field5 → Field5 → Field5 → Instr}
    (h : fcmRows.lookup base = some mk) (f rA rB : Field5) :
    decodeWord e (threeFieldWord base f rA rB) = checkForm (mk f rA rB) := by
  obtain ⟨_, hbase, hfields⟩ := fcmRows_base _ (mem_fcmRows_of_lookup h)
  have hrow : threeFieldWord base f rA rB &&& fcmMask = base := (threeFieldWord_and f rA rB rfl).trans hbase
  rw [decodeWord_of_row (hrow.symm ▸ h), fieldAt_threeFieldWord_21 hfields, fieldAt_threeFieldWord_16 hfields,
    fieldAt_threeFieldWord_11 hfields]

/-- The word of a load or store decodes to it, up to the check for the invalid form of R95. -/
theorem decodeWord_encodeWord_transfer (e : GetEnc) {i : Instr} {k : AccessKind} {d : Access} {u : Bool}
    {f rA rB : Field5} (h : transferOf (classOf i) = some (k, d, u, f, rA, rB)) :
    decodeWord e (encodeWord e i) = checkForm i := by
  obtain ⟨mk, hmk, rfl⟩ := fcmRows_lookup_row h
  rw [encodeWord_of_mem_fcmRows e f rA rB _ (mem_fcmRows_of_lookup hmk), decodeWord_threeFieldWord e hmk]

/-! ## UDIs -/

/-- The word of a UDI with its three operands 0 (R87). -/
def udiBase (n : BitVec 3) (rcn : Bool) : Word := udiPattern ||| n.setWidth 32 <<< 6 ||| placeBit 0 rcn

theorem udiWord_eq (n : BitVec 3) (rcn : Bool) (t a b : Field5) :
    udiWord n rcn t a b = threeFieldWord (udiBase n rcn) t a b := rfl

/-- The base word lies outside the operands, has the pattern's bits, and shows the UDI number and Rcn. -/
theorem udiBase_bits : ∀ (n : BitVec 3) (rcn : Bool), udiBase n rcn &&& 0x03FFF800#32 = 0#32 ∧
    udiBase n rcn &&& 0xFC0007FF#32 = udiBase n rcn ∧ udiBase n rcn &&& udiMask = udiPattern ∧
    (udiBase n rcn).extractLsb' 6 3 = n ∧ (udiBase n rcn).getLsbD 0 = rcn := by decide

theorem decodeWord_udiWord (e : GetEnc) (n : BitVec 3) (rcn : Bool) (t a b : Field5) :
    decodeWord e (udiWord n rcn t a b) = .ok (udiInstr n rcn t a b) := by
  obtain ⟨hfields, hbase, hpat, hn, hr⟩ := udiBase_bits n rcn
  have hw : udiWord n rcn t a b &&& 0xFC0007FF#32 = udiBase n rcn := Laws.TableRow.udiFields hbase t a b
  rw [decodeWord_of_udi ((and_of_and hw (by decide)).trans hpat), extractLsb'_of_and hw (by decide), hn,
    getLsbD_of_and hw (by decide), hr, udiWord_eq, fieldAt_threeFieldWord_21 hfields,
    fieldAt_threeFieldWord_16 hfields, fieldAt_threeFieldWord_11 hfields]

/-- A word with the UDI pattern is the word of the number, the Rcn and the operands that it shows. -/
theorem udiWord_of_udi {w : Word} (h : w &&& udiMask = udiPattern) :
    udiWord (w.extractLsb' 6 3) (w.getLsbD 0) (fieldAt 21 w) (fieldAt 16 w) (fieldAt 11 w) = w := by
  have hbase : udiBase (w.extractLsb' 6 3) (w.getLsbD 0) = w &&& 0xFC0007FF#32 := by
    rw [udiBase, shiftLeft_extractLsb'_six, placeBit_getLsbD, ← h, ← BitVec.and_or_distrib_left,
      ← BitVec.and_or_distrib_left]
    rfl
  rw [udiWord_eq, hbase, threeFieldWord_fieldAt]

/-! ## Puts -/

/-- The word of a put form with its operands and the reserved field {6:10} 0, and `z` in the reserved bit {31} (R88,
R93). -/
def putBase (n c z : Bool) : Word := putPattern ||| placeBit 6 n ||| placeBit 5 c ||| placeBit 0 z

/-- A put word with `r` in the reserved field {6:10} and `z` in the reserved bit {31}. -/
theorem putWord_reserved (n c z : Bool) (r rA fsl : Field5) :
    putWord n c rA fsl ||| placeField 21 r ||| placeBit 0 z = threeFieldWord (putBase n c z) r rA fsl := by
  have hcomm (p a b n c r z : Word) :
      p ||| a ||| b ||| n ||| c ||| r ||| z = p ||| n ||| c ||| z ||| r ||| a ||| b := by ac_rfl
  exact hcomm ..

theorem putWord_eq_putBase (n c : Bool) (rA fsl : Field5) :
    putWord n c rA fsl = threeFieldWord (putBase n c false) 0#5 rA fsl := by
  rw [putWord_eq, putBase, show placeBit 0 false = 0#32 from rfl, BitVec.or_zero]

/-- The base word lies outside the fields, shows its bits, and is a put but for the reserved bits. -/
theorem putBase_bits : ∀ n c z : Bool, putBase n c z &&& 0x03FFF800#32 = 0#32 ∧
    putBase n c z &&& 0xFC0007FF#32 = putBase n c z ∧ (putBase n c z).extractLsb' 26 6 = 4#6 ∧
    putBase n c z &&& udiMask ≠ udiPattern ∧ putBase n c z &&& putUnreservedMask = putPattern ∧
    (putBase n c z).getLsbD 6 = n ∧ (putBase n c z).getLsbD 5 = c ∧ (putBase n c z).getLsbD 0 = z := by decide

theorem putBase_row : ∀ n c : Bool,
    (putPattern ||| placeBit 6 n ||| placeBit 5 c) &&& 0xFFE007FF#32 = putBase n c false ∧
      putBase n c false &&& putMask = putPattern := by decide

theorem decodeWord_putWord (e : GetEnc) (n c : Bool) (rA fsl : Field5) :
    decodeWord e (putWord n c rA fsl) = .ok (putInstr n c rA fsl) := by
  obtain ⟨hfields, _, _, _, _, hn, hc, _⟩ := putBase_bits n c false
  obtain ⟨hrow, hpat⟩ := putBase_row n c
  have hw : putWord n c rA fsl &&& 0xFFE007FF#32 = putBase n c false := Laws.TableRow.putFields hrow rA fsl
  rw [decodeWord_of_put ((and_of_and hw (by decide)).trans hpat), getLsbD_of_and hw (by decide), hn,
    getLsbD_of_and hw (by decide), hc, putWord_eq_putBase, fieldAt_threeFieldWord_16 hfields,
    fieldAt_threeFieldWord_11 hfields]

/-- A word with the put pattern is the word of the selectors and the operands that it shows. -/
theorem putWord_of_put {w : Word} (h : w &&& putMask = putPattern) :
    putWord (w.getLsbD 6) (w.getLsbD 5) (fieldAt 16 w) (fieldAt 11 w) = w := by
  rw [putWord, placeField_fieldAt, placeField_fieldAt, placeBit_getLsbD, placeBit_getLsbD, ← h,
    ← BitVec.and_or_distrib_left, ← BitVec.and_or_distrib_left, ← BitVec.and_or_distrib_left,
    ← BitVec.and_or_distrib_left]
  exact BitVec.and_allOnes

/-! ## Gets -/

section gets
variable {e : GetEnc} (h : e.Apart) (n c : Bool) (rD fsl : Field5)
include h

theorem GetEnc.Apart.pattern_and_mask : e.pattern &&& e.mask = e.pattern :=
  calc e.pattern &&& e.mask
    _ = e.pattern &&& e.mask ||| e.pattern &&& ~~~e.mask := by rw [h.pattern_compl, BitVec.or_zero]
    _ = e.pattern &&& (e.mask ||| ~~~e.mask) := BitVec.and_or_distrib_left.symm
    _ = e.pattern := by rw [BitVec.or_not_self, BitVec.and_allOnes]

/-- A get word through a mask: each part of it is seen through its own place. -/
theorem getWord_and (m : Word) : getWord e n c rD fsl &&& m =
    e.pattern &&& (e.mask &&& m) ||| placeField e.rDLo rD &&& (e.rDMask &&& m) |||
      placeField e.fslLo fsl &&& (e.fslMask &&& m) ||| placeBit e.nBit n &&& (e.nMask &&& m) |||
      placeBit e.cBit c &&& (e.cMask &&& m) := by
  simp only [GetEnc.rDMask, GetEnc.fslMask, GetEnc.nMask, GetEnc.cMask, ← BitVec.and_assoc, h.pattern_and_mask,
    placeField_and_full, placeBit_and_true, ← BitVec.and_or_distrib_right, getWord]

theorem getWord_and_mask : getWord e n c rD fsl &&& e.mask = e.pattern := by
  simp [getWord_and h, h.pattern_and_mask, and_zero_symm h.mask_rD, and_zero_symm h.mask_fsl, and_zero_symm h.mask_n,
    and_zero_symm h.mask_c]

theorem getWord_and_rDMask : getWord e n c rD fsl &&& e.rDMask = placeField e.rDLo rD := by
  simp only [getWord_and h, h.mask_rD, and_zero_symm h.rD_fsl, and_zero_symm h.rD_n, and_zero_symm h.rD_c, BitVec.and_self,
    BitVec.and_zero, BitVec.zero_or, BitVec.or_zero]
  exact placeField_and_full e.rDLo rD

theorem getWord_and_fslMask : getWord e n c rD fsl &&& e.fslMask = placeField e.fslLo fsl := by
  simp only [getWord_and h, h.mask_fsl, h.rD_fsl, and_zero_symm h.fsl_n, and_zero_symm h.fsl_c, BitVec.and_self,
    BitVec.and_zero, BitVec.zero_or, BitVec.or_zero]
  exact placeField_and_full e.fslLo fsl

theorem getWord_and_nMask : getWord e n c rD fsl &&& e.nMask = placeBit e.nBit n := by
  simp only [getWord_and h, h.mask_n, h.rD_n, h.fsl_n, and_zero_symm h.n_c, BitVec.and_self,
    BitVec.and_zero, BitVec.zero_or, BitVec.or_zero]
  exact placeBit_and_true e.nBit n

theorem getWord_and_cMask : getWord e n c rD fsl &&& e.cMask = placeBit e.cBit c := by
  simp only [getWord_and h, h.mask_c, h.rD_c, h.fsl_c, h.n_c, BitVec.and_self,
    BitVec.and_zero, BitVec.zero_or, BitVec.or_zero]
  exact placeBit_and_true e.cBit c

theorem decodeWord_getWord : decodeWord e (getWord e n c rD fsl) = .ok (getInstr n c rD fsl) := by
  have hn : (getWord e n c rD fsl).getLsbD e.nBit = n :=
    (getLsbD_of_and (getWord_and_nMask h n c rD fsl) (getLsbD_placeBit_self h.nBit true)).trans
      (getLsbD_placeBit_self h.nBit n)
  have hc : (getWord e n c rD fsl).getLsbD e.cBit = c :=
    (getLsbD_of_and (getWord_and_cMask h n c rD fsl) (getLsbD_placeBit_self h.cBit true)).trans
      (getLsbD_placeBit_self h.cBit c)
  have hrD : fieldAt e.rDLo (getWord e n c rD fsl) = rD :=
    (extractLsb'_of_and (getWord_and_rDMask h n c rD fsl) (fieldAt_placeField h.rDLo 31#5)).trans
      (fieldAt_placeField h.rDLo rD)
  have hfsl : fieldAt e.fslLo (getWord e n c rD fsl) = fsl :=
    (extractLsb'_of_and (getWord_and_fslMask h n c rD fsl) (fieldAt_placeField h.fslLo 31#5)).trans
      (fieldAt_placeField h.fslLo fsl)
  rw [decodeWord_of_get h (GetEnc.covers_iff.mpr (getWord_and_mask h n c rD fsl)), hn, hc, hrD, hfsl]

end gets

/-! ## Every instruction -/

/-- The word of a well-formed instruction decodes to it. -/
theorem decodeWord_encodeWord {e : GetEnc} (he : e.wf = true) {i : Instr} (hi : i.wellFormed = true) :
    decodeWord e (encodeWord e i) = .ok i := by
  have hform : checkForm i = .ok i := if_pos hi
  cases hc : classOf i with
  | get n c rD fsl => rw [eq_getInstr hc, encodeWord_getInstr, decodeWord_getWord (GetEnc.apart_of_wf he)]
  | put n c rA fsl => rw [eq_putInstr hc, encodeWord_putInstr, decodeWord_putWord]
  | udi n rcn t a b => rw [eq_udiInstr hc, encodeWord_udiInstr, decodeWord_udiWord]
  | load k u f rA rB => rw [decodeWord_encodeWord_transfer e (congrArg transferOf hc), hform]
  | store k u f rA rB => rw [decodeWord_encodeWord_transfer e (congrArg transferOf hc), hform]

/-- A word that decodes to an instruction other than a get is the word of that instruction. -/
theorem encodeWord_of_decodeWord {e : GetEnc} {w : Word} {i : Instr} (h : decodeWord e w = .ok i)
    (hget : ∀ n c rD fsl, classOf i ≠ .get n c rD fsl) : encodeWord e i = w := by
  obtain ⟨mk, hmk, rfl⟩ | ⟨hu, rfl⟩ | ⟨hp, rfl⟩ | ⟨n, c, rD, fsl, rfl⟩ := decodeWord_ok_cases h
  · rw [encodeWord_of_mem_fcmRows _ _ _ _ _ (mem_fcmRows_of_lookup hmk)]
    exact threeFieldWord_fieldAt w
  · rw [encodeWord_udiInstr, udiWord_of_udi hu]
  · rw [encodeWord_putInstr, putWord_of_put hp]
  · exact absurd (classOf_getInstr n c rD fsl) (hget n c rD fsl)

end Sys2Proof
end

section
/-! SUPPORT. The invalid forms (30_encoding R93 to R95): reserved bits set, and update forms with rA = 0. -/

namespace Sys2Proof

open Sys2Proof.Machine

/-- A row's word with bit {31} set is no pattern, and a row of the table but for that bit. -/
theorem decodeWord_threeFieldWord_reserved {e : GetEnc} (he : e.Apart) {base : Word}
    {mk : Field5 → Field5 → Field5 → Instr} (h : fcmRows.lookup base = some mk) (f rA rB : Field5) :
    decodeWord e (threeFieldWord base f rA rB ||| 1#32) = .error .invalidFormReserved := by
  obtain ⟨hop, hbase, hnone, hsome⟩ := fcmRows_reserved _ (mem_fcmRows_of_lookup h)
  have hcomm (b x y z r : Word) : b ||| x ||| y ||| z ||| r = b ||| r ||| x ||| y ||| z := by ac_rfl
  have hword : threeFieldWord base f rA rB ||| 1#32 = threeFieldWord (base ||| 1#32) f rA rB := hcomm ..
  rw [hword]
  have hw : threeFieldWord (base ||| 1#32) f rA rB &&& fcmMask = base ||| 1#32 :=
    (threeFieldWord_and f rA rB rfl).trans hbase
  have hopcode : (threeFieldWord (base ||| 1#32) f rA rB).extractLsb' 26 6 = 31#6 :=
    (extractLsb'_of_and hw (by decide)).trans hop
  obtain ⟨hu, hp, hg⟩ :=
    he.no_pattern_of_opcode (w := threeFieldWord (base ||| 1#32) f rA rB) (by rw [hopcode]; decide)
  refine decodeWord_of_reserved ?_ hu hp hg ?_
  · rw [hw]; exact Option.not_isSome_iff_eq_none.mp (Bool.eq_false_iff.mp hnone)
  · rw [reservedBitsSet, and_of_and hw (by decide), hsome, Bool.true_or]

theorem decodeWord_transfer_reserved {e : GetEnc} (he : e.Apart) {i : Instr} {k : AccessKind} {d : Access} {u : Bool}
    {f rA rB : Field5} (h : transferOf (classOf i) = some (k, d, u, f, rA, rB)) :
    decodeWord e (encodeWord e i ||| 1#32) = .error .invalidFormReserved := by
  obtain ⟨mk, hmk, rfl⟩ := fcmRows_lookup_row h
  rw [encodeWord_of_mem_fcmRows e f rA rB _ (mem_fcmRows_of_lookup hmk), decodeWord_threeFieldWord_reserved he hmk]

/-- A put word with a reserved bit set is no pattern of the decoder's own, and a put but for those bits. -/
theorem decodeWord_put_reserved {e : GetEnc} {n c z : Bool} {rA fsl r : Field5} (hres : r ≠ 0#5 ∨ z = true)
    (hg : e.covers (threeFieldWord (putBase n c z) r rA fsl) = false) :
    decodeWord e (threeFieldWord (putBase n c z) r rA fsl) = .error .invalidFormReserved := by
  obtain ⟨hfields, hbase, hop, hudi, hput, _, _, hz⟩ := putBase_bits n c z
  have hw : threeFieldWord (putBase n c z) r rA fsl &&& 0xFC0007FF#32 = putBase n c z :=
    (threeFieldWord_and r rA fsl rfl).trans hbase
  refine decodeWord_of_reserved (fcmRows_lookup_eq_none ((extractLsb'_of_and hw (by decide)).trans hop)) ?_ ?_ hg ?_
  · rw [and_of_and hw (by decide)]
    exact hudi
  · intro hp
    have hr0 : r = 0#5 := (fieldAt_threeFieldWord_21 hfields r rA fsl).symm.trans (extractLsb'_of_and hp (by decide))
    have hz0 : z = false := (hz.symm.trans (getLsbD_of_and hw (by decide)).symm).trans (getLsbD_of_and hp (by decide))
    obtain h | h := hres
    · exact h hr0
    · rw [hz0] at h; cases h
  · have hput' := (and_of_and hw (by decide)).trans hput
    rw [reservedBitsSet, hput', beq_self_eq_true, Bool.or_true]

/-- An update form with rA = 0 is refused before anything else (60_exceptions R226 (1)). -/
theorem exec_of_update_rA0 {i : Instr} {k : AccessKind} {d : Access} {f rB : Field5}
    (h : transferOf (classOf i) = some (k, d, true, f, 0#5, rB)) (s : State) :
    exec i s = .refused .invalidFormRA0 := by
  rw [exec_eq_execClass]
  cases hc : classOf i with
  | get n c x y => rw [hc] at h; cases h
  | put n c x y => rw [hc] at h; cases h
  | udi n rcn x y z => rw [hc] at h; cases h
  | load k' u' f' x y => rw [hc] at h; cases h; rfl
  | store k' u' f' x y => rw [hc] at h; cases h; rfl

/-- The base of a non-update form with rA = 0 is the constant 0 (10_state R22). -/
theorem addressSum_rA0 (rB : Field5) (s : State) : addressSum false 0#5 rB s = s.readGpr rB := BitVec.zero_add _

end Sys2Proof
end

section
/-! The statements of 30_encoding. -/

namespace Sys2Proof.Machine

/-- Settles O7: each group's word shows its pattern and its fields, and memory's byte order is undone by the fetch. -/
theorem decodeEncodeAgree : Obligations.DecodeEncodeAgree := by
  intro e i he hi
  rw [encode, ← List.append_nil (bytesOfWord _), decode_bytesOfWord, decodeWord_encodeWord he hi]

/-- Settles O8: outside `GET_ENC` the pattern's mask and the fields make up the whole word. -/
theorem encodeDecodeAgree : Obligations.EncodeDecodeAgree := fun _ _ _ h hget => encodeWord_of_decodeWord h hget

/-- Settles O10: the loads and stores have another primary opcode, the other patterns differ where both masks look. -/
theorem decodePatternsDisjoint : Obligations.DecodePatternsDisjoint := by
  intro e w he
  have ha := GetEnc.apart_of_wf he
  exact ⟨fun hf => ha.no_pattern_of_opcode (by rw [fcmRows_opcode hf]; decide),
    fun hu => ⟨not_put_of_udi hu, ha.not_covers_of_udi hu⟩, ha.not_covers_of_put⟩

/-- Settles O11: such a word reaches the last step of R90. -/
theorem reservedBitSetIsRejected : Obligations.ReservedBitSetIsRejected := by
  refine ⟨fun e i he hi => ?_, fun e n c rA fsl r z w hres hw hg => ?_⟩
  · obtain ⟨⟨k, d, u, f, rA, rB⟩, hc⟩ := Option.isSome_iff_exists.mp hi
    exact decodeWord_transfer_reserved (GetEnc.apart_of_wf he) hc
  · subst hw
    rw [putWord_reserved] at hg ⊢
    exact decodeWord_put_reserved hres hg

/-- Settles O12: of the loads and stores, R95's check and the meaning refuse the update forms with rA = 0 only. -/
theorem updateFormWithRA0IsRefused : Obligations.UpdateFormWithRA0IsRefused := by
  intro e f rB s i hi
  obtain ⟨k, d, hc⟩ : ∃ k d, transferOf (classOf i) = some (k, d, true, f, 0#5, rB) := by
    revert i
    simp [classOf, transferOf]
  refine ⟨?_, exec_of_update_rA0 hc s, fun j hj => ?_⟩
  · rw [decodeWord_encodeWord_transfer e hc, checkForm, wellFormed_of_transfer hc]
    rfl
  · obtain ⟨k', d', hc'⟩ : ∃ k d, transferOf (classOf j) = some (k, d, false, f, 0#5, rB) := by
      revert j
      simp [classOf, transferOf]
    rw [decodeWord_encodeWord_transfer e hc', checkForm, wellFormed_of_transfer hc']
    exact ⟨rfl, addressSum_rA0 rB s⟩

/-- Settles O9: each word is decoded. -/
theorem sampleWordsDecode : Obligations.SampleWordsDecode := by
  unfold Obligations.SampleWordsDecode
  decide

end Sys2Proof.Machine
end

section
/-! SUPPORT. How each get and put form ends (40_fsl_get_put R112 to R121), for all its selector bits at once, and a
machine whose step answers its own state. -/

namespace Sys2Proof.Machine

section
variable {n c : Bool} {r fsl : Field5} {s : State}

/-- A get form that finds a word completes, and this is the state in full. -/
theorem getForm_takes_word {w : FslWord} {rest : List FslWord} (hr : fslReady s fsl) (hq : s.inQueue fsl = w :: rest) :
    ∃ t, getForm n c r fsl s = .next t ∧
      t = { s with gpr := t.gpr, pc := s.pc + 4#32, xerCa := if n then false else s.xerCa,
                   xerOv := ovOfGet w.control c, fslIn := t.fslIn } ∧
      (∀ q, t.readGpr q = if q = r then w.data else s.readGpr q) ∧
      ∀ x, t.inQueue x = if x = fsl then rest else s.inQueue x := by
  have frame := getPresent_frame n c r fsl w rest s
  rw [getPresent_xerCa, getPresent_xerOv] at frame
  exact ⟨_, getForm_of_word hr hq, frame, getPresent_readGpr n c r fsl w rest s,
    getPresent_inQueue n c r fsl w rest s⟩

/-- A non-blocking get that finds no word completes; of rD and XER[OV] nothing is said (R115, D14). -/
theorem getForm_without_word (hr : fslReady s fsl) (hq : s.inQueue fsl = []) :
    ∃ t, getForm true c r fsl s = .next t ∧
      t = { s with gpr := t.gpr, pc := s.pc + 4#32, xerCa := true, xerOv := t.xerOv, draws := t.draws } ∧
      ∀ q, q ≠ r → t.readGpr q = s.readGpr q :=
  ⟨getAbsent r s, getForm_of_empty hr hq, rfl, fun q hne => (getAbsent_readGpr r s q).trans (if_neg hne)⟩

/-- A put form that finds space completes, and this is the state in full. -/
theorem putForm_appends (hr : fslReady s fsl) (hf : s.isFull fsl = false) :
    ∃ t, putForm n c r fsl s = .next t ∧
      t = { s with pc := s.pc + 4#32, xerCa := if n then false else s.xerCa, fslOut := t.fslOut } ∧
      ∀ x, t.outQueue x =
        if x = fsl then s.outQueue x ++ [{ data := s.readGpr r, control := c }] else s.outQueue x := by
  have frame := putAccepted_frame n c r fsl s
  rw [putAccepted_xerCa] at frame
  refine ⟨_, putForm_of_space hr hf, frame, fun x => ?_⟩
  rw [putAccepted_outQueue]
  split
  · next hx => rw [hx]
  · rfl

/-- A non-blocking put completes whether or not it finds space, and XER[CA] is what the interface said (R119). -/
theorem putForm_reports_space (hr : fslReady s fsl) :
    ∃ t, putForm true c r fsl s = .next t ∧
      t = { s with pc := s.pc + 4#32, xerCa := s.isFull fsl, fslOut := t.fslOut } ∧
      ∀ x, t.outQueue x =
        if x = fsl ∧ s.isFull fsl = false then s.outQueue x ++ [{ data := s.readGpr r, control := c }]
        else s.outQueue x := by
  cases hf : s.isFull fsl with
  | false =>
    obtain ⟨t, ht, frame, hout⟩ := putForm_appends (n := true) (c := c) (r := r) hr hf
    exact ⟨t, ht, frame, fun x => by simpa using hout x⟩
  | true => exact ⟨(s.setCa (caOfPut true)).advance, putForm_of_full hr hf, rfl, fun x => by simp⟩

/-- In user mode the first check of R122 raises, whatever the transfer would have done. -/
theorem fslChecked_of_user (hp : s.priv = .user) (x : Host.Outcome State Fault Refusal) :
    fslChecked fsl s x = .fault (.programPrivileged { pc := s.pc, info := s.instrWord, frozen := s }) := by
  simp only [fslChecked, hp]
  rfl

/-- A blocking get with no word, or put with no space, answers the state it found (R112). -/
theorem exec_of_stalled {i : Instr} (hr : fslReady s fsl)
    (h : ((i = .get r fsl ∨ i = .cget r fsl) ∧ s.inQueue fsl = []) ∨
      ((i = .put r fsl ∨ i = .cput r fsl) ∧ s.isFull fsl = true)) : exec i s = .next s := by
  obtain ⟨rfl | rfl, hq⟩ | ⟨rfl | rfl, hf⟩ := h
  · exact getForm_of_empty (n := false) (c := false) hr hq
  · exact getForm_of_empty (n := false) (c := true) hr hq
  · exact putForm_of_full (n := false) (c := false) hr hf
  · exact putForm_of_full (n := false) (c := true) hr hf

end

/-- A state that a step answers unchanged is where every run from it ends. -/
theorem run_of_step_self {M : Host.Core} {s : M.State} (h : M.step s = .next s) : ∀ k, M.run k s = .next s
  | 0 => rfl
  | k + 1 => by
    rw [Host.Core.run, h]
    exact run_of_step_self h k

end Sys2Proof.Machine
end

section
/-! The statements of 40_fsl_get_put. -/

namespace Sys2Proof.Machine

/-- Settles O13: n = 0, so XER[CA] is left alone. -/
theorem blockingGetTakesWord : Obligations.BlockingGetTakesWord := by
  intro rD fsl s w rest p hp hr hq
  obtain rfl | rfl : p = (.get rD fsl, false) ∨ p = (.cget rD fsl, true) := by simpa using hp
  · exact getForm_takes_word (n := false) (c := false) hr hq
  · exact getForm_takes_word (n := false) (c := true) hr hq

/-- Settles O14: n = 1, so XER[CA] says that there was a word. -/
theorem nonblockingGetTakesWord : Obligations.NonblockingGetTakesWord := by
  intro rD fsl s w rest p hp hr hq
  obtain rfl | rfl : p = (.nget rD fsl, false) ∨ p = (.ncget rD fsl, true) := by simpa using hp
  · exact getForm_takes_word (n := true) (c := false) hr hq
  · exact getForm_takes_word (n := true) (c := true) hr hq

/-- Settles O15: the selector bit c plays no part where there is no word. -/
theorem nonblockingGetWithoutWord : Obligations.NonblockingGetWithoutWord := by
  intro rD fsl s i hi hr hq
  obtain rfl | rfl : i = .nget rD fsl ∨ i = .ncget rD fsl := by simpa using hi
  · exact getForm_without_word (c := false) hr hq
  · exact getForm_without_word (c := true) hr hq

/-- Settles O17: with no move pending the step runs the instruction on the state itself, which stalls; so the state is a
fixed point of the step. -/
theorem stallLastsWhileTheEnvironmentIsIdle : Obligations.StallLastsWhileTheEnvironmentIsIdle := by
  intro s r fsl i rest ha hp henv hd hr hstall
  have hstep : step s = .next s :=
    calc step s = exec i s.envTurn := step_of_decoded ha hp hd
      _ = exec i s := by rw [envTurn_of_idle henv]
      _ = .next s := exec_of_stalled hr hstall
  exact run_of_step_self (M := Sys2Proof.core) hstep

/-- Settles O18: n = 0, so XER[CA] is left alone. -/
theorem blockingPutAppends : Obligations.BlockingPutAppends := by
  intro rA fsl s p hp hr hf
  obtain rfl | rfl : p = (.put rA fsl, false) ∨ p = (.cput rA fsl, true) := by simpa using hp
  · exact putForm_appends (n := false) (c := false) hr hf
  · exact putForm_appends (n := false) (c := true) hr hf

/-- Settles O19: both answers of the interface, for either control bit. -/
theorem nonblockingPutReportsSpace : Obligations.NonblockingPutReportsSpace := by
  intro rA fsl s p hp hr
  obtain rfl | rfl : p = (.nput rA fsl, false) ∨ p = (.ncput rA fsl, true) := by simpa using hp
  · exact putForm_reports_space (c := false) hr
  · exact putForm_reports_space (c := true) hr

/-- Settles O20: all eight forms go through the privilege check first. -/
theorem userModeTransferIsPrivileged : Obligations.UserModeTransferIsPrivileged := by
  intro r fsl s hp i hi
  rw [exec_eq_execClass]
  obtain ⟨n, c, hc | hc⟩ := classOf_fslForms hi
  · rw [hc]; exact fslChecked_of_user hp _
  · rw [hc]; exact fslChecked_of_user hp _

/-- Settles O16: the four blocking forms. -/
theorem blockingTransferStalls : Obligations.BlockingTransferStalls := fun _ _ _ hr =>
  ⟨fun hq => ⟨exec_of_stalled hr (.inl ⟨.inl rfl, hq⟩), exec_of_stalled hr (.inl ⟨.inr rfl, hq⟩)⟩,
    fun hf => ⟨exec_of_stalled hr (.inr ⟨.inl rfl, hf⟩), exec_of_stalled hr (.inr ⟨.inr rfl, hf⟩)⟩⟩

end Sys2Proof.Machine
end

section
/-! SUPPORT. The fields of the condition register (10_state R29): a written field reads back, the seven others stay. -/

namespace Sys2Proof.Machine

/-- The mask of a field: four ones from its lowest bit up. -/
theorem getLsbD_fieldMask {lo i : Nat} (hi : i < 32) :
    (0xF#32 <<< lo).getLsbD i = decide (lo ≤ i ∧ i < lo + 4) := by
  have ones : (0xF#32).getLsbD (i - lo) = decide (i - lo < 4) := by
    rw [show (0xF#32 : Word) = BitVec.ofNat 32 (2 ^ 4 - 1) from rfl, BitVec.getLsbD_ofNat, Nat.testBit_two_pow_sub_one]
    simp [show i - lo < 32 by omega]
  rw [BitVec.getLsbD_shiftLeft, ones]
  by_cases h : i < lo
  · simp [h, Nat.not_le.mpr h]
  · simp [hi, h, Nat.not_lt.mp h]
    omega

/-- Inside the written field a bit is the value's, outside it is the old one. -/
theorem getLsbD_writeCrField (cr : BitVec 32) (f : BitVec 3) (v : BitVec 4) {i : Nat} (hi : i < 32) :
    (writeCrField cr f v).getLsbD i =
      if crFieldLo f ≤ i ∧ i < crFieldLo f + 4 then v.getLsbD (i - crFieldLo f) else cr.getLsbD i := by
  rw [writeCrField, BitVec.getLsbD_or, BitVec.getLsbD_and, BitVec.getLsbD_not, getLsbD_fieldMask hi,
    BitVec.getLsbD_shiftLeft, BitVec.getLsbD_setWidth]
  split
  · next h =>
    simp [h, hi, show i - crFieldLo f < 32 by omega, show ¬ i < crFieldLo f by omega]
  · next h =>
    by_cases hlt : i < crFieldLo f
    · simp [h, hi, hlt]
    · have above : v.getLsbD (i - crFieldLo f) = false := BitVec.getLsbD_of_ge v _ (by omega)
      simp [h, hi, above]

theorem crFieldLo_add_four_le (f : BitVec 3) : crFieldLo f + 4 ≤ 32 := by
  unfold crFieldLo
  omega

/-- Two fields share no bit. -/
theorem crFields_apart {f g : BitVec 3} (h : g ≠ f) :
    crFieldLo g + 4 ≤ crFieldLo f ∨ crFieldLo f + 4 ≤ crFieldLo g := by
  have hne : g.toNat ≠ f.toNat := fun e => h (BitVec.eq_of_toNat_eq e)
  unfold crFieldLo
  omega

theorem readCrField_writeCrField (cr : BitVec 32) (f g : BitVec 3) (v : BitVec 4) :
    readCrField (writeCrField cr f v) g = if g = f then v else readCrField cr g := by
  have hg := crFieldLo_add_four_le g
  apply BitVec.eq_of_getLsbD_eq
  intro i hi
  have read : ∀ c : BitVec 32, (readCrField c g).getLsbD i = c.getLsbD (crFieldLo g + i) := fun c => by
    simp [readCrField, hi]
  rw [read, getLsbD_writeCrField cr f v (by omega)]
  by_cases h : g = f
  · subst h
    simp [hi]
  · have hout := crFields_apart h
    rw [if_neg h, read, if_neg (by omega)]

end Sys2Proof.Machine
end

section
/-! SUPPORT. How a UDI ends (41_udi R131), for every number, last bit and meaning at once. -/

namespace Sys2Proof.Machine

/-- The operand values of R131: a register is read for `gpr_src` alone. -/
theorem udiSourceValue_eq (k : UdiSource) (x : Field5) (s : State) :
    udiSourceValue k x s = if k = .gprSrc then some (s.readGpr x) else none := by
  cases k <;> rfl

theorem writeUdiTarget_cr (k : UdiTarget) (t : Field5) (r : Option Word) (s : State) :
    (writeUdiTarget k t r s).cr = s.cr := by
  rw [writeUdiTarget_frame]

theorem udiCompleted_cr_of_none (m : UdiMeaning) (rcn : BitVec 1) (t : Field5) {r : UdiResult} (s : State)
    (hr : r.crResult = none) : (udiCompleted m rcn t r s).cr = s.cr := by
  rw [udiCompleted, hr]
  exact writeUdiTarget_cr ..

theorem udiCompleted_cr_of_some (m : UdiMeaning) (t : Field5) {r : UdiResult} (s : State) {f : BitVec 3} {x : BitVec 4}
    (hr : r.crResult = some (f, x)) : (udiCompleted m 0#1 t r s).cr = writeCrField s.cr f x := by
  rw [udiCompleted, hr]
  exact congrArg (writeCrField · f x) (writeUdiTarget_cr ..)

section
variable {n : BitVec 3} {rcn : BitVec 1} {t a b : Field5} {s : State} {m : UdiMeaning}

/-- A defined UDI whose operation answers `r`, no exception in it, completes with `r` written. The operand values are
spelled out as R131 prints them. -/
theorem udiForm_writes_result (hu : s.cfg.apu.udi = true) (hm : s.udiDef n rcn = some m) {r : UdiResult}
    (hr : r = udiResult m.op s.fcm t a b (if m.aKind = .gprSrc then some (s.readGpr a) else none)
      (if m.bKind = .gprSrc then some (s.readGpr b) else none)) (he : r.exc = none) :
    udiForm n rcn t a b s = .next (udiCompleted m rcn t r s) := by
  have answer : udiAnswer m t a b s = r := by
    rw [hr, udiAnswer, udiSourceValue_eq, udiSourceValue_eq]
  rw [← answer] at he ⊢
  exact udiForm_completes hu hm he

theorem udiForm_of_exception (hu : s.cfg.apu.udi = true) (hm : s.udiDef n rcn = some m) {e : UserException}
    (he : (udiAnswer m t a b s).exc = some e) :
    udiForm n rcn t a b s = raiseException (.userDefined e.code) e.info s s := by
  simp [udiForm, hu, hm, he]

theorem udiForm_of_undefined (hu : s.cfg.apu.udi = true) (hm : s.udiDef n rcn = none) :
    udiForm n rcn t a b s = .refused .udiNotDefined := by
  simp [udiForm, hu, hm]

end

/-! ## The sixteen mnemonics (R134 to R149) -/

theorem exec_undottedUdi {t a b : Field5} {p : Instr × BitVec 3}
    (hp : p ∈ ([(.udi0fcm t a b, 0#3), (.udi1fcm t a b, 1#3), (.udi2fcm t a b, 2#3), (.udi3fcm t a b, 3#3),
      (.udi4fcm t a b, 4#3), (.udi5fcm t a b, 5#3), (.udi6fcm t a b, 6#3), (.udi7fcm t a b, 7#3)] :
      List (Instr × BitVec 3))) (s : State) : exec p.1 s = udiForm p.2 1#1 t a b s := by
  simp only [List.mem_cons, List.not_mem_nil, or_false] at hp
  obtain rfl | rfl | rfl | rfl | rfl | rfl | rfl | rfl := hp <;> exact exec_eq_execClass ..

theorem exec_dottedUdi {t a b : Field5} {p : Instr × BitVec 3}
    (hp : p ∈ ([(.udi0fcmDot t a b, 0#3), (.udi1fcmDot t a b, 1#3), (.udi2fcmDot t a b, 2#3), (.udi3fcmDot t a b, 3#3),
      (.udi4fcmDot t a b, 4#3), (.udi5fcmDot t a b, 5#3), (.udi6fcmDot t a b, 6#3), (.udi7fcmDot t a b, 7#3)] :
      List (Instr × BitVec 3))) (s : State) : exec p.1 s = udiForm p.2 0#1 t a b s := by
  simp only [List.mem_cons, List.not_mem_nil, or_false] at hp
  obtain rfl | rfl | rfl | rfl | rfl | rfl | rfl | rfl := hp <;> exact exec_eq_execClass ..

theorem exec_of_udiClass {i : Instr} {n : BitVec 3} {rcn : BitVec 1} {t a b : Field5}
    (hc : classOf i = .udi n rcn t a b) (s : State) : exec i s = udiForm n rcn t a b s := by
  rw [exec_eq_execClass, hc]
  rfl

end Sys2Proof.Machine
end

section
/-! SUPPORT. The mode is read by the get and put forms and, with data relocation enabled, by Translate; by nothing else
(41_udi R133, 42_fcm_load_update R171, 60_exceptions R245). -/

namespace Sys2Proof.Machine

/-- The state in mode `p`. -/
def State.withPriv (s : State) (p : Priv) : State := { s with priv := p }

section
variable (p : Priv)

/-! ## UDIs -/

theorem udiCompleted_withPriv (m : UdiMeaning) (rcn : BitVec 1) (t : Field5) (r : UdiResult) (s : State) :
    udiCompleted m rcn t r (s.withPriv p) = (udiCompleted m rcn t r s).withPriv p := by
  have target : writeUdiTarget m.tKind t r.tResult ((s.withPriv p).setFcm r.fcm) =
      (writeUdiTarget m.tKind t r.tResult (s.setFcm r.fcm)).withPriv p := by
    cases m.tKind <;> cases r.tResult <;> rfl
  unfold udiCompleted writeUdiCr
  rw [target]
  split
  · rfl
  · split <;> rfl

/-! ## Accesses without relocation -/

section
variable {s : State} (h : s.dataReloc = false)
include h

theorem realAddress_withPriv (k : AccessKind) (a : Access) (ea : Word) (n : Nat) :
    (s.withPriv p).realAddress k a ea n = s.realAddress k a ea n := by
  have other : (s.withPriv p).translate ea a = .ok ea (realEndian s.translation ea) := translate_of_real _ ea a h
  unfold State.realAddress
  rw [translate_of_real s ea a h, other]
  rfl

theorem memRead_withPriv (k : AccessKind) (ea : Word) (n : Nat) :
    (s.withPriv p).memRead k ea n = s.memRead k ea n := by
  unfold State.memRead
  rw [realAddress_withPriv p h]
  rfl

theorem memWrite_withPriv (k : AccessKind) (ea : Word) (n : Nat) (v : Word) :
    (s.withPriv p).memWrite k ea n v = s.memWrite k ea n v := by
  unfold State.memWrite
  rw [realAddress_withPriv p h]
  rfl

theorem loadBeat_withPriv {k : AccessKind} {u : Bool} {f : Field5} {ea : Word} {b : Fin 4} {t : State}
    (hb : loadBeat k u f ea b s = .ok t) : loadBeat k u f ea b (s.withPriv p) = .ok (t.withPriv p) := by
  unfold loadBeat at hb ⊢
  rw [memRead_withPriv p h]
  split at hb
  · cases hb
  · cases hb; rfl

theorem storeBeat_withPriv {k : AccessKind} {u : Bool} {f : Field5} {ea : Word} {b : Fin 4} {l : Bool} {t : State}
    (hb : storeBeat k u f ea b l s = .ok t) : storeBeat k u f ea b l (s.withPriv p) = .ok (t.withPriv p) := by
  have data : storeData k u f ea b (s.withPriv p) = storeData k u f ea b s := rfl
  unfold storeBeat at hb ⊢
  rw [memWrite_withPriv p h, data]
  split at hb
  · cases hb
  · cases hb; rfl

end

/-! ## Transfers without relocation -/

theorem loadBeats_withPriv {k : AccessKind} {u : Bool} {f : Field5} {ea : Word} : ∀ {l : List (Fin 4)} {s t : State},
    s.dataReloc = false → loadBeats k u f ea l s = .done t →
      loadBeats k u f ea l (s.withPriv p) = .done (t.withPriv p)
  | [], s, t, _, hb => by cases hb; rfl
  | b :: rest, s, t, h, hb => by
    unfold loadBeats at hb ⊢
    split at hb
    · cases hb
    · next m hm =>
      rw [loadBeat_withPriv p h hm]
      exact loadBeats_withPriv (by rw [loadBeat_frame hm]; exact h) hb

theorem storeBeats_withPriv {k : AccessKind} {u : Bool} {f : Field5} {ea : Word} {q : Fin 4 → Bool} :
    ∀ {l : List (Fin 4)} {s t : State}, s.dataReloc = false → storeBeats k u f ea q l s = .done t →
      storeBeats k u f ea q l (s.withPriv p) = .done (t.withPriv p)
  | [], s, t, _, hb => by cases hb; rfl
  | b :: rest, s, t, h, hb => by
    unfold storeBeats at hb ⊢
    split at hb
    · cases hb
    · next m hm =>
      rw [storeBeat_withPriv p h hm]
      exact storeBeats_withPriv (by rw [(storeBeat_frame hm).1]; exact h) hb

theorem afterTransfer_withPriv (u : Bool) (rA : Field5) (ea : Word) (s : State) :
    afterTransfer u rA ea (s.withPriv p) = (afterTransfer u rA ea s).withPriv p := by
  cases u <;> rfl

/-! ## Instructions -/

variable {i : Instr} {s t : State}

theorem exec_udi_withPriv {n : BitVec 3} {rcn : BitVec 1} {x a b : Field5} (hc : classOf i = .udi n rcn x a b)
    (h : exec i s = .next t) : exec i (s.withPriv p) = .next (t.withPriv p) := by
  obtain ⟨hu, m, hm, he, rfl⟩ := exec_udi_next hc h
  rw [exec_of_udiClass hc, ← udiCompleted_withPriv]
  exact udiForm_completes (s := s.withPriv p) hu hm he

theorem exec_transfer_withPriv (hc : (transferOf (classOf i)).isSome = true) (hd : s.dataReloc = false)
    (h : exec i s = .next t) : exec i (s.withPriv p) = .next (t.withPriv p) := by
  rw [exec_eq_execClass]
  cases hi : classOf i with
  | get => rw [hi] at hc; cases hc
  | put => rw [hi] at hc; cases hc
  | udi => rw [hi] at hc; cases hc
  | load k u f rA rB =>
    obtain ⟨hr, m, hm, rfl⟩ := exec_load_next hi h
    rw [← afterTransfer_withPriv]
    exact loadForm_completes (s := s.withPriv p) hr (loadBeats_withPriv p hd hm)
  | store k u f rA rB =>
    obtain ⟨hr, m, hm, rfl⟩ := exec_store_next hi h
    rw [← afterTransfer_withPriv]
    exact storeForm_completes (s := s.withPriv p) hr (storeBeats_withPriv p hd hm)

end

end Sys2Proof.Machine
end

section
/-! The statements of 41_udi. -/

namespace Sys2Proof.Machine

/-- Settles O22: Rcn = 1, so the completed state's CR is the old one. -/
theorem undottedUdiResult : Obligations.UndottedUdiResult := by
  intro t a b s m p hp hu hm r hr he
  refine ⟨_, (exec_undottedUdi hp s).trans (udiForm_writes_result hu hm hr he), ?_, udiCompleted_readGpr m 1#1 t r s⟩
  obtain ⟨c, frame, keep⟩ := udiCompleted_frame m 1#1 t r s
  rw [frame, keep (by decide)]

/-- Settles O23: Rcn = 0, so the operation's answer alone decides about CR. -/
theorem dottedUdiResult : Obligations.DottedUdiResult := by
  intro t a b s m p hp hu hm r hr he
  refine ⟨_, (exec_dottedUdi hp s).trans (udiForm_writes_result hu hm hr he), ?_, udiCompleted_readGpr m 0#1 t r s,
    udiCompleted_cr_of_none m 0#1 t s, fun f x hcr g => ?_⟩
  · obtain ⟨c, frame, _⟩ := udiCompleted_frame m 0#1 t r s
    rw [frame]
  · rw [udiCompleted_cr_of_some m t s hcr, readCrField_writeCrField]

/-- Settles O24: the operation's exception is raised with the state as it was. -/
theorem udiExceptionIsRaised : Obligations.UdiExceptionIsRaised := fun _ _ _ _ _ _ s _ _ hc hu hm he =>
  (exec_of_udiClass hc s).trans (udiForm_of_exception hu hm he)

/-- Settles O26: a UDI reads no mode, and Translate reads none without relocation. -/
theorem unprivilegedInstructionsIgnoreMode : Obligations.UnprivilegedInstructionsIgnoreMode := by
  rintro i s t p h (⟨n, rcn, x, a, b, hc⟩ | ⟨hc, hd⟩)
  · exact exec_udi_withPriv p hc h
  · exact exec_transfer_withPriv p hc hd h

/-- Settles O25: the slot is looked up before any operand is read. -/
theorem undefinedUdiIsRefused : Obligations.UndefinedUdiIsRefused := fun _ _ _ _ _ _ s hc hu hm =>
  (exec_of_udiClass hc s).trans (udiForm_of_undefined hu hm)

end Sys2Proof.Machine
end

section
/-! SUPPORT. A load whose accesses go through (42_fcm_load_update R160 to R169, 43_fcm_load R175 to R179): one beat of any
kind, the beats of the kinds that fill the latch, and the completed instruction. -/

namespace Sys2Proof.Machine

/-! ## What is read fits its lane (R57) -/

/-- Each byte read is one digit more to the base 256. -/
theorem Memory.toNat_readBytes_lt (m : Memory) (ra : Word) : ∀ {n : Nat}, n ≤ 4 → (m.readBytes ra n).toNat < 256 ^ n
  | 0, _ => Nat.one_pos
  | n + 1, hn => by
    have hlow : (m.readBytes ra n).toNat < 256 ^ n := m.toNat_readBytes_lt ra (by omega)
    have hthree : 256 ^ n ≤ 256 ^ 3 := Nat.pow_le_pow_right (by omega) (by omega)
    have hbyte := (m.read (ra + BitVec.ofNat 32 n)).isLt
    rw [m.toNat_readBytes_succ ra (by omega), pow_succ]
    omega

theorem Memory.setWidth_readBytes (m : Memory) (ra : Word) {n : Nat} (hn : n ≤ 4) :
    ((m.readBytes ra n).setWidth (8 * n)).setWidth 32 = m.readBytes ra n := by
  have hlt : (m.readBytes ra n).toNat < 2 ^ (8 * n) := by
    rw [pow_mul]
    exact m.toNat_readBytes_lt ra hn
  apply BitVec.eq_of_toNat_eq
  rw [BitVec.toNat_setWidth, BitVec.toNat_setWidth, Nat.mod_eq_of_lt hlt, Nat.mod_eq_of_lt (m.readBytes ra n).isLt]

theorem unitBytes_le_four (k : AccessKind) : unitBytes k ≤ 4 := by cases k <;> decide

/-- The lane of a byte or half word beat holds the datum read, whatever value was drawn for the other bits (R167). -/
theorem extractLane_loadData {k : AccessKind} (hk : fillsLatch k = false) (eb : Nat) (ra : Word) (s : State) :
    extractLane eb (unitBytes k) (loadData k eb (s.mem.readBytes ra (unitBytes k)) s) =
      s.mem.readBytes ra (unitBytes k) := by
  rw [loadData, hk, if_neg Bool.false_ne_true, extractLane_insertLane, Memory.setWidth_readBytes _ _ (unitBytes_le_four k)]

/-! ## One beat (R165) -/

section
variable {k : AccessKind} {u : Bool} {f : Field5} {b : Fin 4} {eb : Nat} {data : Word} {s : State}

@[simp] theorem deliverBeat_fcm :
    (deliverBeat k u f b eb data s).fcm = fcmLoadBeat s.cfg.fcmLogic s.fcm f k u b eb data := rfl

@[simp] theorem deliverBeat_fcmData : (deliverBeat k u f b eb data s).fcmData = data := rfl

/-- A beat that fills the latch draws no free value. -/
theorem deliverBeat_frame_of_fillsLatch (hk : fillsLatch k = true) :
    deliverBeat k u f b eb data s =
      { s with fcm := fcmLoadBeat s.cfg.fcmLogic s.fcm f k u b eb data, fcmData := data } := by
  rw [deliverBeat, hk, if_pos rfl]
  rfl

theorem loadBeat_of_real {ea ra : Word} (h : s.realAddress k .load (beatAddress ea b) (unitBytes k) = .ok ra) :
    loadBeat k u f ea b s = .ok (deliverBeat k u f b (laneOffset ea)
      (loadData k (laneOffset ea) (s.mem.readBytes ra (unitBytes k)) s) s) := by
  simp only [loadBeat, State.memRead, h]

end

/-! ## The beats of a transfer (20_memory R58) -/

theorem beatsOf_of_not_fillsLatch {k : AccessKind} (hk : fillsLatch k = false) : beatsOf k = [0] := by
  cases k with
  | b => rfl
  | h => rfl
  | w => cases hk
  | d => cases hk
  | q => cases hk

theorem unitBytes_of_fillsLatch {k : AccessKind} (hk : fillsLatch k = true) : unitBytes k = 4 := by
  cases k with
  | b => cases hk
  | h => cases hk
  | w => rfl
  | d => rfl
  | q => rfl

/-- Load beats of the word-sized kinds that all go through: the FCM is given the words in the order of the beats. No beat
changes what the later ones read, nor where. -/
theorem loadBeats_run {k : AccessKind} {u : Bool} {f : Field5} {ea : Word} (hk : fillsLatch k = true)
    (hlane : laneOffset ea = 0) (ra : Fin 4 → Word) : ∀ (l : List (Fin 4)) (s : State),
    (∀ b ∈ l, s.realAddress k .load (beatAddress ea b) 4 = .ok (ra b)) →
    ∃ m, loadBeats k u f ea l s = .done m ∧
      m.fcm = l.foldl (fun c b => fcmLoadBeat s.cfg.fcmLogic c f k u b 0 (s.mem.readBytes (ra b) 4)) s.fcm ∧
      m = { s with fcm := m.fcm, fcmData := m.fcmData }
  | [], s, _ => ⟨s, rfl, rfl, rfl⟩
  | b :: rest, s, hreal => by
    have hunit := unitBytes_of_fillsLatch hk
    have hbeat := loadBeat_of_real (u := u) (f := f) (hunit.symm ▸ hreal b List.mem_cons_self)
    rw [hlane, deliverBeat_frame_of_fillsLatch hk, loadData, hk, if_pos rfl, hunit] at hbeat
    obtain ⟨m, hrest, hfcm, hframe⟩ := loadBeats_run hk hlane ra rest
      { s with fcm := fcmLoadBeat s.cfg.fcmLogic s.fcm f k u b 0 (s.mem.readBytes (ra b) 4),
               fcmData := s.mem.readBytes (ra b) 4 }
      fun c hc => hreal c (List.mem_cons_of_mem _ hc)
    exact ⟨m, by rw [loadBeats, hbeat]; exact hrest, hfcm, hframe⟩

/-! ## The completed instruction -/

@[simp] theorem afterTransfer_fcm (u : Bool) (rA : Field5) (ea : Word) (s : State) :
    (afterTransfer u rA ea s).fcm = s.fcm := by cases u <;> rfl

@[simp] theorem afterTransfer_fcmData (u : Bool) (rA : Field5) (ea : Word) (s : State) :
    (afterTransfer u rA ea s).fcmData = s.fcmData := by cases u <;> rfl

section
variable {i : Instr} {k : AccessKind} {u : Bool} {f rA rB : Field5} {s : State}

/-- Beats that are all done complete the instruction. -/
theorem exec_load_completes {m : State} (hc : classOf i = .load k u f rA rB) (hr : fcmReady k u rA rB s)
    (hm : loadBeats k u f (transferEA k u rA rB s) (beatsOf k) s = .done m) :
    exec i s = .next (afterTransfer u rA (transferEA k u rA rB s) m) := by
  rw [exec_eq_execClass, hc]
  exact loadForm_completes hr hm

/-- A byte or half word load is its one beat at EA, then rA and pc. -/
theorem exec_byteHalfLoad {ra : Word} (hc : classOf i = .load k u f rA rB) (hk : fillsLatch k = false)
    (hr : fcmReady k u rA rB s) (hra : s.realAddress k .load (transferEA k u rA rB s) (unitBytes k) = .ok ra) :
    exec i s = .next (afterTransfer u rA (transferEA k u rA rB s)
      (deliverBeat k u f 0 (laneOffset (transferEA k u rA rB s))
        (loadData k (laneOffset (transferEA k u rA rB s)) (s.mem.readBytes ra (unitBytes k)) s) s)) := by
  have hbeat := loadBeat_of_real (u := u) (f := f) (ea := transferEA k u rA rB s) (b := 0) (by rwa [beatAddress_zero])
  refine exec_load_completes hc hr ?_
  rw [beatsOf_of_not_fillsLatch hk, loadBeats, hbeat]
  rfl

/-- A load of a word-sized kind whose accesses all go through: besides rA and pc, the FCM and the latch alone change. -/
theorem exec_wordLoad (hc : classOf i = .load k u f rA rB) (hk : fillsLatch k = true) (hr : fcmReady k u rA rB s)
    (ra : Fin 4 → Word)
    (hra : ∀ b ∈ beatsOf k, s.realAddress k .load (beatAddress (transferEA k u rA rB s) b) 4 = .ok (ra b)) :
    ∃ t, exec i s = .next t ∧
      t.fcm = (beatsOf k).foldl (fun c b =>
        fcmLoadBeat s.cfg.fcmLogic c f k u b 0 (s.mem.readBytes (ra b) 4)) s.fcm ∧
      t = { s with gpr := t.gpr, pc := s.pc + 4#32, fcm := t.fcm, fcmData := t.fcmData } := by
  obtain ⟨m, hm, hfcm, hframe⟩ :=
    loadBeats_run (u := u) (f := f) hk (laneOffset_effectiveAddress hk (addressSum u rA rB s)) ra (beatsOf k) s hra
  refine ⟨_, exec_load_completes hc hr hm, (afterTransfer_fcm ..).trans hfcm, ?_⟩
  rw [afterTransfer_frame, hframe]

end

/-! ## The ten mnemonics -/

theorem byteHalfLoad_class {f rA rB : Field5} {p : Instr × AccessKind × Bool × Nat}
    (hp : p ∈ ([(.lbfcmux f rA rB, .b, true, 1), (.lbfcmx f rA rB, .b, false, 1), (.lhfcmux f rA rB, .h, true, 2),
      (.lhfcmx f rA rB, .h, false, 2)] : List (Instr × AccessKind × Bool × Nat))) :
    classOf p.1 = .load p.2.1 p.2.2.1 f rA rB ∧ fillsLatch p.2.1 = false ∧ p.2.2.2 = unitBytes p.2.1 := by
  simp only [List.mem_cons, List.not_mem_nil, or_false] at hp
  obtain rfl | rfl | rfl | rfl := hp <;> exact ⟨rfl, rfl, rfl⟩

theorem wordLoad_class {f rA rB : Field5} {p : Instr × AccessKind × Bool × List (Fin 4)}
    (hp : p ∈ ([(.lwfcmux f rA rB, .w, true, [0]), (.lwfcmx f rA rB, .w, false, [0]), (.ldfcmux f rA rB, .d, true, [0, 1]),
      (.ldfcmx f rA rB, .d, false, [0, 1]), (.lqfcmux f rA rB, .q, true, [0, 1, 2, 3]),
      (.lqfcmx f rA rB, .q, false, [0, 1, 2, 3])] : List (Instr × AccessKind × Bool × List (Fin 4)))) :
    classOf p.1 = .load p.2.1 p.2.2.1 f rA rB ∧ fillsLatch p.2.1 = true ∧ p.2.2.2 = beatsOf p.2.1 := by
  simp only [List.mem_cons, List.not_mem_nil, or_false] at hp
  obtain rfl | rfl | rfl | rfl | rfl | rfl := hp <;> exact ⟨rfl, rfl, rfl⟩

end Sys2Proof.Machine
end

section
/-! The statements of 42_fcm_load_update. -/

namespace Sys2Proof.Machine

/-- Settles O27: the one beat is delivered with the datum in its lane, and rA and pc are written after it. -/
theorem byteHalfLoadResult : Obligations.ByteHalfLoadResult := by
  rintro f rA rB s ra p hp ea rfl hr hra
  obtain ⟨hc, hk, hn⟩ := byteHalfLoad_class hp
  rw [hn] at hra ⊢
  have hexec := exec_byteHalfLoad hc hk hr hra
  refine ⟨_, hexec, ?_, ?_, ?_, exec_load_readGpr hc hexec⟩
  · rw [afterTransfer_fcmData, deliverBeat_fcmData, extractLane_loadData hk]
  · rw [afterTransfer_fcm, afterTransfer_fcmData, deliverBeat_fcm, deliverBeat_fcmData]
  · rw [afterTransfer_frame]
    rfl

/-- Settles O28: the beats run in the order of the table, and no beat changes memory, registers or the draws. -/
theorem wordLoadsResult : Obligations.WordLoadsResult := by
  rintro f rA rB s ra p hp ea rfl hr hra
  obtain ⟨hc, hk, hb⟩ := wordLoad_class hp
  rw [hb] at hra ⊢
  obtain ⟨t, hexec, hfcm, hframe⟩ := exec_wordLoad hc hk hr ra hra
  exact ⟨t, hexec, hfcm, hframe, exec_load_readGpr hc hexec⟩

end Sys2Proof.Machine
end

section
/-! SUPPORT. A store whose accesses go through, outside the text (44_fcm_store_update R190 to R198, 45_fcm_store R205 to
R209): what a write leaves, one beat of any kind, and the completed instruction. -/

namespace Sys2Proof.Machine

/-! ## What a write leaves (20_memory R51, R57) -/

theorem Memory.read_writeBytes_of_not_inSpan {m : Memory} (hw : m.wf = true) {ra a : Word} {n : Nat} (v : Word)
    (ha : ¬ inSpan ra n a) : (m.writeBytes ra v n).read a = m.read a :=
  m.read_writeBytes_other hw ra a n v fun j hj e => ha ⟨j, hj, e⟩

/-- The datum of a lane has no bits above its `n` bytes, so a write of `n` bytes keeps all of it. -/
theorem Memory.readBytes_writeBytes_extractLane {m : Memory} (hw : m.wf = true) (ra : Word) {n : Nat} (hn : n ≤ 4)
    (eb : Nat) (d : Word) : (m.writeBytes ra (extractLane eb n d) n).readBytes ra n = extractLane eb n d := by
  have hcut : extractLane eb n d &&& lowBytes n = extractLane eb n d := by
    rw [extractLane, BitVec.and_assoc, BitVec.and_self]
  exact (m.readBytes_writeBytes hw ra n _ hn).trans hcut

/-! ## One beat (R195, R196) -/

theorem storedValue_of_not_fillsLatch {k : AccessKind} (hk : fillsLatch k = false) (ea d : Word) :
    storedValue k ea d = extractLane (laneOffset ea) (unitBytes k) d := by
  rw [storedValue, hk, if_neg Bool.false_ne_true]

/-- No byte of the span lies in the text: the test of R67 passes. -/
theorem allBytes_not_inText {s : State} {ra : Word} {n : Nat} (h : ∀ a, inSpan ra n a → s.inText a = false) :
    allBytes (fun a => !s.inText a) ra n = true :=
  allBytes_intro fun j hj => by rw [h _ ⟨j, hj, rfl⟩]; rfl

theorem storeBeat_of_real {k : AccessKind} {u : Bool} {f : Field5} {b : Fin 4} {ea ra : Word} {s : State}
    (hra : s.realAddress k .store (beatAddress ea b) (unitBytes k) = .ok ra)
    (htext : allBytes (fun a => !s.inText a) ra (unitBytes k) = true) :
    storeBeat k u f ea b true s = .ok ((s.setLatch (storeData k u f ea b s)).setMem
      (s.mem.writeBytes ra (storedValue k ea (storeData k u f ea b s)) (unitBytes k))) := by
  simp only [storeBeat, State.memWrite, hra, htext, if_true]

theorem storeBeats_singleton_of_ok {k : AccessKind} {u : Bool} {f : Field5} {ea : Word} {p : Fin 4 → Bool} {b : Fin 4}
    {s m : State} (h : storeBeat k u f ea b (p b) s = .ok m) : storeBeats k u f ea p [b] s = .done m := by
  rw [storeBeats, h]
  rfl

/-! ## The completed instruction -/

theorem beatsOf_nodup (k : AccessKind) : (beatsOf k).Nodup := by cases k <;> decide

@[simp] theorem afterTransfer_mem (u : Bool) (rA : Field5) (ea : Word) (s : State) :
    (afterTransfer u rA ea s).mem = s.mem := by cases u <;> rfl

section
variable {i : Instr} {k : AccessKind} {u : Bool} {f rA rB : Field5} {s : State}

/-- Beats that are all done complete the instruction. -/
theorem exec_store_completes {m : State} (hc : classOf i = .store k u f rA rB) (hr : fcmReady k u rA rB s)
    (hm : storeBeats k u f (transferEA k u rA rB s) (fun _ => true) (beatsOf k) s = .done m) :
    exec i s = .next (afterTransfer u rA (transferEA k u rA rB s) m) := by
  rw [exec_eq_execClass, hc]
  exact storeForm_completes hr hm

/-- A store never stalls: one that answers a next state goes on to the next instruction. -/
theorem exec_store_frame_next_pc {t : State} (hc : classOf i = .store k u f rA rB) (h : exec i s = .next t) :
    t = { s with gpr := t.gpr, pc := s.pc + 4#32, mem := t.mem, fcmData := t.fcmData } := by
  obtain ⟨_, m, hm, rfl⟩ := exec_store_next hc h
  rw [afterTransfer_frame, storeBeats_frame hm]

/-- A byte or half word store writes, at the one real address, the lane of EA in the beat the FCM presents (R197). -/
theorem exec_byteHalfStore {ra : Word} (hc : classOf i = .store k u f rA rB) (hk : fillsLatch k = false)
    (hr : fcmReady k u rA rB s) (hra : s.realAddress k .store (transferEA k u rA rB s) (unitBytes k) = .ok ra)
    (htext : allBytes (fun a => !s.inText a) ra (unitBytes k) = true) :
    ∃ t, exec i s = .next t ∧ t.mem = s.mem.writeBytes ra (extractLane (laneOffset (transferEA k u rA rB s)) (unitBytes k)
      (fcmStoreBeat s.cfg.fcmLogic s.fcm f k u 0 (laneOffset (transferEA k u rA rB s)))) (unitBytes k) := by
  have hbeat := storeBeat_of_real (u := u) (f := f) (ea := transferEA k u rA rB s) (b := 0)
    (by rwa [beatAddress_zero]) htext
  rw [storedValue_of_not_fillsLatch hk] at hbeat
  have hdone := storeBeats_singleton_of_ok (p := fun _ => true) hbeat
  rw [← beatsOf_of_not_fillsLatch hk] at hdone
  exact ⟨_, exec_store_completes hc hr hdone, afterTransfer_mem ..⟩

/-- A store of a word-sized kind whose accesses all go through: what its beats leave in memory (R58). -/
theorem exec_wordStore (hc : classOf i = .store k u f rA rB) (hk : fillsLatch k = true) (hr : fcmReady k u rA rB s)
    (hw : s.mem.wf = true) (ra : Fin 4 → Word)
    (hra : ∀ b ∈ beatsOf k, s.realAddress k .store (beatAddress (transferEA k u rA rB s) b) 4 = .ok (ra b) ∧
      allBytes (fun a => !s.inText a) (ra b) 4 = true) :
    ∃ t, exec i s = .next t ∧
      ((∀ b ∈ beatsOf k, ∀ c ∈ beatsOf k, b ≠ c → ∀ a, inSpan (ra b) 4 a → ¬ inSpan (ra c) 4 a) →
        ∀ b ∈ beatsOf k, t.mem.readBytes (ra b) 4 = fcmStoreBeat s.cfg.fcmLogic s.fcm f k u b 0) ∧
      ∀ a, (∀ b ∈ beatsOf k, ¬ inSpan (ra b) 4 a) → t.mem.read a = s.mem.read a := by
  obtain ⟨m, hm, hwords, hother⟩ :=
    storeBeats_run (u := u) (f := f) (p := fun _ => true) hk ra (beatsOf k) s hw (beatsOf_nodup k) hra
  have hlane : laneOffset (transferEA k u rA rB s) = 0 := laneOffset_effectiveAddress hk (addressSum u rA rB s)
  simp only [hlane, if_true] at hwords
  refine ⟨_, exec_store_completes hc hr hm, ?_⟩
  rw [afterTransfer_mem]
  exact ⟨hwords, hother⟩

end

/-! ## The ten mnemonics -/

theorem byteHalfStore_class {f rA rB : Field5} {p : Instr × AccessKind × Bool × Nat}
    (hp : p ∈ ([(.stbfcmux f rA rB, .b, true, 1), (.stbfcmx f rA rB, .b, false, 1), (.sthfcmux f rA rB, .h, true, 2),
      (.sthfcmx f rA rB, .h, false, 2)] : List (Instr × AccessKind × Bool × Nat))) :
    classOf p.1 = .store p.2.1 p.2.2.1 f rA rB ∧ fillsLatch p.2.1 = false ∧ p.2.2.2 = unitBytes p.2.1 := by
  simp only [List.mem_cons, List.not_mem_nil, or_false] at hp
  obtain rfl | rfl | rfl | rfl := hp <;> exact ⟨rfl, rfl, rfl⟩

theorem wordStore_class {f rA rB : Field5} {p : Instr × AccessKind × Bool × List (Fin 4)}
    (hp : p ∈ ([(.stwfcmux f rA rB, .w, true, [0]), (.stwfcmx f rA rB, .w, false, [0]),
      (.stdfcmux f rA rB, .d, true, [0, 1]), (.stdfcmx f rA rB, .d, false, [0, 1]),
      (.stqfcmux f rA rB, .q, true, [0, 1, 2, 3]), (.stqfcmx f rA rB, .q, false, [0, 1, 2, 3])] :
      List (Instr × AccessKind × Bool × List (Fin 4)))) :
    classOf p.1 = .store p.2.1 p.2.2.1 f rA rB ∧ fillsLatch p.2.1 = true ∧ p.2.2.2 = beatsOf p.2.1 := by
  simp only [List.mem_cons, List.not_mem_nil, or_false] at hp
  obtain rfl | rfl | rfl | rfl | rfl | rfl := hp <;> exact ⟨rfl, rfl, rfl⟩

end Sys2Proof.Machine
end

section
/-! The statements of 44_fcm_store_update. -/

namespace Sys2Proof.Machine

/-- Settles O29: memory is as before but for one write of the lane's bytes, and that write is read back whole. -/
theorem byteHalfStoreResult : Obligations.ByteHalfStoreResult := by
  rintro f rA rB s ra p hp ea rfl hw hr hra htext
  obtain ⟨hc, hk, hn⟩ := byteHalfStore_class hp
  rw [hn] at hra htext ⊢
  obtain ⟨t, hexec, hmem⟩ := exec_byteHalfStore hc hk hr hra (allBytes_not_inText htext)
  refine ⟨t, hexec, ?_, fun a ha => ?_, exec_store_frame_next_pc hc hexec, exec_store_readGpr hc hexec⟩
  · rw [hmem, Memory.readBytes_writeBytes_extractLane hw ra (unitBytes_le_four _)]
  · rw [hmem, Memory.read_writeBytes_of_not_inSpan hw _ ha]

/-- Settles O30: the beats of the table are the beats of the kind, and no beat moves where a later one goes. -/
theorem wordStoresResult : Obligations.WordStoresResult := by
  rintro f rA rB s ra p hp ea rfl hw hr hra htext
  obtain ⟨hc, hk, hb⟩ := wordStore_class hp
  rw [hb] at hra htext ⊢
  obtain ⟨t, hexec, hwords, hother⟩ :=
    exec_wordStore hc hk hr hw ra fun b hmem => ⟨hra b hmem, allBytes_not_inText (htext b hmem)⟩
  exact ⟨t, hexec, hwords, hother, exec_store_frame_next_pc hc hexec, exec_store_readGpr hc hexec⟩

end Sys2Proof.Machine
end

section
/-! SUPPORT. Exceptions (60_exceptions R220 to R231): which access raises which, what a fault froze, and what a run keeps. -/

namespace Sys2Proof.Machine

/-! ## Translate and one access (R221 to R224) -/

/-- An entry whose zone does not prevent the access gives its real address: no-access speaks in user mode only, read-only of
stores only. -/
theorem translate_of_permitted {s : State} {ea : Word} {a : Access} {e : TlbAnswer} (h : s.dataReloc = true)
    (he : lookupTlb s.translation.tlb ea a s.priv = some e) (hno : e.zone = .noAccess → s.priv = .privileged)
    (hro : e.zone = .readOnly → a = .load) : s.translate ea a = .ok e.ra e.endian := by
  cases hz : e.zone with
  | unprotected => exact translate_of_unprotected s ea a h he hz
  | noAccess =>
    have hp := hno hz
    rw [hp] at he
    simp only [State.translate, h, hp, he, hz, if_true]
  | readOnly =>
    obtain rfl := hro hz
    simp only [State.translate, h, he, hz, if_true]

section
variable {s : State} {ea : Word} {a : Access} (k : AccessKind) (n : Nat)

theorem realAddress_of_tlbMiss (h : s.translate ea a = .tlbMiss) :
    s.realAddress k a ea n = .error (.raised .dataTlbMiss ea) := by simp [State.realAddress, h]

theorem realAddress_of_noAccess (h : s.translate ea a = .noAccess) :
    s.realAddress k a ea n = .error (.raised .dataStorage ea) := by simp [State.realAddress, h]

theorem realAddress_of_readOnly (h : s.translate ea a = .readOnly) :
    s.realAddress k a ea n = .error (.raised .dataStorage ea) := by simp [State.realAddress, h]

/-- An access to little-endian storage stops with what the policy answers (20_memory R52). -/
theorem realAddress_of_little {ra : Word} (h : s.translate ea a = .ok ra .little) :
    (endianAnswer s.cfg.endian k a .little = .unsupported .alignmentException →
      s.realAddress k a ea n = .error (.raised .alignment ea)) ∧
    (endianAnswer s.cfg.endian k a .little = .unsupported .refuse →
      s.realAddress k a ea n = .error (.refused .endianNotGiven)) :=
  ⟨fun hp => by simp [State.realAddress, h, hp], fun hp => by simp [State.realAddress, h, hp]⟩

end

theorem endianAnswer_little_ne_access (p : EndianPolicy) (k : AccessKind) (a : Access) :
    endianAnswer p k a .little ≠ .bigEndianAccess := by
  obtain ⟨x, hx⟩ := endianAnswer_little p k a
  simp [hx]

/-- What the two raising policies found wrong with the sum (20_memory R56). -/
theorem misalignRaises_cause {p : MisalignPolicy} {k : AccessKind} {v : Word} (h : misalignRaises p k v = true) :
    (p = .fault ∧ v ≠ effectiveAddress k v) ∨ (p = .faultNatural ∧ v.toNat % transferBytes k ≠ 0) := by
  cases p with
  | mask => cases h
  | fault => exact .inl ⟨rfl, (ne_effectiveAddress_iff k v).mpr ((misalignRaises_fault_iff k v).mp h)⟩
  | faultNatural => exact .inr ⟨rfl, (misalignRaises_faultNatural_iff k v).mp h⟩

/-! ## The beat that raises (R226) -/

/-- The first beat whose access raises makes the fault of the instruction; at the first beat of all nothing has changed. -/
theorem exec_transfer_raises {i : Instr} {k : AccessKind} {d : Access} {u : Bool} {f rA rB : Field5} {s : State}
    {b : Fin 4} {x : ExceptionKind} {v : Word} (hc : transferOf (classOf i) = some (k, d, u, f, rA, rB))
    (hr : fcmReady k u rA rB s) (hb : b ∈ beatsOf k) (hp : earlierBeatsPass s k d (transferEA k u rA rB s) b)
    (he : s.realAddress k d (beatAddress (transferEA k u rA rB s) b) (unitBytes k) = .error (.raised x v)) :
    ∃ z, exec i s = .fault (faultOf x { pc := s.pc, info := v, frozen := z }) ∧ (b = 0 → z = s) :=
  exec_transfer_stops hc hr hb hp he

/-- A store beat that raises makes the fault of the store, with the frozen state of R228. -/
theorem storeForm_of_raised {k : AccessKind} {u : Bool} {f rA rB : Field5} {s : State} {b : Fin 4} {x : ExceptionKind}
    {v : Word} (hr : fcmReady k u rA rB s)
    (hb : storeBeats k u f (transferEA k u rA rB s) (fun _ => true) (beatsOf k) s = .stopped (.raised x v) b) :
    storeForm k u f rA rB s =
      .fault (faultOf x { pc := s.pc, info := v, frozen := storeFrozen k u f (transferEA k u rA rB s) s b }) := by
  obtain ⟨h0, h1, h2⟩ := hr
  unfold transferEA at hb
  rw [storeForm, fcmChecked_pass h0 h1 h2, hb]
  rfl

theorem mem_earlierBeats {k : AccessKind} {b c : Fin 4} :
    c ∈ (beatsOf k).filter (· < b) ↔ c ∈ beatsOf k ∧ c < b := by simp

/-- Only a double or quad transfer has a beat after the first. -/
theorem multiBeat_of_mem {k : AccessKind} {b : Fin 4} (hb : b ∈ beatsOf k) (h0 : b ≠ 0) : k = .d ∨ k = .q := by
  cases k with
  | b => exact absurd (List.mem_singleton.mp hb) h0
  | h => exact absurd (List.mem_singleton.mp hb) h0
  | w => exact absurd (List.mem_singleton.mp hb) h0
  | d => exact .inl rfl
  | q => exact .inr rfl

theorem fillsLatch_of_multiBeat {k : AccessKind} (hk : k = .d ∨ k = .q) : fillsLatch k = true := by
  obtain rfl | rfl := hk <;> rfl

/-! ## The memory a stopped store leaves (R228 (c)) -/

section
variable {k : AccessKind} {u : Bool} {f : Field5} {ea : Word} {s : State}

theorem landedMemory_of_done {l : List (Fin 4)} {t : State} (h : storeBeats k u f ea (landedFree s) l s = .done t) :
    landedMemory k u f ea l s = t.mem := by rw [landedMemory, h]

/-- Landed or not, the earlier beats keep the canonical form and every byte outside their own accesses. -/
theorem landedMemory_frame (l : List (Fin 4)) (hw : s.mem.wf = true) :
    (landedMemory k u f ea l s).wf = true ∧
      ∀ a, (∀ c ∈ l, ∀ ra, s.realAddress k .store (beatAddress ea c) (unitBytes k) = .ok ra → ¬ inSpan ra (unitBytes k) a) →
        (landedMemory k u f ea l s).read a = s.mem.read a := by
  unfold landedMemory
  split
  · next t ht =>
    obtain ⟨hwf, _, hother⟩ := storeBeats_memory ht hw
    exact ⟨hwf, hother⟩
  · exact ⟨hw, fun _ _ => rfl⟩

/-- At the first beat there is no earlier one, so the memory after "the earlier beats" is the memory before. -/
theorem storeFrozen_mem (b : Fin 4) :
    (storeFrozen k u f ea s b).mem = landedMemory k u f ea ((beatsOf k).filter (· < b)) s := by
  unfold storeFrozen
  split
  · next h =>
    have hnone : (beatsOf k).filter (· < b) = [] := by simp [h]
    rw [hnone]
    rfl
  · rfl

/-- A stopped store may change memory, the latch and the draw counter, and nothing else. -/
theorem storeFrozen_frame (b : Fin 4) :
    storeFrozen k u f ea s b =
      { s with mem := (storeFrozen k u f ea s b).mem, fcmData := (storeFrozen k u f ea s b).fcmData,
               draws := (storeFrozen k u f ea s b).draws } := by
  unfold storeFrozen
  split <;> rfl

theorem storeFrozen_mem_wf (b : Fin 4) (hw : s.mem.wf = true) : (storeFrozen k u f ea s b).mem.wf = true := by
  rw [storeFrozen_mem]
  exact (landedMemory_frame _ hw).1

theorem storeFrozen_read_other {b : Fin 4} {a : Word} (hw : s.mem.wf = true)
    (ha : ∀ c ∈ beatsOf k, c < b → ∀ ra, s.realAddress k .store (beatAddress ea c) (unitBytes k) = .ok ra →
      ¬ inSpan ra (unitBytes k) a) : (storeFrozen k u f ea s b).mem.read a = s.mem.read a := by
  rw [storeFrozen_mem]
  refine (landedMemory_frame _ hw).2 a fun c hc => ?_
  obtain ⟨hmem, hlt⟩ := mem_earlierBeats.mp hc
  exact ha c hmem hlt

/-- Where the earlier beats' words do not overlap, each is old or new, as its beat's draw says. -/
theorem storeFrozen_words {b : Fin 4} (hk : fillsLatch k = true) (hlane : laneOffset ea = 0) (hw : s.mem.wf = true)
    (ra : Fin 4 → Word)
    (hra : ∀ c ∈ beatsOf k, c < b → s.realAddress k .store (beatAddress ea c) 4 = .ok (ra c) ∧
      allBytes (fun a => !s.inText a) (ra c) 4 = true)
    (hapart : ∀ c ∈ beatsOf k, ∀ e ∈ beatsOf k, c < b → e < b → c ≠ e → ∀ a, inSpan (ra c) 4 a → ¬ inSpan (ra e) 4 a)
    {c : Fin 4} (hc : c ∈ beatsOf k) (hlt : c < b) :
    (storeFrozen k u f ea s b).mem.readBytes (ra c) 4 =
      if landedFree s c then fcmStoreBeat s.cfg.fcmLogic s.fcm f k u c 0 else s.mem.readBytes (ra c) 4 := by
  obtain ⟨t, ht, hwords, _⟩ := storeBeats_run (u := u) (f := f) (p := landedFree s) hk ra ((beatsOf k).filter (· < b)) s hw
    ((beatsOf_nodup k).filter _) fun e he => by
      obtain ⟨hmem, hb⟩ := mem_earlierBeats.mp he
      exact hra e hmem hb
  rw [storeFrozen_mem, landedMemory_of_done ht, ← hlane]
  refine hwords (fun e he e' he' => ?_) c (mem_earlierBeats.mpr ⟨hc, hlt⟩)
  obtain ⟨hmem, hb⟩ := mem_earlierBeats.mp he
  obtain ⟨hmem', hb'⟩ := mem_earlierBeats.mp he'
  exact hapart e hmem e' hmem' hb hb'

/-- A store whose beat `b` raises after the earlier ones went through. -/
theorem exec_store_raises {i : Instr} {rA rB : Field5} {b : Fin 4} {x : ExceptionKind} {v : Word}
    (hc : classOf i = .store k u f rA rB) (hr : fcmReady k u rA rB s) (hb : b ∈ beatsOf k)
    (hp : ∀ c ∈ beatsOf k, c < b → ∃ ra,
      s.realAddress k .store (beatAddress (transferEA k u rA rB s) c) (unitBytes k) = .ok ra ∧
        allBytes (fun a => !s.inText a) ra (unitBytes k) = true)
    (he : s.realAddress k .store (beatAddress (transferEA k u rA rB s) b) (unitBytes k) = .error (.raised x v)) :
    exec i s =
      .fault (faultOf x { pc := s.pc, info := v, frozen := storeFrozen k u f (transferEA k u rA rB s) s b }) := by
  obtain ⟨rest, hsplit⟩ := beatsOf_split hb
  have hstop : storeBeats k u f (transferEA k u rA rB s) (fun _ => true) (beatsOf k) s = .stopped (.raised x v) b := by
    rw [hsplit]
    refine storeBeats_stop rest _ s (fun c h => ?_) he
    obtain ⟨hmem, hlt⟩ := mem_earlierBeats.mp h
    exact hp c hmem hlt
  rw [exec_eq_execClass, hc]
  exact storeForm_of_raised hr hstop

end

/-! ## What a fault froze (R227, R231) -/

@[simp] theorem faultRecordOf_faultOf (x : ExceptionKind) (r : FaultRecord) : faultRecordOf (faultOf x r) = r := by
  cases x <;> rfl

@[simp] theorem loadFrozen_mem (s : State) (b : Fin 4) : (loadFrozen s b).mem = s.mem := by
  unfold loadFrozen
  split <;> rfl

/-- A stopped load may change the FCM state, the latch and the draw counter, and nothing else (R228 (b)). -/
theorem loadFrozen_frame (s : State) (b : Fin 4) :
    loadFrozen s b = { s with fcm := (loadFrozen s b).fcm, fcmData := (loadFrozen s b).fcmData,
                              draws := (loadFrozen s b).draws } := by
  unfold loadFrozen
  split <;> rfl

section
variable (c : InstrClass) (ea : Word) (s : State)

theorem frozenOf_zero : frozenOf c ea s 0 = s := by cases c <;> rfl

theorem frozenOf_frame (b : Fin 4) :
    frozenOf c ea s b = { s with mem := (frozenOf c ea s b).mem, fcm := (frozenOf c ea s b).fcm,
                                 fcmData := (frozenOf c ea s b).fcmData, draws := (frozenOf c ea s b).draws } := by
  cases c with
  | get n k x y => rfl
  | put n k x y => rfl
  | udi n r x y w => rfl
  | load k u f x y => rw [frozenOf, loadFrozen_frame]
  | store k u f x y => rw [frozenOf, storeFrozen_frame]

theorem frozenOf_mem_wf (b : Fin 4) (hw : s.mem.wf = true) : (frozenOf c ea s b).mem.wf = true := by
  cases c with
  | get n k x y => exact hw
  | put n k x y => exact hw
  | udi n r x y w => exact hw
  | load k u f x y => rw [frozenOf, loadFrozen_mem]; exact hw
  | store k u f x y => exact storeFrozen_mem_wf b hw

end

/-- Every fault records the address of its instruction, and it froze the state before, or what R228 leaves at a beat that
raised. -/
theorem exec_fault_record {i : Instr} {s : State} {x : Fault} (h : exec i s = .fault x) :
    (faultRecordOf x).pc = s.pc ∧
      ((faultRecordOf x).frozen = s ∨
        ∃ k d u f rA rB b kind, transferOf (classOf i) = some (k, d, u, f, rA, rB) ∧ b ∈ beatsOf k ∧
          s.realAddress k d (beatAddress (transferEA k u rA rB s) b) (unitBytes k) =
            .error (.raised kind (faultRecordOf x).info) ∧
          (faultRecordOf x).frozen = frozenOf (classOf i) (transferEA k u rA rB s) s b) := by
  obtain ⟨_, _, rfl⟩ | ⟨_, _, _, _, _, _, _, _, _, _, rfl⟩ | ⟨k, d, u, f, rA, rB, hc, hcause⟩ := exec_fault_cases h
  · exact ⟨rfl, .inl rfl⟩
  · exact ⟨rfl, .inl rfl⟩
  · obtain ⟨_, rfl⟩ | ⟨_, b, hb, kind, hreal, rfl⟩ := hcause
    · exact ⟨rfl, .inl rfl⟩
    · rw [faultRecordOf_faultOf]
      exact ⟨rfl, .inr ⟨k, d, u, f, rA, rB, b, kind, hc, hb, hreal, rfl⟩⟩

/-- A load that stopped left memory as it was. -/
theorem frozenOf_load_mem {c : InstrClass} {k : AccessKind} {u : Bool} {f rA rB : Field5}
    (hc : transferOf c = some (k, .load, u, f, rA, rB)) (ea : Word) (s : State) (b : Fin 4) :
    (frozenOf c ea s b).mem = s.mem := by
  cases c with
  | get n c x y => cases hc
  | put n c x y => cases hc
  | udi n r x y w => cases hc
  | load k' u' f' x y => exact loadFrozen_mem s b
  | store k' u' f' x y => cases hc

theorem frozenOf_store {c : InstrClass} {k : AccessKind} {u : Bool} {f rA rB : Field5}
    (hc : transferOf c = some (k, .store, u, f, rA, rB)) (ea : Word) (s : State) (b : Fin 4) :
    frozenOf c ea s b = storeFrozen k u f ea s b := by
  cases c with
  | get n c x y => cases hc
  | put n c x y => cases hc
  | udi n r x y w => cases hc
  | load k' u' f' x y => cases hc
  | store k' u' f' x y => cases hc; rfl

/-! ## What a run keeps (R246, 10_state R30, 70_reset R260) -/

/-- Mode, data relocation, translation state and launch parameters are the same in both states. -/
def sameSettings (s t : State) : Prop :=
  t.priv = s.priv ∧ t.dataReloc = s.dataReloc ∧ t.translation = s.translation ∧ t.cfg = s.cfg

theorem sameSettings_refl (s : State) : sameSettings s s := ⟨rfl, rfl, rfl, rfl⟩

theorem sameSettings_trans {s t u : State} (h₁ : sameSettings s t) (h₂ : sameSettings t u) : sameSettings s u := by
  obtain ⟨hp, hd, ht, hc⟩ := h₁
  obtain ⟨hp', hd', ht', hc'⟩ := h₂
  exact ⟨hp'.trans hp, hd'.trans hd, ht'.trans ht, hc'.trans hc⟩

theorem envTurn_sameSettings (s : State) : sameSettings s s.envTurn :=
  ⟨envTurn_priv s, envTurn_dataReloc s, envTurn_translation s, envTurn_cfg s⟩

theorem exec_sameSettings {i : Instr} {s t : State} (h : exec i s = .next t) : sameSettings s t := by
  rw [exec_frame h]
  exact ⟨rfl, rfl, rfl, rfl⟩

theorem step_sameSettings {s t : State} (h : step s = .next t) : sameSettings s t := by
  obtain ⟨_, ⟨_, rfl⟩ | ⟨_, i, _, _, hx⟩⟩ := step_next h
  · exact sameSettings_refl t
  · exact sameSettings_trans (envTurn_sameSettings s) (exec_sameSettings hx)

end Sys2Proof.Machine
end

section
/-! The statements of 60_exceptions. -/

namespace Sys2Proof.Machine

/-- Settles O38: no valid entry is what Translate calls a miss, and the beat that misses ends the instruction. -/
theorem tlbMissFaults : Obligations.TlbMissFaults := by
  refine ⟨?_, translate_eq_tlbMiss_iff⟩
  rintro i k d u f rA rB s ea b hc hr rfl hb hp hreloc hnone
  have hmiss := (translate_eq_tlbMiss_iff s _ d).mpr ⟨hreloc, hnone⟩
  exact exec_transfer_raises hc hr hb hp (realAddress_of_tlbMiss k _ hmiss)

/-- Settles O39: of the three zones only no-access prevents a load, and that in user mode. -/
theorem dataStorageOnLoads : Obligations.DataStorageOnLoads := by
  refine ⟨?_, fun s a e hreloc he hz => ?_, fun s a => ⟨fun h => ?_, fun h => ?_⟩⟩
  · rintro i k u f rA rB s ea b e hc hr rfl hb hp hreloc huser he hz
    have hno := (translate_eq_noAccess_iff s _ .load).mpr ⟨hreloc, huser, e, he, hz⟩
    exact exec_transfer_raises (d := .load) (by rw [hc]; rfl) hr hb hp (realAddress_of_noAccess k _ hno)
  · refine translate_of_permitted hreloc he (fun hno => ?_) fun _ => rfl
    exact hz.resolve_left fun hro => by rw [hno] at hro; cases hro
  · obtain ⟨_, hstore, _⟩ := (translate_eq_readOnly_iff s a .load).mp h
    cases hstore
  · obtain ⟨hreloc, huser, _⟩ := (translate_eq_noAccess_iff s a .load).mp h
    exact ⟨hreloc, huser⟩

/-- Settles O40: read-only prevents a store in both modes, no-access in user mode. -/
theorem dataStorageOnStores : Obligations.DataStorageOnStores := by
  refine ⟨?_, fun s a e hreloc he hz hpriv => ?_, fun s a => ⟨fun h => ?_, fun h => ?_⟩⟩
  · rintro i k u f rA rB s ea b e hc hr rfl hb hp hreloc he hz
    have hprevented : s.realAddress k .store (beatAddress (transferEA k u rA rB s) b) (unitBytes k) =
        .error (.raised .dataStorage (beatAddress (transferEA k u rA rB s) b)) := by
      obtain hro | ⟨hno, huser⟩ := hz
      · exact realAddress_of_readOnly k _ ((translate_eq_readOnly_iff s _ .store).mpr ⟨hreloc, rfl, e, he, hro⟩)
      · exact realAddress_of_noAccess k _ ((translate_eq_noAccess_iff s _ .store).mpr ⟨hreloc, huser, e, he, hno⟩)
    exact exec_transfer_raises (d := .store) (by rw [hc]; rfl) hr hb hp hprevented
  · exact translate_of_permitted hreloc he (fun _ => hpriv) fun hro => by rw [hz] at hro; cases hro
  · exact ((translate_eq_readOnly_iff s a .store).mp h).1
  · obtain ⟨hreloc, huser, _⟩ := (translate_eq_noAccess_iff s a .store).mp h
    exact ⟨hreloc, huser⟩

/-- Settles O42: of all causes of a fault, the test on the sum and little-endian storage at a beat are those of alignment. -/
theorem alignmentHasTwoCauses : Obligations.AlignmentHasTwoCauses := by
  intro i s r h
  obtain ⟨_, _, hx⟩ | ⟨_, _, _, _, _, _, _, _, _, _, hx⟩ | ⟨k, d, u, f, rA, rB, hc, hcause⟩ := exec_fault_cases h
  · cases hx
  · cases hx
  · refine ⟨k, d, u, f, rA, rB, hc, ?_⟩
    obtain ⟨hraises, hx⟩ | ⟨_, b, hb, kind, hreal, hx⟩ := hcause
    · cases hx
      exact .inl ⟨hraises, rfl, rfl, misalignRaises_cause hraises⟩
    · obtain ⟨_, ⟨rfl, _⟩ | ⟨rfl, _⟩ | ⟨rfl, ra, ht, hpol⟩⟩ := realAddress_raised hreal
      · cases hx
      · cases hx
      · cases hx
        exact .inr ⟨b, hb, ra, rfl, ht, hpol⟩

/-- Settles O43: each cause of a fault with the group it belongs to. -/
theorem exceptionsByInstructionGroup : Obligations.ExceptionsByInstructionGroup := by
  intro i s x h
  obtain ⟨hfsl, _, hx⟩ | ⟨n, rcn, t, a, b, _, _, hudi, _, _, hx⟩ | ⟨k, d, u, f, rA, rB, hc, hcause⟩ := exec_fault_cases h
  · exact .inl ⟨hfsl, _, hx⟩
  · exact .inr (.inl ⟨⟨n, rcn, t, a, b, hudi⟩, _, _, hx⟩)
  · refine .inr (.inr ⟨by rw [hc]; rfl, ?_⟩)
    obtain ⟨_, hx⟩ | ⟨_, b, _, kind, hreal, hx⟩ := hcause
    · exact ⟨_, .inr (.inr hx)⟩
    · obtain ⟨_, ⟨rfl, _⟩ | ⟨rfl, _⟩ | ⟨rfl, _⟩⟩ := realAddress_raised hreal
      · exact ⟨_, .inr (.inl hx)⟩
      · exact ⟨_, .inl hx⟩
      · exact ⟨_, .inr (.inr hx)⟩

/-- Settles O44: a fault froze the state before or what a stopped beat leaves, and the first beat leaves the state before. -/
theorem faultFreezesTheState : Obligations.FaultFreezesTheState := by
  intro i s x h
  obtain ⟨hpc, hz | ⟨k, d, u, f, rA, rB, b, kind, hc, hb, hreal, hz⟩⟩ := exec_fault_record h
  · exact ⟨hpc, ⟨s.mem, s.fcm, s.fcmData, s.draws, hz, id⟩, .inl hz⟩
  · rw [hz]
    refine ⟨hpc, ⟨_, _, _, _, frozenOf_frame _ _ s b, frozenOf_mem_wf _ _ s b⟩, ?_⟩
    by_cases h0 : b = 0
    · rw [h0]
      exact .inl (frozenOf_zero _ _ s)
    · have hmulti := multiBeat_of_mem hb h0
      have hunit : unitBytes k = 4 := unitBytes_of_fillsLatch (fillsLatch_of_multiBeat hmulti)
      refine .inr ⟨k, d, u, f, rA, rB, b, hc, hmulti, hb, h0, ⟨kind, hunit ▸ hreal⟩, ?_, ?_⟩
      · rintro rfl
        exact frozenOf_load_mem hc _ s b
      · rintro rfl
        rw [frozenOf_store hc]
        exact ⟨by rw [storeFrozen_frame], fun hw a ha => storeFrozen_read_other hw (by rw [hunit]; exact ha)⟩

/-- Settles O45: the frozen memory is that of the earlier beats, each run with the draw that says whether it landed. -/
theorem laterBeatStoreFaultLeavesOldOrNewWords : Obligations.LaterBeatStoreFaultLeavesOldOrNewWords := by
  rintro i k u f rA rB s ea ra b x v hc hk hr rfl hw hb hra he
  have hfill := fillsLatch_of_multiBeat hk
  have hunit : unitBytes k = 4 := unitBytes_of_fillsLatch hfill
  have hlane : laneOffset (transferEA k u rA rB s) = 0 := laneOffset_effectiveAddress hfill _
  have hexec := exec_store_raises hc hr hb (fun c hmem hlt => ⟨ra c, hunit ▸ hra c hmem hlt⟩) (hunit ▸ he)
  rw [storeFrozen_frame] at hexec
  refine ⟨_, _, _, hexec, fun a ha => ?_, fun hapart c hmem hlt => ?_⟩
  · refine storeFrozen_read_other hw fun c hmem hlt r hreal => ?_
    rw [hunit] at hreal ⊢
    obtain rfl : ra c = r := Except.ok.inj ((hra c hmem hlt).1.symm.trans hreal)
    exact ha c hmem hlt
  · rw [storeFrozen_words hfill hlane hw ra hra hapart hmem hlt]
    split
    · exact .inr rfl
    · exact .inl rfl

/-- Settles O54: neither the environment's turn nor an instruction changes them, so no run does. -/
theorem modeAndParametersConstantOverARun : Obligations.ModeAndParametersConstantOverARun := fun _ s _ h =>
  run_induction (P := sameSettings s) (fun hs hstep => sameSettings_trans hs (step_sameSettings hstep))
    (sameSettings_refl s) h

/-- Settles O56: the policy's two answers are the two ways the beat stops. -/
theorem littleEndianBeatIsNotAccessed : Obligations.LittleEndianBeatIsNotAccessed := by
  refine ⟨?_, endianAnswer_little_ne_access⟩
  rintro i k d u f rA rB s ea ra b hc hr rfl hb hp ht
  obtain ⟨halign, hrefuse⟩ := realAddress_of_little k (unitBytes k) ht
  refine ⟨fun hpol => exec_transfer_raises hc hr hb hp (halign hpol), fun hpol => ?_⟩
  obtain ⟨_, hexec, _⟩ := exec_transfer_stops hc hr hb hp (hrefuse hpol)
  exact hexec

end Sys2Proof.Machine
end

section
/-! SUPPORT. The launch premise that the APU controller forwards a class (70_reset_and_hazards R262 (a)): every instruction
of the class reaches the test of it, and where it fails the instruction ends there (D28). -/

namespace Sys2Proof.Machine

section
variable {s : State}

/-! ## The test itself, among the checks of each class -/

theorem fslChecked_of_unforwarded (hp : s.priv = .privileged) (ha : s.cfg.apu.fsl = false) (fsl : Field5)
    (transfer : Host.Outcome State Fault Refusal) : fslChecked fsl s transfer = .refused .apuNotForwarding := by
  simp [fslChecked, hp, ha]

theorem udiForm_of_unforwarded (ha : s.cfg.apu.udi = false) (n : BitVec 3) (rcn : BitVec 1) (t a b : Field5) :
    udiForm n rcn t a b s = .refused .apuNotForwarding := by
  simp [udiForm, ha]

/-- The form is checked first, so a valid one is asked for. -/
theorem fcmChecked_of_unforwarded {u : Bool} {rA : Field5} (h0 : u = true → rA ≠ 0#5)
    (ha : s.cfg.apu.fcmTransfer = false) (k : AccessKind) (rB : Field5)
    (beats : Word → Host.Outcome State Fault Refusal) :
    fcmChecked k u rA rB s beats = .refused .apuNotForwarding := by
  have hform : (u && rA == 0#5) = false := by simpa using h0
  simp [fcmChecked, hform, ha]

/-! ## Every instruction of a class comes to the test -/

variable {i : Instr}

theorem exec_fslTransfer_of_unforwarded (hi : isFslTransfer (classOf i) = true) (hp : s.priv = .privileged)
    (ha : s.cfg.apu.fsl = false) : exec i s = .refused .apuNotForwarding := by
  rw [exec_eq_execClass]
  cases hc : classOf i with
  | get n c rD fsl => exact fslChecked_of_unforwarded hp ha fsl _
  | put n c rA fsl => exact fslChecked_of_unforwarded hp ha fsl _
  | udi n rcn t a b => rw [hc] at hi; cases hi
  | load k u f rA rB => rw [hc] at hi; cases hi
  | store k u f rA rB => rw [hc] at hi; cases hi

theorem exec_udi_of_unforwarded {n : BitVec 3} {rcn : BitVec 1} {t a b : Field5} (hc : classOf i = .udi n rcn t a b)
    (ha : s.cfg.apu.udi = false) : exec i s = .refused .apuNotForwarding :=
  (exec_of_udiClass hc s).trans (udiForm_of_unforwarded ha n rcn t a b)

theorem exec_fcmTransfer_of_unforwarded {k : AccessKind} {d : Access} {u : Bool} {f rA rB : Field5}
    (hi : transferOf (classOf i) = some (k, d, u, f, rA, rB)) (h0 : u = true → rA ≠ 0#5)
    (ha : s.cfg.apu.fcmTransfer = false) : exec i s = .refused .apuNotForwarding := by
  rw [exec_eq_execClass]
  cases hc : classOf i with
  | get n c x y => rw [hc] at hi; cases hi
  | put n c x y => rw [hc] at hi; cases hi
  | udi n rcn x y z => rw [hc] at hi; cases hi
  | load k' u' f' x y =>
    rw [hc] at hi; cases hi
    rw [execClass, loadForm, fcmChecked_of_unforwarded h0 ha]
  | store k' u' f' x y =>
    rw [hc] at hi; cases hi
    rw [execClass, storeForm, fcmChecked_of_unforwarded h0 ha]

end

end Sys2Proof.Machine
end

section
/-! The statements of 70_reset_and_hazards. -/

namespace Sys2Proof.Machine

/-- Settles O57: the test for forwarding comes right after the mode of a get or put, first of all in a UDI, and right after
the form of a load or store. -/
theorem unforwardedClassIsRefused : Obligations.UnforwardedClassIsRefused := fun _ _ =>
  ⟨exec_fslTransfer_of_unforwarded, fun _ _ _ _ _ => exec_udi_of_unforwarded,
    fun _ _ _ _ _ _ => exec_fcmTransfer_of_unforwarded⟩

end Sys2Proof.Machine
end

section
/-! SUPPORT. What each accessor reads in the state after reset (10_state R45): every table of it holds one value in all its
places, and its memory lists no cell. -/

namespace Sys2Proof.Machine

@[simp] theorem State.reset_readGpr (r : Field5) : State.reset.readGpr r = 0#32 :=
  Vector.getElem_replicate r.isLt

@[simp] theorem State.reset_inQueue (x : Field5) : State.reset.inQueue x = [] :=
  Vector.getElem_replicate x.isLt

@[simp] theorem State.reset_outQueue (x : Field5) : State.reset.outQueue x = [] :=
  Vector.getElem_replicate x.isLt

@[simp] theorem State.reset_isFull (x : Field5) : State.reset.isFull x = false :=
  Vector.getElem_replicate x.isLt

@[simp] theorem State.reset_udiDef (n : BitVec 3) (rcn : BitVec 1) : State.reset.udiDef n rcn = none :=
  Vector.getElem_replicate (n ++ rcn).isLt

/-- The one place where the reset value rests on what an unlisted address reads as (log 7). -/
@[simp] theorem State.reset_mem_read (a : Word) : State.reset.mem.read a = 0#8 := rfl

end Sys2Proof.Machine
end

section
/-! The statement about the state after reset (10_state section 9). -/

namespace Sys2Proof.Machine

/-- Settles O1: the single values are fields of `State.reset`; the registers, queues, memory and UDI slots are read through
their accessors. -/
theorem resetState : Obligations.ResetState :=
  ⟨rfl, rfl, rfl, rfl, State.reset_readGpr,
    fun x => ⟨State.reset_inQueue x, State.reset_outQueue x, State.reset_isFull x⟩,
    State.reset_mem_read, State.reset_udiDef⟩

end Sys2Proof.Machine
end
